-- ==== Sys2Proof/Word.lean ====
section
/-!
DEFINITION. The bit-vector types of the block.

Rule R10 numbers bits little-endian within a value, rule R11 makes every quantity unsigned, and rule R78 fixes the
widths of the two ports. Only what the spec treats as bits is a bit vector: words of the ports, bytes of a stream,
64-bit counts, and the 9-bit node indices that the register port shows.
-/

namespace Sys2Proof

/-- A command word, a register read value, a symbol count or a node weight: 64 bits (R8 `CMD_W`, `REG_W`, `FREQ_W`,
`WEIGHT_W`). -/
abbrev Word := BitVec 64

/-- A symbol, a byte of a stream, an opcode field or an error code: 8 bits (R12, R15). -/
abbrev Byte := BitVec 8

/-- The 32-bit value operand of format FW (R104). -/
abbrev Half := BitVec 32

/-- An index into the node arena: 9 bits (R32, R35). -/
abbrev NodeIdx := BitVec 9

/-- A register index of the read port: 12 bits (R6, R8 `IDX_W`). -/
abbrev RegIdx := BitVec 12

/-- The count of symbols still to decode: 48 bits (R40, R8 `COUNT_W`). -/
abbrev Count := BitVec 48

end Sys2Proof
end

