-- ==== Sys2Proof/Syntax.lean ====
section
/-!
DEFINITION. The commands of the block: one constructor for each of the 24 rows of spec/opcode_table.json (rule R106),
carrying the operands of its format (R102 to R105), and the source lines and pseudo-commands of the assembler (R110,
R111).
-/

namespace Sys2Proof

/-- A command. Format F0 carries no operand (R102), format FB one byte (R103), format FW a symbol and a 32-bit value
(R104). The operands have exactly the width of their fields, so every term is a well-formed command. -/
inductive Instr where
  /-- `NOP` (R130). -/
  | nop
  /-- `RESET` (R131). -/
  | reset
  /-- `CLRERR` (R132). -/
  | clrerr
  /-- `FREQ_CLEAR` (R140). -/
  | freqClear
  /-- `FREQ_INC s` (R141). -/
  | freqInc (s : Byte)
  /-- `FREQ_SET_LO s, v` (R142). -/
  | freqSetLo (s : Byte) (v : Half)
  /-- `FREQ_SET_HI s, v` (R143). -/
  | freqSetHi (s : Byte) (v : Half)
  /-- `TREE_SEED` (R155). -/
  | treeSeed
  /-- `TREE_MERGE` (R156). -/
  | treeMerge
  /-- `TREE_BUILD` (R157). -/
  | treeBuild
  /-- `CODE_BUILD` (R170). -/
  | codeBuild
  /-- `PACK_SYM s` (R180). -/
  | packSym (s : Byte)
  /-- `PACK_FLUSH` (R181). -/
  | packFlush
  /-- `UNPACK_INIT` (R190). -/
  | unpackInit
  /-- `COUNT_SHIFT b` (R191). -/
  | countShift (b : Byte)
  /-- `UNPACK_BYTE b` (R192). -/
  | unpackByte (b : Byte)
  /-- `UNPACK_SYM` (R193). -/
  | unpackSym
  /-- `UNPACK_END` (R194). -/
  | unpackEnd
  /-- `TREE_SER` (R211). -/
  | treeSer
  /-- `DESER_START` (R212). -/
  | deserStart
  /-- `DESER_BYTE b` (R213). -/
  | deserByte (b : Byte)
  /-- `DESER_END` (R215). -/
  | deserEnd
  /-- `EMIT_BYTE b` (R230). -/
  | emitByte (b : Byte)
  /-- `COUNT_EMIT` (R231). -/
  | countEmit
  deriving DecidableEq, Repr

/-- The mnemonics of R106, one for each row of the opcode map. -/
inductive Mnemonic where
  | NOP | RESET | CLRERR
  | FREQ_CLEAR | FREQ_INC | FREQ_SET_LO | FREQ_SET_HI
  | TREE_SEED | TREE_MERGE | TREE_BUILD
  | CODE_BUILD
  | PACK_SYM | PACK_FLUSH
  | UNPACK_INIT | COUNT_SHIFT | UNPACK_BYTE | UNPACK_SYM | UNPACK_END
  | TREE_SER | DESER_START | DESER_BYTE | DESER_END
  | EMIT_BYTE | COUNT_EMIT
  deriving DecidableEq, Repr

/-- The three command formats (R102, R103, R104). -/
inductive Format where
  /-- No operand. -/
  | F0
  /-- One byte operand, `imm8`. -/
  | FB
  /-- A symbol and a 32-bit value, `sym` and `imm32`. -/
  | FW
  deriving DecidableEq, Repr

/-- An assembler source line (R110): a mnemonic and the numbers written after it. A number may be out of its field's
range and the list may have the wrong length, so an `AsmLine` can be ill-formed where an `Instr` cannot. -/
structure AsmLine where
  mnemonic : Mnemonic
  operands : List Nat
  deriving DecidableEq, Repr

/-- The pseudo-commands of R111, with their numbers as written. DESIGN CHOICE (log entry 20): they are syntax alone, with no
text form, and their strings are lists of bytes; (log entry 19): the lists of `deserBytes` and `unpackBytes` may be empty. -/
inductive Pseudo where
  /-- `FREQ_SET s, v`, `v` of 64 bits. -/
  | freqSet (s v : Nat)
  /-- `COUNT_LOAD c`, `c` of 48 bits. -/
  | countLoad (c : Nat)
  /-- `EMIT_EXT "e"`, at most 255 bytes. -/
  | emitExt (e : List Byte)
  /-- `FREQ_STR "x"`. -/
  | freqStr (x : List Byte)
  /-- `PACK_STR "x"`. -/
  | packStr (x : List Byte)
  /-- `DESER_BYTES b0, …, bk`. -/
  | deserBytes (bs : List Nat)
  /-- `UNPACK_BYTES b0, …, bk`. -/
  | unpackBytes (bs : List Nat)
  deriving DecidableEq, Repr

end Sys2Proof
end

