-- ==== Sys2Proof/Decode.lean ====
section
/-!
DEFINITION. The encodings: the opcode map, the decoder (total on every 64-bit word, refusing by name), and after it the
encoder, both read from the one table `Mnemonic.opcode` and `Mnemonic.format` (spec/30_encoding.md, R100 to R107).
-/

namespace Sys2Proof

/-! ## The opcode map (R106) -/

/-- The opcode of a mnemonic (R106). -/
def Mnemonic.opcode : Mnemonic → Byte
  | .NOP => 0x00
  | .RESET => 0x01
  | .CLRERR => 0x02
  | .FREQ_CLEAR => 0x10
  | .FREQ_INC => 0x11
  | .FREQ_SET_LO => 0x12
  | .FREQ_SET_HI => 0x13
  | .TREE_SEED => 0x20
  | .TREE_MERGE => 0x21
  | .TREE_BUILD => 0x22
  | .CODE_BUILD => 0x30
  | .PACK_SYM => 0x40
  | .PACK_FLUSH => 0x41
  | .UNPACK_INIT => 0x50
  | .COUNT_SHIFT => 0x51
  | .UNPACK_BYTE => 0x52
  | .UNPACK_SYM => 0x53
  | .UNPACK_END => 0x54
  | .TREE_SER => 0x60
  | .DESER_START => 0x61
  | .DESER_BYTE => 0x62
  | .DESER_END => 0x63
  | .EMIT_BYTE => 0x70
  | .COUNT_EMIT => 0x71

/-- The format of a mnemonic (R106). -/
def Mnemonic.format : Mnemonic → Format
  | .NOP | .RESET | .CLRERR => .F0
  | .FREQ_CLEAR => .F0
  | .FREQ_INC => .FB
  | .FREQ_SET_LO | .FREQ_SET_HI => .FW
  | .TREE_SEED | .TREE_MERGE | .TREE_BUILD => .F0
  | .CODE_BUILD => .F0
  | .PACK_SYM => .FB
  | .PACK_FLUSH => .F0
  | .UNPACK_INIT => .F0
  | .COUNT_SHIFT | .UNPACK_BYTE => .FB
  | .UNPACK_SYM | .UNPACK_END => .F0
  | .TREE_SER | .DESER_START => .F0
  | .DESER_BYTE => .FB
  | .DESER_END => .F0
  | .EMIT_BYTE => .FB
  | .COUNT_EMIT => .F0

/-- The rows of the opcode map, in the order of R106. -/
def allMnemonics : List Mnemonic :=
  [.NOP, .RESET, .CLRERR, .FREQ_CLEAR, .FREQ_INC, .FREQ_SET_LO, .FREQ_SET_HI, .TREE_SEED, .TREE_MERGE, .TREE_BUILD,
   .CODE_BUILD, .PACK_SYM, .PACK_FLUSH, .UNPACK_INIT, .COUNT_SHIFT, .UNPACK_BYTE, .UNPACK_SYM, .UNPACK_END, .TREE_SER,
   .DESER_START, .DESER_BYTE, .DESER_END, .EMIT_BYTE, .COUNT_EMIT]

/-- The mnemonic an opcode value is assigned to, if any; every other value is unassigned (R106). -/
def Mnemonic.ofOpcode (op : Byte) : Option Mnemonic :=
  allMnemonics.find? fun m => m.opcode = op

/-- The match value of a row: `op << 56` (R106). -/
def Mnemonic.matchWord (m : Mnemonic) : Word := m.opcode.setWidth 64 <<< 56

/-- The mask of a format (R106). -/
def Format.mask : Format → Word
  | .F0 => 0xFFFFFFFFFFFFFFFF
  | .FB => 0xFFFFFFFFFFFFFF00
  | .FW => 0xFFFFFF0000000000

/-! ## Fields of a command word (R101 to R105) -/

/-- `w[63:56]`, the opcode field (R101). -/
def opField (w : Word) : Byte := w.extractLsb' 56 8

/-- `imm8 = w[7:0]`, an unsigned byte (R105). -/
def imm8Field (w : Word) : Byte := w.extractLsb' 0 8

/-- `sym = w[39:32]`, an unsigned symbol (R105). -/
def symField (w : Word) : Byte := w.extractLsb' 32 8

/-- `imm32 = w[31:0]`, an unsigned 32-bit value (R105). -/
def imm32Field (w : Word) : Half := w.extractLsb' 0 32

/-- The reserved bits of a word read in a format: `w[55:0]` of F0, `w[55:8]` of FB, `w[55:40]` of FW (R102 to R104), as
a number. -/
def reservedField : Format → Word → Nat
  | .F0, w => (w.extractLsb' 0 56).toNat
  | .FB, w => (w.extractLsb' 8 48).toNat
  | .FW, w => (w.extractLsb' 40 16).toNat

/-- The command a mnemonic makes of a word's operand fields (R105, R107). -/
def Mnemonic.command (m : Mnemonic) (w : Word) : Instr :=
  match m with
  | .NOP => .nop
  | .RESET => .reset
  | .CLRERR => .clrerr
  | .FREQ_CLEAR => .freqClear
  | .FREQ_INC => .freqInc (imm8Field w)
  | .FREQ_SET_LO => .freqSetLo (symField w) (imm32Field w)
  | .FREQ_SET_HI => .freqSetHi (symField w) (imm32Field w)
  | .TREE_SEED => .treeSeed
  | .TREE_MERGE => .treeMerge
  | .TREE_BUILD => .treeBuild
  | .CODE_BUILD => .codeBuild
  | .PACK_SYM => .packSym (imm8Field w)
  | .PACK_FLUSH => .packFlush
  | .UNPACK_INIT => .unpackInit
  | .COUNT_SHIFT => .countShift (imm8Field w)
  | .UNPACK_BYTE => .unpackByte (imm8Field w)
  | .UNPACK_SYM => .unpackSym
  | .UNPACK_END => .unpackEnd
  | .TREE_SER => .treeSer
  | .DESER_START => .deserStart
  | .DESER_BYTE => .deserByte (imm8Field w)
  | .DESER_END => .deserEnd
  | .EMIT_BYTE => .emitByte (imm8Field w)
  | .COUNT_EMIT => .countEmit

/-! ## The decoder (R107) -/

/-- Why a word is ILLEGAL (R107, R109). -/
inductive IllegalReason where
  /-- The opcode field holds an unassigned value. -/
  | unassignedOpcode (op : Byte)
  /-- A reserved field of the opcode's format is not zero. -/
  | reservedBits (f : Format)
  deriving DecidableEq, Repr

/-- What a word decodes to: exactly one command, or ILLEGAL (R107). -/
inductive Decoded where
  | command (i : Instr)
  | illegal (why : IllegalReason)
  deriving DecidableEq, Repr

/-- `Decode(w)` of R107, total on every 64-bit word. -/
def decode (w : Word) : Decoded :=
  match Mnemonic.ofOpcode (opField w) with
  | none => .illegal (.unassignedOpcode (opField w))
  | some m => if reservedField m.format w = 0 then .command (m.command w) else .illegal (.reservedBits m.format)

/-- The command of a decoded word, if it is one. -/
def Decoded.instr? : Decoded → Option Instr
  | .command i => some i
  | .illegal _ => none

/-- The decoder on the numbering of spec/opcode_table.json: a command is one 64-bit word (R100), whose bit 0 is its least
significant bit (R10), so the bits above `nbits` are zero and the word is `w` itself. -/
def decodeTableWord (nbits w : Nat) : Option Instr :=
  (decode (BitVec.ofNat 64 (w % 2 ^ nbits))).instr?

/-! ## The encoder (R102 to R104, R110) -/

/-- The mnemonic of a command. -/
def Instr.mnemonic : Instr → Mnemonic
  | .nop => .NOP
  | .reset => .RESET
  | .clrerr => .CLRERR
  | .freqClear => .FREQ_CLEAR
  | .freqInc _ => .FREQ_INC
  | .freqSetLo _ _ => .FREQ_SET_LO
  | .freqSetHi _ _ => .FREQ_SET_HI
  | .treeSeed => .TREE_SEED
  | .treeMerge => .TREE_MERGE
  | .treeBuild => .TREE_BUILD
  | .codeBuild => .CODE_BUILD
  | .packSym _ => .PACK_SYM
  | .packFlush => .PACK_FLUSH
  | .unpackInit => .UNPACK_INIT
  | .countShift _ => .COUNT_SHIFT
  | .unpackByte _ => .UNPACK_BYTE
  | .unpackSym => .UNPACK_SYM
  | .unpackEnd => .UNPACK_END
  | .treeSer => .TREE_SER
  | .deserStart => .DESER_START
  | .deserByte _ => .DESER_BYTE
  | .deserEnd => .DESER_END
  | .emitByte _ => .EMIT_BYTE
  | .countEmit => .COUNT_EMIT

/-- The opcode of a command, which an error of that command records in `ERROP` (R241). -/
def Instr.opcode (i : Instr) : Byte := i.mnemonic.opcode

/-- The operand bits of a command's word, placed by R103 and R104. -/
def Instr.operandBits : Instr → Word
  | .freqInc s | .packSym s => s.setWidth 64
  | .countShift b | .unpackByte b | .deserByte b | .emitByte b => b.setWidth 64
  | .freqSetLo s v | .freqSetHi s v => s.setWidth 64 <<< 32 ||| v.setWidth 64
  | .nop | .reset | .clrerr | .freqClear | .treeSeed | .treeMerge | .treeBuild | .codeBuild => 0
  | .packFlush | .unpackInit | .unpackSym | .unpackEnd | .treeSer | .deserStart | .deserEnd | .countEmit => 0

/-- The word of a command: `(op << 56) | operand bits` (R110). -/
def encode (i : Instr) : Word := i.mnemonic.matchWord ||| i.operandBits

end Sys2Proof
end

