-- ==== Sys2Proof/Machine/State.lean ====
section
/-!
DEFINITION. The state of the block (spec/10_state.md, R30 to R56), as plain data, with the host's side of its ports
(R7, R44, R52), and the reasons a step can stop.

The arena, the heap and the deserializer stack are held as the lists of their LIVE entries, in index order: entry `i` is
live exactly when `i` is below the list's length (R33, R36, R41). `NCOUNT`, `HSIZE` and `DS_DEPTH` are those lengths,
stored once, as the lists. A non-live entry is unspecified and no rule reads it (R33, R52), so the state gives it no
contents.
-/

namespace Sys2Proof.Machine

/-- `KIND` of an arena entry (R32). -/
inductive Kind where
  /-- Value 0: an internal node. -/
  | internal
  /-- Value 1: a leaf. -/
  | leaf
  deriving DecidableEq, Repr, Inhabited

/-- An arena entry, with the five fields of R32. -/
structure Node where
  /-- `KIND`. -/
  kind : Kind
  /-- `SYM`: the symbol of a leaf, 0 in an internal node. -/
  sym : Byte
  /-- `W`: the weight. -/
  w : Word
  /-- `L`: the left child of an internal node, 0 in a leaf. -/
  l : NodeIdx
  /-- `R`: the right child of an internal node, 0 in a leaf. -/
  r : NodeIdx
  deriving DecidableEq, Repr, Inhabited

/-- `TORIGIN`: how the present tree was made (R35). -/
inductive Origin where
  /-- Value 0: by the tree builder. -/
  | builder
  /-- Value 1: by the deserializer. -/
  | deserializer
  deriving DecidableEq, Repr

/-- A code-table entry (R37). -/
structure CodeEntry where
  /-- `CVALID`: whether the symbol has a code. -/
  cvalid : Bool
  /-- `CLEN`: the code length. -/
  clen : BitVec 8
  /-- `CBITS`: the code's value; its first bit is bit `CLEN − 1`. -/
  cbits : BitVec 255
  deriving DecidableEq, Repr

/-- `DS_STATE` (R41). -/
inductive DsState where
  /-- Value 0: no parse in progress. -/
  | idle
  /-- Value 1: the next byte is a marker. -/
  | marker
  /-- Value 2: the next byte is the symbol of leaf `DS_CUR`. -/
  | sym
  /-- Value 3: a complete tree was parsed. -/
  | done
  deriving DecidableEq, Repr

/-- Which child a deserializer frame's node awaits (R41). -/
inductive Side where
  /-- Value 0: the left child. -/
  | left
  /-- Value 1: the right child. -/
  | right
  deriving DecidableEq, Repr

/-- A frame of `DS_STK` (R41). -/
structure Frame where
  node : NodeIdx
  side : Side
  deriving DecidableEq, Repr

/-- The error codes of R240; the codes 0x0C to 0xFF, which are never written, have no name here. -/
inductive ErrCode where
  /-- 0x00 `NONE`. -/
  | noError
  /-- 0x01 `EMPTY`. -/
  | empty
  /-- 0x02 `CORRUPT_HEADER`. -/
  | corruptHeader
  /-- 0x03 `TRUNCATED`. -/
  | truncated
  /-- 0x04 `ALPHABET`. -/
  | alphabet
  /-- 0x05 `STATE`. -/
  | state
  /-- 0x06 `FREQ_OVF`. -/
  | freqOvf
  /-- 0x07 `WEIGHT_OVF`. -/
  | weightOvf
  /-- 0x08 `NOCODE`. -/
  | noCode
  /-- 0x09 `DUPSYM`. -/
  | dupSym
  /-- 0x0A `COUNT_OVF`. -/
  | countOvf
  /-- 0x0B `ILLEGAL`. -/
  | illegal
  deriving DecidableEq, Repr

/-- The three host actions (R7). -/
inductive HostAction where
  /-- `Cmd(w)`: write a command word. -/
  | cmd (w : Word)
  /-- `RegRead(idx)`: read a register index. -/
  | regRead (idx : RegIdx)
  /-- `HwReset`: assert the reset input. -/
  | hwReset
  deriving DecidableEq, Repr

/-- The whole state. The fields down to `out` are the components of R30 and the output history of R44; the last three
are the model's own: the host's pending actions, what its register reads returned, and the counter that free values are
drawn by. -/
structure State where
  /-- `FREQ[0..255]` (R31). -/
  freq : Vector Word 256
  /-- `NODE[0..NCOUNT−1]`, the live arena entries (R32, R33). -/
  nodes : List Node
  /-- `ROOT` (R35). -/
  root : NodeIdx
  /-- `TVALID` (R35). -/
  tvalid : Bool
  /-- `TORIGIN` (R35). -/
  torigin : Origin
  /-- `HEAP[0..HSIZE−1]`, the live heap entries (R36). -/
  heap : List NodeIdx
  /-- `CODE[0..255]` (R37). -/
  code : Vector CodeEntry 256
  /-- `CTVALID` (R37). -/
  ctvalid : Bool
  /-- `PACC` (R39). -/
  pacc : Byte
  /-- `PACCN` (R39). -/
  paccn : BitVec 3
  /-- `REMAIN` (R40). -/
  remain : Count
  /-- `WALK` (R40). -/
  walk : NodeIdx
  /-- `DS_STATE` (R41). -/
  dsState : DsState
  /-- `DS_STK`, the live frames, `DSSTK[DS_DEPTH−1]`, the top, FIRST in the list (R41). -/
  dsStk : List Frame
  /-- `DS_CUR` (R41). -/
  dsCur : NodeIdx
  /-- `ERR` (R42). -/
  err : ErrCode
  /-- `ERROP` (R42). -/
  errop : Byte
  /-- `OUTCNT` (R43). -/
  outcnt : Word
  /-- `OUT`: every byte emitted, in order (R44). -/
  out : List Byte
  /-- The model's own: the host actions issued and not yet taken, in order (R7, R71). -/
  inbox : List HostAction
  /-- The model's own: what each `RegRead` returned to the host, in order, with its index (R52). -/
  reads : List (RegIdx × Word)
  /-- The model's own: how many commands and resets have been taken; free values are drawn by it. -/
  draws : Nat
  deriving DecidableEq, Repr

/-- Why a step stops. A state that the invariants of R51 hold of meets none of these: they stand where the spec's
pseudocode would need an entry or an end that the hardware does not have. -/
inductive Fault where
  /-- A merge would allocate an arena entry at index 511 or above, which does not exist (R156: "`n ≤ 510` always
  holds"). Raised by `TREE_MERGE` and `TREE_BUILD`, only in states R51 rules out. Safe. -/
  | arenaExhausted
  /-- A frame would be pushed on a stack of 511 frames (R214: "it cannot overflow"). Raised by `DESER_BYTE`, only in
  states R51 rules out. Safe. -/
  | stackOverflow
  /-- A walk from `ROOT` meets a path of more than 255 edges, so that the nodes form no tree of the arena (R172). Raised
  by `CODE_BUILD` and `TREE_SER`, only in states R51 rules out. Safe. -/
  | notATree
  deriving DecidableEq, Repr

/-- Why a step has no meaning. -/
inductive Refusal where
  /-- The instruction has no meaning in the model yet. Raised by no arm of `exec` in this model. Safe. -/
  | notModelled (mnemonic : String)
  /-- `HeapPop` on an empty heap, which the spec leaves undefined and no command calls (R151, R156). Raised by the merge
  body, after its check of `HSIZE`, so never. Safe. -/
  | popEmptyHeap
  deriving DecidableEq, Repr

/-- The outcome of a command or of a step. -/
abbrev Result := Host.Outcome State Fault Refusal

/-- The cleared code-table entry (R37, R49). -/
def CodeEntry.cleared : CodeEntry := ⟨false, 0, 0⟩

/-- The state right after the first `HwReset` (R56, R270), with `OUT` empty (R273) and nothing asked of the block yet. -/
def State.reset : State where
  freq := Vector.replicate 256 0
  nodes := []
  root := 0
  tvalid := false
  torigin := .builder
  heap := []
  code := Vector.replicate 256 CodeEntry.cleared
  ctvalid := false
  pacc := 0
  paccn := 0
  remain := 0
  walk := 0
  dsState := .idle
  dsStk := []
  dsCur := 0
  err := .noError
  errop := 0
  outcnt := 0
  out := []
  inbox := []
  reads := []
  draws := 0

end Sys2Proof.Machine
end

