-- ==== Sys2Proof/Config.lean ====
section
/-!
DEFINITION. What the spec leaves open: the one implementation parameter (R9, decision D7) and the free values (R33, R52;
spec/93_implementation_defined.md S1, S4). Each is an opaque constant, so that nothing in Lean can evaluate it.
-/

namespace Sys2Proof

/-- One less than `OUTQ_DEPTH`. -/
opaque Config.outqDepthPred : Nat

/-- `OUTQ_DEPTH`, at least 1: the depth of the output buffer between the block and the host (R9). It affects timing and
back-pressure alone, and no rule reads it. -/
def Config.outqDepth : Nat := Config.outqDepthPred + 1

/-- The 64-bit value that the register port returns for a non-live entry (R52): any value, by the number of commands and
resets taken and the index read, so that reads between two commands agree, as R52 says. -/
opaque Config.freeRead : Nat → RegIdx → Word

/-- The fields of a non-live arena entry (R33), by the number of commands and resets taken and the index. No rule reads
one in a state that R51 holds of. -/
opaque Config.freeNode : Nat → NodeIdx → Machine.Node

end Sys2Proof
end

