-- ==== Sys2Proof/Machine/Flags.lean ====
section
/-!
DEFINITION. The numbers that the named values stand for in a register (R32, R35, R41, R240), the derived flags `irq`
(R45) and `DEGEN` (R46), the counters that are list lengths (R33, R36, R41), and reading an arena entry.
-/

namespace Sys2Proof.Machine

/-- The code of an error in `ERR` (R240). -/
def ErrCode.code : ErrCode → Byte
  | .noError => 0x00
  | .empty => 0x01
  | .corruptHeader => 0x02
  | .truncated => 0x03
  | .alphabet => 0x04
  | .state => 0x05
  | .freqOvf => 0x06
  | .weightOvf => 0x07
  | .noCode => 0x08
  | .dupSym => 0x09
  | .countOvf => 0x0A
  | .illegal => 0x0B

/-- The value of `KIND` (R32). -/
def Kind.bit : Kind → Bool
  | .internal => false
  | .leaf => true

/-- The value of `TORIGIN` (R35). -/
def Origin.bit : Origin → Bool
  | .builder => false
  | .deserializer => true

/-- The value of `DS_STATE` (R41). -/
def DsState.value : DsState → BitVec 2
  | .idle => 0
  | .marker => 1
  | .sym => 2
  | .done => 3

/-- The value of a frame's `side` (R41). -/
def Side.bit : Side → Bool
  | .left => false
  | .right => true

/-- `NCOUNT`: the number of allocated arena entries (R33). -/
def State.ncount (s : State) : Nat := s.nodes.length

/-- `HSIZE`: the number of live heap entries (R36). -/
def State.hsize (s : State) : Nat := s.heap.length

/-- `DS_DEPTH`: the number of frames (R41). -/
def State.dsDepth (s : State) : Nat := s.dsStk.length

/-- `NODE[i]`. A non-live entry is unspecified (R33): a free value. -/
def State.node (s : State) (i : NodeIdx) : Node := (s.nodes[i.toNat]?).getD (Config.freeNode s.draws i)

/-- `Leaf(n)` of R13: `NODE[n].KIND = 1`. -/
def State.isLeaf (s : State) (i : NodeIdx) : Bool := (s.node i).kind = .leaf

/-- `W(n)` of R13. -/
def State.weight (s : State) (i : NodeIdx) : Word := (s.node i).w

/-- `irq` is 1 exactly when `ERR ≠ 0` (R45, R250). -/
def State.irq (s : State) : Bool := s.err ≠ .noError

/-- `DEGEN`: 1 when `TVALID = 1` and `Leaf(ROOT)` (R46). -/
def State.degen (s : State) : Bool := s.tvalid && s.isLeaf s.root

/-- `FREQ[a]` (R31). -/
def State.freqOf (s : State) (a : Byte) : Word := s.freq[a.toNat]'a.isLt

/-- `CODE[a]` (R37). -/
def State.codeOf (s : State) (a : Byte) : CodeEntry := s.code[a.toNat]'a.isLt

end Sys2Proof.Machine
end

