-- ==== Sys2Proof/Machine/Heap.lean ====
section
/-!
DEFINITION. The heap primitives (R150, R151) over a list of node indices, keyed by a weight function. Slot `j`'s parent is
slot `(j−1)/2`, its children are slots `2j+1` and `2j+2`. All comparisons are strict, so that equal weights do not move.
-/

namespace Sys2Proof.Machine

/-- The weight at slot `j`. The primitives ask it only of live slots. -/
def keyAt (key : NodeIdx → Nat) (h : List NodeIdx) (j : Nat) : Nat := key (h.getD j 0)

/-- `swap HEAP[i], HEAP[j]`. -/
def swapSlots (h : List NodeIdx) (i j : Nat) : List NodeIdx := (h.set i (h.getD j 0)).set j (h.getD i 0)

/-- The loop of `HeapPush` (R150), from slot `j`. Each pass at least halves `j`, so `fuel = j` is enough. -/
def siftUp (key : NodeIdx → Nat) : Nat → List NodeIdx → Nat → List NodeIdx
  | 0, h, _ => h
  | fuel + 1, h, j =>
    if 0 < j then
      if keyAt key h ((j - 1) / 2) > keyAt key h j then siftUp key fuel (swapSlots h ((j - 1) / 2) j) ((j - 1) / 2)
      else h
    else h

/-- `HeapPush(n)` (R150). -/
def heapPush (key : NodeIdx → Nat) (h : List NodeIdx) (n : NodeIdx) : List NodeIdx :=
  siftUp key h.length (h ++ [n]) h.length

/-- The slot that the loop of `HeapPop` swaps slot `j` with: the left child when it weighs less, then the right child when
it weighs less than the smaller of the two; `j` itself when neither does (R151). -/
def minChild (key : NodeIdx → Nat) (h : List NodeIdx) (j : Nat) : Nat :=
  let m := if 2 * j + 1 < h.length ∧ keyAt key h (2 * j + 1) < keyAt key h j then 2 * j + 1 else j
  if 2 * j + 2 < h.length ∧ keyAt key h (2 * j + 2) < keyAt key h m then 2 * j + 2 else m

/-- The loop of `HeapPop` (R151), from slot `j`. Each pass at least doubles `j`, so `fuel = HSIZE` is enough. -/
def siftDown (key : NodeIdx → Nat) : Nat → List NodeIdx → Nat → List NodeIdx
  | 0, h, _ => h
  | fuel + 1, h, j =>
    if minChild key h j = j then h else siftDown key fuel (swapSlots h j (minChild key h j)) (minChild key h j)

/-- `HeapPop()` (R151): the top entry and the heap without it, whose last entry took the top slot and sank. An empty heap
has no top: undefined in the document, and called by no command. -/
def heapPop (key : NodeIdx → Nat) (h : List NodeIdx) : Option (NodeIdx × List NodeIdx) :=
  match h with
  | [] => none
  | [r] => some (r, [])
  | r :: x :: rest =>
    let sunk := ((x :: rest).getLastD 0) :: (x :: rest).dropLast
    some (r, siftDown key sunk.length sunk 0)

end Sys2Proof.Machine
end

