-- ==== Sys2Proof/Machine/Operands.lean ====
section
/-!
DEFINITION. How the operands and table entries of a command are read as bit sequences and byte sequences (R12, R83, R87).
-/

namespace Sys2Proof.Machine

/-- A bit sequence `[c1, …, cd]`, `c1` first (R12). -/
abbrev Bits := List Bool

/-- `BitsValue([c1..cd]) = Σ ck · 2^(d−k)`: the first bit is the most significant (R12). -/
def bitsValue : Bits → Nat
  | [] => 0
  | c :: rest => c.toNat * 2 ^ rest.length + bitsValue rest

/-- The bits of a payload byte, most significant first (R83, R192). -/
def byteBits (b : Byte) : Bits := [7, 6, 5, 4, 3, 2, 1, 0].map b.getLsbD

/-- The code a table entry holds: `CLEN` bits, of which the first is `CBITS[CLEN−1]` and the last `CBITS[0]` (R37,
R180). -/
def CodeEntry.bits (e : CodeEntry) : Bits := (List.range e.clen.toNat).reverse.map e.cbits.getLsbD

/-- The table entry that records a path as a symbol's code (R170). -/
def CodeEntry.ofPath (p : Bits) : CodeEntry :=
  ⟨true, BitVec.ofNat 8 p.length, BitVec.ofNat 255 (bitsValue p)⟩

/-- The six bytes of a count, big-endian: `c[47:40], …, c[7:0]` (R87, R231). -/
def countBytes (c : Word) : List Byte := [5, 4, 3, 2, 1, 0].map fun k => c.extractLsb' (8 * k) 8

end Sys2Proof.Machine
end

