-- ==== Sys2Proof/Machine/Params.lean ====
section
/-!
DEFINITION. The fixed parameters of the block (R8) and its identification constant (R54). A model must not take other
values (R8).
-/

namespace Sys2Proof.Machine

/-- `NSYM`: the alphabet size (R8). -/
def nsym : Nat := 256

/-- `HEAP_CAP`: the heap's entries (R8). -/
def heapCap : Nat := 256

/-- `NODE_CAP`: the arena's entries, `2·NSYM − 1` (R8). -/
def nodeCap : Nat := 511

/-- `MAXLEN`: the longest root-to-leaf path of a full binary tree of at most `NODE_CAP` nodes (R8, R172). -/
def maxLen : Nat := 255

/-- `DS_DEPTH_CAP`: the deserializer stack's entries (R8, R214). -/
def dsDepthCap : Nat := 511

/-- `LEAF_MARK`: the ASCII code of the character `'1'` (R8, R210). -/
def leafMark : Byte := 0x31

/-- `NODE_MARK`: the ASCII code of the character `'0'` (R8, R210). -/
def nodeMark : Byte := 0x30

/-- The constant that `ID` reads (R54). -/
def idValue : Word := 0x4855464600010007

/-- The symbols, ascending (R8, R153). -/
def allSymbols : List Byte := (List.range nsym).map (BitVec.ofNat 8)

end Sys2Proof.Machine
end

