-- ==== Sys2Proof/Machine/Ops.lean ====
section
/-!
DEFINITION. The shared operations of the command rules: emitting, raising an error, the sticky rule, reset, the
state-wide effects `TI`, `ClearCodes` and `TC`, allocation, and taking an action from the host.
-/

namespace Sys2Proof.Machine

/-! ## Outcomes -/

/-- Run `f` on the state an outcome goes on with. -/
def andThen (r : Result) (f : State → Result) : Result :=
  match r with
  | .next s => f s
  | .fault e => .fault e
  | .refused e => .refused e

/-! ## Output (R13, R43, R44) -/

/-- `Emit(b)`: append to `OUT` and count, modulo 2^64 (R13). -/
def State.emit (s : State) (b : Byte) : State := { s with out := s.out ++ [b], outcnt := s.outcnt + 1 }

/-- `Emit` of each byte in order. -/
def State.emitAll (s : State) (bs : List Byte) : State := bs.foldl State.emit s

/-! ## Errors (R240 to R248) -/

/-- `raise Error(c)`: the entry of an error. `ERR` takes the code and `ERROP` the opcode field of the command word, `irq`
rises with `ERR`, and nothing else changes: there is no vector, saved pc or mode (R244, R245). -/
def raise (c : ErrCode) (op : Byte) (s : State) : Result := .next { s with err := c, errop := op }

/-- The sticky rule: while `ERR ≠ 0` a command is ignored and changes nothing (R246). -/
def unlessSticky (s : State) (run : Result) : Result := if s.err = .noError then run else .next s

/-- The return from an error: `ERR` and `ERROP` go to 0 and nothing is restored (R132, R247). -/
def State.clearError (s : State) : State := { s with err := .noError, errop := 0 }

/-- The commands that run while an error is recorded: `NOP`, `RESET` and `CLRERR` (R246). -/
def exempt : Instr → Bool
  | .nop | .reset | .clrerr => true
  | .freqClear | .freqInc _ | .freqSetLo _ _ | .freqSetHi _ _ => false
  | .treeSeed | .treeMerge | .treeBuild | .codeBuild => false
  | .packSym _ | .packFlush => false
  | .unpackInit | .countShift _ | .unpackByte _ | .unpackSym | .unpackEnd => false
  | .treeSer | .deserStart | .deserByte _ | .deserEnd => false
  | .emitByte _ | .countEmit => false

/-- A word that decodes to ILLEGAL: ignored while `ERR ≠ 0`, else `Error(ILLEGAL)` with its opcode field (R108, R241). -/
def illegalWord (w : Word) (s : State) : Result := unlessSticky s (raise .illegal (opField w) s)

/-! ## Reset (R270, R271) -/

/-- Every component takes its value of R56, and `OUT` keeps every byte (R271). The host's side of the ports is not the
block's state and stays. -/
def State.applyReset (s : State) : State :=
  { State.reset with out := s.out, inbox := s.inbox, reads := s.reads, draws := s.draws }

/-! ## State-wide effects (R48 to R50) -/

/-- `ClearCodes()` (R49). -/
def State.clearCodes (s : State) : State :=
  { s with code := Vector.replicate 256 CodeEntry.cleared, ctvalid := false }

/-- `TI()`: the tree, the heap, the codes, the walk and the parse go (R48). -/
def State.invalidateTree (s : State) : State :=
  { s.clearCodes with
    nodes := [], heap := [], root := 0, tvalid := false, torigin := .builder, walk := 0
    dsState := .idle, dsStk := [], dsCur := 0 }

/-- `TC(r, o)`: a tree is complete (R50). -/
def State.completeTree (s : State) (r : NodeIdx) (o : Origin) : State :=
  { s with root := r, tvalid := true, torigin := o, walk := r }

/-! ## Tables -/

/-- `FREQ[a] <- v`. -/
def State.setFreq (s : State) (a : Byte) (v : Word) : State := { s with freq := s.freq.set a.toNat v a.isLt }

/-- `CODE[a] <- e`. -/
def State.setCode (s : State) (a : Byte) (e : CodeEntry) : State := { s with code := s.code.set a.toNat e a.isLt }

/-- The arena index that the next allocation takes: `NCOUNT` (R33). -/
def State.nextIdx (s : State) : NodeIdx := BitVec.ofNat 9 s.ncount

/-- `NODE[NCOUNT] <- n; NCOUNT <- NCOUNT + 1`: every field is written (R34). -/
def State.alloc (s : State) (n : Node) : State := { s with nodes := s.nodes ++ [n] }

/-- Rewrite fields of the live entry `i`. -/
def State.modifyNode (s : State) (i : NodeIdx) (f : Node → Node) : State := { s with nodes := s.nodes.modify i.toNat f }

/-- The key the heap is ordered by: `W(n)` (R36). -/
def State.key (s : State) (i : NodeIdx) : Nat := (s.weight i).toNat

/-- `HeapPush(n)` on the state (R150). -/
def State.pushHeap (s : State) (n : NodeIdx) : State := { s with heap := heapPush s.key s.heap n }

/-! ## Taking an action from the host (R7, R71) -/

/-- The host's next command or reset is taken: it leaves the queue, and non-live entries are drawn anew from here on. -/
def State.take (s : State) (rest : List HostAction) : State := { s with inbox := rest, draws := s.draws + 1 }

/-- A register read is served: the value goes to the host and no component of the block changes (R52). -/
def State.serve (s : State) (rest : List HostAction) (idx : RegIdx) (v : Word) : State :=
  { s with inbox := rest, reads := s.reads ++ [(idx, v)] }

end Sys2Proof.Machine
end

