-- ==== Sys2Proof/Machine/BitPacker.lean ====
section
/-!
DEFINITION. The bit packer (spec/44_bit_packer.md, R180 and R181).
-/

namespace Sys2Proof.Machine

/-- `(PACC << 1) | c`. -/
def shiftIn (a : Byte) (c : Bool) : Byte := a <<< 1 ||| (BitVec.ofBool c).setWidth 8

/-- One pass of the loop of R180: bit `c` joins the accumulator, which is emitted and cleared when it holds 8 bits. -/
def State.packBit (s : State) (c : Bool) : State :=
  if s.paccn.toNat + 1 = 8 then { s.emit (shiftIn s.pacc c) with pacc := 0, paccn := 0 }
  else { s with pacc := shiftIn s.pacc c, paccn := s.paccn + 1 }

/-- The loop of R180 over the bits of a code, first bit first. -/
def State.packBits (s : State) (bits : Bits) : State := bits.foldl State.packBit s

/-- `PACK_SYM s`: `STATE` without a code table, `NOCODE` for a symbol without a code, else its code is appended to the
payload (R180). -/
def execPackSym (a : Byte) (s : State) : Result :=
  unlessSticky s
    (if s.ctvalid = false then raise .state Mnemonic.PACK_SYM.opcode s
     else if (s.codeOf a).cvalid = false then raise .noCode Mnemonic.PACK_SYM.opcode s
     else .next (s.packBits (s.codeOf a).bits))

/-- The byte `PACK_FLUSH` emits: the pending bits in the high positions, zeros below (R84, R181). -/
def State.paddedByte (s : State) : Byte := s.pacc <<< (8 - s.paccn.toNat)

/-- `PACK_FLUSH`: emit the partial byte, if any, zero-padded, and clear the accumulator (R181). -/
def execPackFlush (s : State) : Result :=
  unlessSticky s
    (if 0 < s.paccn.toNat then .next { s.emit s.paddedByte with pacc := 0, paccn := 0 }
     else .next { s with pacc := 0, paccn := 0 })

end Sys2Proof.Machine
end

