-- ==== Sys2Proof/Machine/BitUnpacker.lean ====
section
/-!
DEFINITION. The bit unpacker and decoder walk (spec/45_bit_unpacker.md, R190 to R194).
-/

namespace Sys2Proof.Machine

/-- `UNPACK_INIT`: start a decode pass (R190). -/
def execUnpackInit (s : State) : Result := unlessSticky s (.next { s with remain := 0, walk := s.root })

/-- `COUNT_SHIFT b`: `REMAIN <- ((REMAIN << 8) | b) mod 2^48` (R191). -/
def execCountShift (b : Byte) (s : State) : Result :=
  unlessSticky s (.next { s with remain := s.remain <<< 8 ||| b.setWidth 48 })

/-- The child that bit `c` leads to: left on 0, right on 1 (R192). -/
def State.child (s : State) (n : NodeIdx) (c : Bool) : NodeIdx := if c then (s.node n).r else (s.node n).l

/-- One pass of the loop of R192: nothing once the count is met; else one edge down, and at a leaf its symbol is emitted,
`REMAIN` drops and the walk is back at the root. -/
def State.walkBit (s : State) (c : Bool) : State :=
  if s.remain = 0 then s
  else if s.isLeaf (s.child s.walk c) then
    { s.emit (s.node (s.child s.walk c)).sym with remain := s.remain - 1, walk := s.root }
  else { s with walk := s.child s.walk c }

/-- The loop of R192 over a list of bits, first bit first. -/
def State.walkBits (s : State) (bits : Bits) : State := bits.foldl State.walkBit s

/-- `UNPACK_BYTE b`: `STATE` without a tree; no effect at `REMAIN = 0` or on a degenerate tree; else the byte's bits are
walked, most significant first (R192). -/
def execUnpackByte (b : Byte) (s : State) : Result :=
  unlessSticky s
    (if s.tvalid = false then raise .state Mnemonic.UNPACK_BYTE.opcode s
     else if s.remain = 0 ∨ s.isLeaf s.root = true then .next s
     else .next (s.walkBits (byteBits b)))

/-- `UNPACK_SYM`: `STATE` without a tree or with an internal root; no effect at `REMAIN = 0`; else the root's symbol is
emitted and `REMAIN` drops (R193). -/
def execUnpackSym (s : State) : Result :=
  unlessSticky s
    (if s.tvalid = false then raise .state Mnemonic.UNPACK_SYM.opcode s
     else if s.isLeaf s.root = false then raise .state Mnemonic.UNPACK_SYM.opcode s
     else if s.remain = 0 then .next s
     else .next { s.emit (s.node s.root).sym with remain := s.remain - 1 })

/-- `UNPACK_END`: `TRUNCATED` unless the count was met; no other effect (R194). -/
def execUnpackEnd (s : State) : Result :=
  unlessSticky s (if s.remain ≠ 0 then raise .truncated Mnemonic.UNPACK_END.opcode s else .next s)

end Sys2Proof.Machine
end

