-- ==== Sys2Proof/Machine/CodeTable.lean ====
section
/-!
DEFINITION. The code-table generator (spec/43_code_table.md, R170).
-/

namespace Sys2Proof.Machine

/-- `Codes(n, p)` of R170: the symbol and path of each leaf below `n`, left before right, over a reader of arena entries.
`fuel` bounds the edges still allowed; a tree of the arena needs at most `maxLen` (R172), and `none` says that the nodes
go deeper. -/
def codesFrom (node : NodeIdx → Node) : Nat → NodeIdx → Bits → Option (List (Byte × Bits))
  | 0, n, p => if (node n).kind = .leaf then some [((node n).sym, p)] else none
  | fuel + 1, n, p =>
    if (node n).kind = .leaf then some [((node n).sym, p)]
    else
      match codesFrom node fuel (node n).l (p ++ [false]), codesFrom node fuel (node n).r (p ++ [true]) with
      | some cl, some cr => some (cl ++ cr)
      | none, _ => none
      | some _, none => none

/-- `C` of R170: the codes of the present tree. -/
def State.codes (s : State) : Option (List (Byte × Bits)) := codesFrom s.node maxLen s.root []

/-- Whether two entries have the same symbol (R170). -/
def hasDuplicate (c : List (Byte × Bits)) : Bool := ¬ (c.map Prod.fst).Nodup

/-- One pass of the loop of R170: symbol `a` gets path `p`. -/
def State.recordCode (s : State) (e : Byte × Bits) : State := s.setCode e.1 (CodeEntry.ofPath e.2)

/-- The writes of `CODE_BUILD`: clear the table, record each code, mark it valid (R170). -/
def State.fillCodes (s : State) (c : List (Byte × Bits)) : State :=
  { c.foldl State.recordCode s.clearCodes with ctvalid := true }

/-- `CODE_BUILD`: `STATE` without a complete tree, `DUPSYM` when two leaves carry one symbol, else the new table (R170). -/
def execCodeBuild (s : State) : Result :=
  unlessSticky s
    (if s.tvalid = false then raise .state Mnemonic.CODE_BUILD.opcode s
     else
       match s.codes with
       | none => .fault .notATree
       | some c => if hasDuplicate c then raise .dupSym Mnemonic.CODE_BUILD.opcode s else .next (s.fillCodes c))

end Sys2Proof.Machine
end

