-- ==== Sys2Proof/Machine/Container.lean ====
section
/-!
DEFINITION. The container commands (spec/47_container.md, R230 and R231).
-/

namespace Sys2Proof.Machine

/-- `EMIT_BYTE b`: pass one byte to the output stream (R230). -/
def execEmitByte (b : Byte) (s : State) : Result := unlessSticky s (.next (s.emit b))

/-- `COUNT_EMIT`: `STATE` without a built tree, `COUNT_OVF` when the root weight exceeds 48 bits, else its six bytes,
big-endian (R231). -/
def execCountEmit (s : State) : Result :=
  unlessSticky s
    (if s.tvalid = false ∨ s.torigin = .deserializer then raise .state Mnemonic.COUNT_EMIT.opcode s
     else if (s.weight s.root).toNat > 2 ^ 48 - 1 then raise .countOvf Mnemonic.COUNT_EMIT.opcode s
     else .next (s.emitAll (countBytes (s.weight s.root))))

end Sys2Proof.Machine
end

