-- ==== Sys2Proof/Machine/Control.lean ====
section
/-!
DEFINITION. The control commands (spec/40_control.md): the three that run whether or not an error is recorded (R246).
-/

namespace Sys2Proof.Machine

/-- `NOP`: no effect (R130). -/
def execNop (s : State) : Result := .next s

/-- `RESET`: the reset of R270, as `HwReset` (R131). -/
def execReset (s : State) : Result := .next s.applyReset

/-- `CLRERR`: acknowledge and clear the sticky error (R132). -/
def execClrerr (s : State) : Result := .next s.clearError

end Sys2Proof.Machine
end

