-- ==== Sys2Proof/Machine/Frequency.lean ====
section
/-!
DEFINITION. The frequency-table commands (spec/41_frequency.md, R140 to R143).
-/

namespace Sys2Proof.Machine

/-- `FREQ_CLEAR`: every count goes to 0 (R140). -/
def execFreqClear (s : State) : Result :=
  unlessSticky s (.next { s with freq := Vector.replicate 256 0 })

/-- `FREQ_INC s`: one occurrence of `a` is counted; a count of 2^64 − 1 raises `FREQ_OVF` and does not wrap (R141). -/
def execFreqInc (a : Byte) (s : State) : Result :=
  unlessSticky s
    (if (s.freqOf a).toNat = 2 ^ 64 - 1 then raise .freqOvf Mnemonic.FREQ_INC.opcode s
     else .next (s.setFreq a (s.freqOf a + 1)))

/-- `FREQ_SET_LO s, v`: the low half is written, the high half kept (R142). -/
def execFreqSetLo (a : Byte) (v : Half) (s : State) : Result :=
  unlessSticky s (.next (s.setFreq a ((s.freqOf a).extractLsb' 32 32 ++ v)))

/-- `FREQ_SET_HI s, v`: the high half is written, the low half kept (R143). -/
def execFreqSetHi (a : Byte) (v : Half) (s : State) : Result :=
  unlessSticky s (.next (s.setFreq a (v ++ (s.freqOf a).extractLsb' 0 32)))

end Sys2Proof.Machine
end

