-- ==== Sys2Proof/Machine/TreeBuilder.lean ====
section
/-!
DEFINITION. The tree builder (spec/42_tree_builder.md, R153 to R157).
-/

namespace Sys2Proof.Machine

/-- `D` of R155: the symbols with a nonzero count, ascending (R153). -/
def State.presentSymbols (s : State) : List Byte := allSymbols.filter fun a => s.freqOf a ≠ 0

/-- `Σ FREQ[s]` over all symbols, exact (R155). -/
def State.freqTotal (s : State) : Nat := (allSymbols.map fun a => (s.freqOf a).toNat).sum

/-- The checks of `TREE_SEED`, in order (R155): no symbol, more symbols than the heap holds, a total above 64 bits. -/
def State.seedError (s : State) : Option ErrCode :=
  if s.presentSymbols.length = 0 then some .empty
  else if s.presentSymbols.length > heapCap then some .alphabet
  else if s.freqTotal > 2 ^ 64 - 1 then some .weightOvf
  else none

/-- A leaf entry: `L = R = 0` (R34). -/
def Node.mkLeaf (a : Byte) (w : Word) : Node := ⟨.leaf, a, w, 0, 0⟩

/-- An internal entry: `SYM = 0` (R34). -/
def Node.mkInternal (w : Word) (l r : NodeIdx) : Node := ⟨.internal, 0, w, l, r⟩

/-- One pass of the seeding loop: symbol `a`'s leaf is allocated at `NCOUNT` and pushed (R155). -/
def State.seedLeaf (s : State) (a : Byte) : State :=
  (s.alloc (Node.mkLeaf a (s.freqOf a))).pushHeap s.nextIdx

/-- `if HSIZE = 1: TC(HEAP[0], 0)` (R155, R156). -/
def State.finishTree (s : State) : State :=
  match s.heap with
  | [r] => s.completeTree r .builder
  | [] => s
  | _ :: _ :: _ => s

/-- What `TREE_SEED` does once its checks pass (R155). -/
def State.seed (s : State) : State := (s.presentSymbols.foldl State.seedLeaf s.invalidateTree).finishTree

/-- The body of `TREE_MERGE` after its check: pop `a`, pop `b`, allocate their parent with `a` on the left and `b` on the
right, push it, and complete the tree when one node is left (R154, R156). -/
def State.merge (s : State) : Result :=
  match heapPop s.key s.heap with
  | none => .refused .popEmptyHeap
  | some (a, h1) =>
    match heapPop s.key h1 with
    | none => .refused .popEmptyHeap
    | some (b, h2) =>
      if nodeCap ≤ s.ncount then .fault .arenaExhausted
      else
        .next
          ((({ s with heap := h2 }).alloc (Node.mkInternal (s.weight a + s.weight b) a b)).pushHeap s.nextIdx).finishTree

/-- `while HSIZE >= 2: perform the body of TREE_MERGE` (R157). Each merge takes one entry off the heap, so
`fuel = HSIZE` is enough. -/
def mergeAll : Nat → State → Result
  | 0, s => .next s
  | fuel + 1, s => if 2 ≤ s.hsize then andThen s.merge (mergeAll fuel) else .next s

/-- `TREE_SEED`: discard the present tree and seed the heap from `FREQ` (R155). -/
def execTreeSeed (s : State) : Result :=
  unlessSticky s
    (match s.seedError with
     | some c => raise c Mnemonic.TREE_SEED.opcode s
     | none => .next s.seed)

/-- `TREE_MERGE`: one step of the merge loop; `STATE` when fewer than two nodes are in the heap (R156). -/
def execTreeMerge (s : State) : Result :=
  unlessSticky s (if s.hsize < 2 then raise .state Mnemonic.TREE_MERGE.opcode s else s.merge)

/-- `TREE_BUILD`: seed and merge until one node is left, as one command; its errors are those of the seeding, with its own
opcode (R157). -/
def execTreeBuild (s : State) : Result :=
  unlessSticky s
    (match s.seedError with
     | some c => raise c Mnemonic.TREE_BUILD.opcode s
     | none => mergeAll s.seed.hsize s.seed)

end Sys2Proof.Machine
end

