-- ==== Sys2Proof/Machine/TreeSerializer.lean ====
section
/-!
DEFINITION. The tree serializer and deserializer (spec/46_tree_serializer.md, R210 to R215).
-/

namespace Sys2Proof.Machine

/-- `Ser(n)` of R210 over a reader of arena entries. `fuel` bounds the edges still allowed; a tree of the arena needs at
most `maxLen` (R172), and `none` says that the nodes go deeper. -/
def serFrom (node : NodeIdx → Node) : Nat → NodeIdx → Option (List Byte)
  | 0, n => if (node n).kind = .leaf then some [leafMark, (node n).sym] else none
  | fuel + 1, n =>
    if (node n).kind = .leaf then some [leafMark, (node n).sym]
    else
      match serFrom node fuel (node n).l, serFrom node fuel (node n).r with
      | some bl, some br => some (nodeMark :: (bl ++ br))
      | none, _ => none
      | some _, none => none

/-- `Ser(ROOT)`. -/
def State.serialized (s : State) : Option (List Byte) := serFrom s.node maxLen s.root

/-- `TREE_SER`: `STATE` without a complete tree, else `Ser(ROOT)` is emitted (R211). -/
def execTreeSer (s : State) : Result :=
  unlessSticky s
    (if s.tvalid = false then raise .state Mnemonic.TREE_SER.opcode s
     else
       match s.serialized with
       | none => .fault .notATree
       | some bs => .next (s.emitAll bs))

/-- `DESER_START`: discard the present tree and begin a parse (R212). -/
def execDeserStart (s : State) : Result := unlessSticky s (.next { s.invalidateTree with dsState := .marker })

/-- The symbol byte of leaf `DS_CUR` (R213, `DS_STATE = SYM`): the leaf takes it; without a frame the tree is complete,
with root node 0. -/
def State.takeSymbol (s : State) (b : Byte) : State :=
  let s' := s.modifyNode s.dsCur fun n => { n with sym := b }
  match s.dsStk with
  | [] => { s' with dsState := .done }.completeTree 0 .deserializer
  | _ :: _ => { s' with dsState := .marker }

/-- Attach node `n` to the parent that waits for a child, if any: as its left child, after which it waits for the right
one, or as its right child, after which its frame goes (R213). -/
def State.attach (s : State) (n : NodeIdx) : State :=
  match s.dsStk with
  | [] => s
  | ⟨p, .left⟩ :: rest => { s.modifyNode p (fun x => { x with l := n }) with dsStk := ⟨p, .right⟩ :: rest }
  | ⟨p, .right⟩ :: rest => { s.modifyNode p (fun x => { x with r := n }) with dsStk := rest }

/-- What a marker byte allocates: a leaf for 0x31, an internal node otherwise, every other field 0 (R213). -/
def Node.ofMarker (b : Byte) : Node := ⟨if b = leafMark then .leaf else .internal, 0, 0, 0, 0⟩

/-- The marker byte `b`, once its checks pass (R213, `DS_STATE = MARKER`): allocate a node, attach it, and wait for a
leaf's symbol or for the internal node's children. -/
def State.takeMarker (s : State) (b : Byte) : Result :=
  let n := s.nextIdx
  let s' := (s.alloc (Node.ofMarker b)).attach n
  if b = leafMark then .next { s' with dsCur := n, dsState := .sym }
  else if dsDepthCap ≤ s'.dsDepth then .fault .stackOverflow
  else .next { s' with dsStk := ⟨n, .left⟩ :: s'.dsStk }

/-- `DESER_BYTE b`: `STATE` when no parse is in progress; a symbol byte; or a marker byte, `CORRUPT_HEADER` when it is
neither marker or would need a 512th node (R213). -/
def execDeserByte (b : Byte) (s : State) : Result :=
  unlessSticky s
    (match s.dsState with
     | .idle => raise .state Mnemonic.DESER_BYTE.opcode s
     | .done => raise .state Mnemonic.DESER_BYTE.opcode s
     | .sym => .next (s.takeSymbol b)
     | .marker =>
       if b ≠ leafMark ∧ b ≠ nodeMark then raise .corruptHeader Mnemonic.DESER_BYTE.opcode s
       else if s.ncount = nodeCap then raise .corruptHeader Mnemonic.DESER_BYTE.opcode s
       else s.takeMarker b)

/-- `DESER_END`: `STATE` when no parse was started, `CORRUPT_HEADER` when it is incomplete, no effect when the tree is
complete (R215). -/
def execDeserEnd (s : State) : Result :=
  unlessSticky s
    (match s.dsState with
     | .idle => raise .state Mnemonic.DESER_END.opcode s
     | .marker => raise .corruptHeader Mnemonic.DESER_END.opcode s
     | .sym => raise .corruptHeader Mnemonic.DESER_END.opcode s
     | .done => .next s)

end Sys2Proof.Machine
end

