-- ==== Sys2Proof/Machine/Dispatch.lean ====
section
/-!
DEFINITION. The dispatch of a decoded command to its meaning: one arm for each constructor of `Instr`.
-/

namespace Sys2Proof.Machine

/-- What a command does to the state (R130 to R231). -/
def exec (i : Instr) (s : State) : Host.Outcome State Fault Refusal :=
  match i with
  -- spec/40_control.md
  | .nop => Sys2Proof.Machine.execNop s
  | .reset => Sys2Proof.Machine.execReset s
  | .clrerr => Sys2Proof.Machine.execClrerr s
  -- spec/41_frequency.md
  | .freqClear => Sys2Proof.Machine.execFreqClear s
  | .freqInc a => Sys2Proof.Machine.execFreqInc a s
  | .freqSetLo a v => Sys2Proof.Machine.execFreqSetLo a v s
  | .freqSetHi a v => Sys2Proof.Machine.execFreqSetHi a v s
  -- spec/42_tree_builder.md
  | .treeSeed => Sys2Proof.Machine.execTreeSeed s
  | .treeMerge => Sys2Proof.Machine.execTreeMerge s
  | .treeBuild => Sys2Proof.Machine.execTreeBuild s
  -- spec/43_code_table.md
  | .codeBuild => Sys2Proof.Machine.execCodeBuild s
  -- spec/44_bit_packer.md
  | .packSym a => Sys2Proof.Machine.execPackSym a s
  | .packFlush => Sys2Proof.Machine.execPackFlush s
  -- spec/45_bit_unpacker.md
  | .unpackInit => Sys2Proof.Machine.execUnpackInit s
  | .countShift b => Sys2Proof.Machine.execCountShift b s
  | .unpackByte b => Sys2Proof.Machine.execUnpackByte b s
  | .unpackSym => Sys2Proof.Machine.execUnpackSym s
  | .unpackEnd => Sys2Proof.Machine.execUnpackEnd s
  -- spec/46_tree_serializer.md
  | .treeSer => Sys2Proof.Machine.execTreeSer s
  | .deserStart => Sys2Proof.Machine.execDeserStart s
  | .deserByte b => Sys2Proof.Machine.execDeserByte b s
  | .deserEnd => Sys2Proof.Machine.execDeserEnd s
  -- spec/47_container.md
  | .emitByte b => Sys2Proof.Machine.execEmitByte b s
  | .countEmit => Sys2Proof.Machine.execCountEmit s

end Sys2Proof.Machine
end

