-- ==== Sys2Proof/Machine/RegisterPort.lean ====
section
/-!
DEFINITION. The register read port (R52 to R55): the value of each of the 4096 register indices.
-/

namespace Sys2Proof.Machine

/-- A bit as a 64-bit word. -/
def bitWord (b : Bool) : Word := (BitVec.ofBool b).setWidth 64

/-- A field of a register: `v`'s bits from bit `lo` up. -/
def placed {n : Nat} (v : BitVec n) (lo : Nat) : Word := v.setWidth 64 <<< lo

/-- `STATUS`: `[7:0] ERR; [15:8] ERROP; [16] TVALID; [17] TORIGIN; [18] CTVALID; [19] DEGEN; [21:20] DS_STATE; [22] irq`
(R53, R55). -/
def State.statusWord (s : State) : Word :=
  placed s.err.code 0 ||| placed s.errop 8 ||| bitWord s.tvalid <<< 16 ||| bitWord s.torigin.bit <<< 17
    ||| bitWord s.ctvalid <<< 18 ||| bitWord s.degen <<< 19 ||| placed s.dsState.value 20 ||| bitWord s.irq <<< 22

/-- `PACK`: `[7:0] PACC; [10:8] PACCN` (R53). -/
def State.packWord (s : State) : Word := placed s.pacc 0 ||| placed s.paccn 8

/-- `DS`: `[1:0] DS_STATE; [17:8] DS_DEPTH; [28:20] DS_CUR` (R53). -/
def State.dsWord (s : State) : Word :=
  placed s.dsState.value 0 ||| placed (BitVec.ofNat 10 s.dsDepth) 8 ||| placed s.dsCur 20

/-- `CODEMETA`: `[7:0] CLEN; [8] CVALID` (R53). -/
def CodeEntry.metaWord (e : CodeEntry) : Word := placed e.clen 0 ||| bitWord e.cvalid <<< 8

/-- `CODEBITS[·][k]`: bits `[64k+63 : 64k]` of `zext_256(CBITS)` (R53). -/
def CodeEntry.bitsWord (e : CodeEntry) (k : Nat) : Word := (e.cbits.setWidth 256).extractLsb' (64 * k) 64

/-- `NODE`: `[0] KIND; [15:8] SYM; [24:16] L; [40:32] R` (R53). -/
def Node.word (n : Node) : Word := bitWord n.kind.bit ||| placed n.sym 8 ||| placed n.l 16 ||| placed n.r 32

/-- `DSSTK`: `[8:0] node; [9] side` (R53). -/
def Frame.word (f : Frame) : Word := placed f.node 0 ||| bitWord f.side.bit <<< 9

/-- `DSSTK[k]` if it is live; `DSSTK[DS_DEPTH−1]` is the top, first in the list (R41). -/
def State.frame? (s : State) (k : Nat) : Option Frame := s.dsStk.reverse[k]?

/-- The word of a live-only row: the entry's, or a free value when the entry is not live (R52). -/
def State.liveOnly (s : State) (idx : RegIdx) (entry : Option Word) : Word := entry.getD (Config.freeRead s.draws idx)

/-- `RegRead(idx)` (R52, R53): the register map, row by row. An index in no row reads as 0. -/
def State.regRead (s : State) (idx : RegIdx) : Word :=
  let i := idx.toNat
  if i = 0x000 then idValue
  else if i = 0x001 then s.statusWord
  else if i = 0x002 then placed s.root 0
  else if i = 0x003 then placed (BitVec.ofNat 10 s.ncount) 0
  else if i = 0x004 then placed (BitVec.ofNat 9 s.hsize) 0
  else if i = 0x005 then s.packWord
  else if i = 0x006 then placed s.remain 0
  else if i = 0x007 then placed s.walk 0
  else if i = 0x008 then s.dsWord
  else if i = 0x009 then s.outcnt
  else if i < 0x100 then 0
  else if i < 0x200 then s.freqOf (BitVec.ofNat 8 (i - 0x100))
  else if i < 0x300 then (s.codeOf (BitVec.ofNat 8 (i - 0x200))).metaWord
  else if i < 0x400 then 0
  else if i < 0x800 then (s.codeOf (BitVec.ofNat 8 ((i - 0x400) / 4))).bitsWord ((i - 0x400) % 4)
  else if i < 0x9FF then s.liveOnly idx ((s.nodes[i - 0x800]?).map Node.word)
  else if i < 0xA00 then 0
  else if i < 0xBFF then s.liveOnly idx ((s.nodes[i - 0xA00]?).map Node.w)
  else if i < 0xC00 then 0
  else if i < 0xD00 then s.liveOnly idx ((s.heap[i - 0xC00]?).map fun n => placed n 0)
  else if i < 0xE00 then 0
  else if i < 0xFFF then s.liveOnly idx ((s.frame? (i - 0xE00)).map Frame.word)
  else 0

end Sys2Proof.Machine
end

