-- ==== Sys2Proof/Machine/Port.lean ====
section
/-!
DEFINITION. What the block does with each host action (R7, R71, R243).
-/

namespace Sys2Proof.Machine

/-- What the block does with a command word: the sticky rule, then the decoder, then the command's own checks (R243). The
sticky rule stands in each meaning and in `illegalWord`. -/
def runWord (w : Word) (s : State) : Result :=
  match decode w with
  | .command i => exec i s
  | .illegal _ => illegalWord w s

/-- The block takes one host action whole (R7, R71, R72). -/
def perform (a : HostAction) (rest : List HostAction) (s : State) : Result :=
  match a with
  | .cmd w => runWord w (s.take rest)
  | .regRead idx => .next (s.serve rest idx (s.regRead idx))
  | .hwReset => .next (s.take rest).applyReset

/-- The host issues one more action, after those already pending (R71). -/
def State.issue (s : State) (a : HostAction) : State := { s with inbox := s.inbox ++ [a] }

end Sys2Proof.Machine
end

