-- ==== Sys2Proof/Machine/Step.lean ====
section
/-!
DEFINITION. One step of the machine: the block takes the host's next action and completes it (R7, R71). The block fetches
nothing and has no program counter (R38, R76); its commands come from the host.
-/

namespace Sys2Proof.Machine

/-- One step: the host's next action, taken whole. With no action pending the block takes no step of its own and holds its
state (R7, R257, R272). -/
def step (s : State) : Host.Outcome State Fault Refusal :=
  match s.inbox with
  | [] => .next s
  | a :: rest => perform a rest s

/-- The state in which the host's very next action is the command word `w` of spec/opcode_table.json's numbering. A command
word is not fetched from a memory but written to the command port by the host (R76), so it is put at the head of the host's
pending actions. -/
def State.withFetchWord (s : State) (nbits w : Nat) : State :=
  { s with inbox := .cmd (BitVec.ofNat 64 (w % 2 ^ nbits)) :: s.inbox }

end Sys2Proof.Machine
end

