-- ==== Sys2Proof/WellFormed.lean ====
section
/-!
DEFINITION. What is well-formed: an assembler line (R110), a pseudo-command (R111), and a command word by its mask and
match (R106, R107). An `Instr` needs no check of its own: its operands have the widths of their fields.
-/

namespace Sys2Proof

/-- Whether a list of numbers fits the operand fields of a format: none for F0, `imm8` for FB, `sym, imm32` for FW. A
value out of its field's range is an assembly error, never a truncation (R110). -/
def Format.accepts : Format → List Nat → Bool
  | .F0, [] => true
  | .FB, [imm8] => imm8 < 2 ^ 8
  | .FW, [sym, imm32] => sym < 2 ^ 8 && imm32 < 2 ^ 32
  | .F0, _ :: _ => false
  | .FB, [] => false
  | .FB, _ :: _ :: _ => false
  | .FW, [] => false
  | .FW, [_] => false
  | .FW, _ :: _ :: _ :: _ => false

/-- An assembler line is well-formed when its operands fit its mnemonic's format (R110). -/
def AsmLine.wellFormed (a : AsmLine) : Bool := a.mnemonic.format.accepts a.operands

/-- A pseudo-command is well-formed when its numbers fit: `s` in a byte and `v` in 64 bits, `c` in 48 bits, at most 255
extension bytes, every listed byte below 256 (R111). DESIGN CHOICE (log entry 19): R111 writes `b0, …, bk` and does not say
whether the list may be empty; an empty one is well-formed. -/
def Pseudo.wellFormed : Pseudo → Bool
  | .freqSet s v => s < 2 ^ 8 && v < 2 ^ 64
  | .countLoad c => c < 2 ^ 48
  | .emitExt e => e.length ≤ 255
  | .freqStr _ | .packStr _ => true
  | .deserBytes bs | .unpackBytes bs => bs.all (· < 2 ^ 8)

/-- A word is the command of a row exactly when `(w & mask) = match` (R107). -/
def Mnemonic.isWord (m : Mnemonic) (w : Word) : Bool := w &&& m.format.mask = m.matchWord

/-- A word is well-formed when it is some row's command; every other word is ILLEGAL (R107, R109). -/
def wellFormedWord (w : Word) : Bool := allMnemonics.any (·.isWord w)

end Sys2Proof
end

