-- ==== Sys2Proof/Machine/Assembler.lean ====
section
/-!
DEFINITION. The assembler: source text to words (R110) and the expansions of the pseudo-commands (R111). The host runs it;
no step of the block depends on it. Text is a list of ASCII codes.
-/

namespace Sys2Proof.Machine

/-! ## Lines to commands -/

/-- The command of a mnemonic and its numbers; `none` is an assembly error, never a truncation (R110). -/
def assemble (a : AsmLine) : Option Instr :=
  if a.wellFormed then
    match a.mnemonic.format, a.operands with
    | .FB, [imm8] => some (a.mnemonic.command (BitVec.ofNat 64 imm8))
    | .FW, [sym, imm32] => some (a.mnemonic.command (BitVec.ofNat 64 (sym * 2 ^ 32 + imm32)))
    | _, _ => some (a.mnemonic.command 0)
  else none

/-! ## Pseudo-commands (R111) -/

/-- The bytes `c[47:40], …, c[7:0]` of a 48-bit number. -/
def bigEndian48 (c : Nat) : List Byte := [5, 4, 3, 2, 1, 0].map fun k => BitVec.ofNat 8 (c / 2 ^ (8 * k))

/-- The expansion of a pseudo-command, command by command; `none` is an assembly error (R110, R111). DESIGN CHOICE (log
entry 19): `deserBytes` and `unpackBytes` of no byte expand to no command. -/
def expand (p : Pseudo) : Option (List Instr) :=
  if p.wellFormed then
    some
      (match p with
       | .freqSet s v =>
         [.freqSetLo (BitVec.ofNat 8 s) (BitVec.ofNat 32 v), .freqSetHi (BitVec.ofNat 8 s) (BitVec.ofNat 32 (v / 2 ^ 32))]
       | .countLoad c => .unpackInit :: (bigEndian48 c).map .countShift
       | .emitExt e => .emitByte (BitVec.ofNat 8 e.length) :: e.map .emitByte
       | .freqStr x => x.map .freqInc
       | .packStr x => x.map .packSym
       | .deserBytes bs => bs.map fun b => .deserByte (BitVec.ofNat 8 b)
       | .unpackBytes bs => bs.map fun b => .unpackByte (BitVec.ofNat 8 b))
  else none

/-! ## Text to lines (R110) -/

/-- The spelling of a mnemonic. -/
def mnemonicText : Mnemonic → String
  | .NOP => "NOP"
  | .RESET => "RESET"
  | .CLRERR => "CLRERR"
  | .FREQ_CLEAR => "FREQ_CLEAR"
  | .FREQ_INC => "FREQ_INC"
  | .FREQ_SET_LO => "FREQ_SET_LO"
  | .FREQ_SET_HI => "FREQ_SET_HI"
  | .TREE_SEED => "TREE_SEED"
  | .TREE_MERGE => "TREE_MERGE"
  | .TREE_BUILD => "TREE_BUILD"
  | .CODE_BUILD => "CODE_BUILD"
  | .PACK_SYM => "PACK_SYM"
  | .PACK_FLUSH => "PACK_FLUSH"
  | .UNPACK_INIT => "UNPACK_INIT"
  | .COUNT_SHIFT => "COUNT_SHIFT"
  | .UNPACK_BYTE => "UNPACK_BYTE"
  | .UNPACK_SYM => "UNPACK_SYM"
  | .UNPACK_END => "UNPACK_END"
  | .TREE_SER => "TREE_SER"
  | .DESER_START => "DESER_START"
  | .DESER_BYTE => "DESER_BYTE"
  | .DESER_END => "DESER_END"
  | .EMIT_BYTE => "EMIT_BYTE"
  | .COUNT_EMIT => "COUNT_EMIT"

/-- The ASCII codes of a string. -/
def asciiCodes (t : String) : List Nat := t.toList.map Char.toNat

/-- A lexical element of a source line. -/
inductive Token where
  /-- A mnemonic or an unquoted number, as its characters. -/
  | word (cs : List Nat)
  /-- A quoted character, as its ASCII code. -/
  | quoted (c : Nat)
  | comma
  deriving DecidableEq, Repr

/-- Close the word being read, if it holds a character; `acc` is in reverse. -/
def closeWord (acc : List Nat) (rest : List Token) : List Token :=
  match acc with
  | [] => rest
  | _ :: _ => .word acc.reverse :: rest

/-- Cut a line into tokens: blanks (9, 32) separate, `,` (44) stands alone, `'x'` (39 on both sides) is a quoted ASCII
character, and `;` (59) starts a comment (R110). -/
def tokens (acc : List Nat) : List Nat → List Token
  | [] => closeWord acc []
  | 39 :: c :: 39 :: rest => closeWord acc (.quoted c :: tokens [] rest)
  | c :: rest =>
    if c = 59 then closeWord acc []
    else if c = 44 then closeWord acc (.comma :: tokens [] rest)
    else if c = 32 ∨ c = 9 then closeWord acc (tokens [] rest)
    else tokens (c :: acc) rest

/-- The value of a digit in a base up to 16; upper and lower case letters stand for ten to fifteen. -/
def digitValue (base c : Nat) : Option Nat :=
  let d := if 48 ≤ c ∧ c ≤ 57 then some (c - 48)
    else if 65 ≤ c ∧ c ≤ 70 then some (c - 55)
    else if 97 ≤ c ∧ c ≤ 102 then some (c - 87)
    else none
  d.filter (· < base)

/-- The number that a list of digits writes. -/
def digitsValue (base : Nat) (acc : Nat) : List Nat → Option Nat
  | [] => some acc
  | c :: rest =>
    match digitValue base c with
    | some d => digitsValue base (acc * base + d) rest
    | none => none

/-- A decimal number, or a hexadecimal one after `0x` (R110). -/
def numberOf : List Nat → Option Nat
  | [] => none
  | [c] => digitsValue 10 0 [c]
  | c :: d :: rest =>
    if c = 48 ∧ d = 120 then
      match rest with
      | [] => none
      | _ :: _ => digitsValue 16 0 rest
    else digitsValue 10 0 (c :: d :: rest)

/-- An operand: a number, or a quoted ASCII character (R110). -/
def operandOf : Token → Option Nat
  | .word cs => numberOf cs
  | .quoted c => if c < 128 then some c else none
  | .comma => none

/-- The operands after a mnemonic: none, one, or two with a comma between (R110). -/
def operandsOf : List Token → Option (List Nat)
  | [] => some []
  | [a] => (operandOf a).map fun x => [x]
  | [a, .comma, b] =>
    match operandOf a, operandOf b with
    | some x, some y => some [x, y]
    | none, _ => none
    | some _, none => none
  | _ => none

/-- The mnemonic that a word spells. -/
def mnemonicOf (cs : List Nat) : Option Mnemonic := allMnemonics.find? fun m => asciiCodes (mnemonicText m) = cs

/-- The word of a source line: a blank or comment line has none, an ill-formed one is an assembly error (R110). -/
inductive Assembled where
  | empty
  | word (w : Word)
  | error
  deriving DecidableEq, Repr

/-- Assemble one line of source text: `(op << 56) | operand bits` (R110). DESIGN CHOICE (log entry 20): R110 gives the line of
an F0, FB or FW command and no line of a pseudo-command, so a line that begins with a pseudo-command's name is an error. -/
def assembleText (line : List Nat) : Assembled :=
  match tokens [] line with
  | [] => .empty
  | .word cs :: rest =>
    match mnemonicOf cs, operandsOf rest with
    | some m, some ns =>
      match assemble ⟨m, ns⟩ with
      | some i => .word (encode i)
      | none => .error
    | none, _ => .error
    | some _, none => .error
  | .quoted _ :: _ => .error
  | .comma :: _ => .error

end Sys2Proof.Machine
end

