-- ==== Sys2Proof/Machine/HostSequences.lean ====
section
/-!
DEFINITION. The reference command sequences of the host (R232, R233), the error kinds that it reports (R258, R259), and the
container that they read and write (R85). They bind the host, not the block (R5 (b)); the block's rules do not depend on
them.
-/

namespace Sys2Proof.Machine

/-- Run commands one after another, each taken whole before the next (R71). -/
def execAll : List Instr → State → Result
  | [], s => .next s
  | i :: rest, s => andThen (exec i s) (execAll rest)

/-- The encode sequence of R232 for input bytes `x` with extension `e`. -/
def encodeSequence (x e : List Byte) : List Instr :=
  .freqClear :: x.map .freqInc ++ [.treeBuild, .codeBuild, .emitByte (BitVec.ofNat 8 e.length)] ++ e.map .emitByte
    ++ [.treeSer, .countEmit] ++ x.map .packSym ++ [.packFlush]

/-- The first part of R233: feed tree bytes until `STATUS.DS_STATE` reads DONE, the bytes run out, or an error is recorded.
Answers the block and the bytes left. The loop body comes before its test. -/
def feedTree : List Byte → State → Option (State × List Byte)
  | [], s => some (s, [])
  | y :: rest, s =>
    match exec (.deserByte y) s with
    | .next s' => if s'.dsState = .done ∨ s'.err ≠ .noError then some (s', rest) else feedTree rest s'
    | .fault _ => none
    | .refused _ => none

/-- The last part of R233 for a tree with an internal root: feed payload bytes while `REMAIN > 0`. -/
def feedPayload : List Byte → State → Result
  | [], s => .next s
  | y :: rest, s => if 0 < s.remain.toNat then andThen (exec (.unpackByte y) s) (feedPayload rest) else .next s

/-- The last part of R233 for a degenerate tree: `UNPACK_SYM`, `REMAIN` times. -/
def drainSymbols : Nat → State → Result
  | 0, s => .next s
  | k + 1, s => andThen (exec .unpackSym s) (drainSymbols k)

/-- What the decode sequence ends in. -/
inductive DecodeEnd where
  /-- The sequence ran to its end; the host then checks `STATUS.ERR` (R276). -/
  | ran (s : State)
  /-- Fewer than 6 bytes followed the tree: the host reports `CorruptHeaderError` (R233, R259). -/
  | shortHeader (s : State)
  /-- The container has no extension length, or is shorter than its extension: the host cannot begin. -/
  | noTree
  /-- The block stopped, which R51 rules out. -/
  | stopped
  deriving DecidableEq, Repr

/-- The payload part of R233, once the count is loaded, and `UNPACK_END`. -/
def decodePayload (payload : List Byte) (s : State) : DecodeEnd :=
  match andThen (if s.degen then drainSymbols s.remain.toNat s else feedPayload payload s) (exec .unpackEnd) with
  | .next s' => .ran s'
  | .fault _ => .stopped
  | .refused _ => .stopped

/-- The decode sequence of R233 on the bytes of a container: skip the extension, feed the tree, load the count, feed the
payload. -/
def decodeSequence (y : List Byte) (s : State) : DecodeEnd :=
  match y with
  | [] => .noTree
  | len :: body =>
    if body.length < len.toNat then .noTree
    else
      match exec .deserStart s with
      | .fault _ => .stopped
      | .refused _ => .stopped
      | .next s1 =>
        match feedTree (body.drop len.toNat) s1 with
        | none => .stopped
        | some (s2, left) =>
          match exec .deserEnd s2 with
          | .fault _ => .stopped
          | .refused _ => .stopped
          | .next s3 =>
            if left.length < 6 then .shortHeader s3
            else
              match execAll (.unpackInit :: (left.take 6).map .countShift) s3 with
              | .fault _ => .stopped
              | .refused _ => .stopped
              | .next s4 => decodePayload (left.drop 6) s4

/-- The document's error kinds (R258, R259), and the host's own failures. -/
inductive ErrorKind where
  | emptyInput
  | corruptHeader
  | truncatedStream
  | unsupportedAlphabet
  /-- The other codes have no kind in the document: the host reports them as failures of its own. -/
  | hostFailure
  deriving DecidableEq, Repr

/-- The mapping of R258. -/
def ErrCode.kind : ErrCode → Option ErrorKind
  | .noError => none
  | .empty => some .emptyInput
  | .corruptHeader => some .corruptHeader
  | .truncated => some .truncatedStream
  | .alphabet => some .unsupportedAlphabet
  | .state | .freqOvf | .weightOvf | .noCode | .dupSym | .countOvf | .illegal => some .hostFailure

end Sys2Proof.Machine
end

