-- ==== Sys2Proof/Safety.lean ====
section
/-!
DEFINITION. What a safe run is, and the invariants of the block (R51, R152, R214), in the terms that claims use.

A tree of the arena is described by a `Shape`, whose nodes carry arena indices; a tree that the deserializer is still
parsing is a `Shape` with holes.
-/

namespace Sys2Proof.Machine

/-! ## Outcomes -/

/-- The step or command completes: neither a fault nor a refusal. -/
def Completes (r : Result) : Prop := ∃ t, r = .next t

/-- The word of a command: encoding gives it and decoding takes it (R107, R110). -/
def IsWordOf (w : Word) (i : Instr) : Prop := encode i = w ∧ decode w = .command i

/-- Two states agree on every component of the block (R30) and on `OUT`; only the host's side of the ports may differ. -/
def SameBlock (s t : State) : Prop :=
  t.freq = s.freq ∧ t.nodes = s.nodes ∧ t.root = s.root ∧ t.tvalid = s.tvalid ∧ t.torigin = s.torigin ∧ t.heap = s.heap ∧
  t.code = s.code ∧ t.ctvalid = s.ctvalid ∧ t.pacc = s.pacc ∧ t.paccn = s.paccn ∧ t.remain = s.remain ∧ t.walk = s.walk ∧
  t.dsState = s.dsState ∧ t.dsStk = s.dsStk ∧ t.dsCur = s.dsCur ∧ t.err = s.err ∧ t.errop = s.errop ∧
  t.outcnt = s.outcnt ∧ t.out = s.out

/-- Every component has its value of R56. -/
structure ResetValues (t : State) : Prop where
  freq : ∀ a, t.freqOf a = 0
  arena : t.ncount = 0
  tree : t.root = 0 ∧ t.tvalid = false ∧ t.torigin = .builder
  heap : t.hsize = 0
  code : ∀ a, (t.codeOf a).cvalid = false ∧ (t.codeOf a).clen = 0 ∧ (t.codeOf a).cbits = 0
  ctvalid : t.ctvalid = false
  packer : t.pacc = 0 ∧ t.paccn = 0
  unpacker : t.remain = 0 ∧ t.walk = 0
  parser : t.dsState = .idle ∧ t.dsDepth = 0 ∧ t.dsCur = 0
  error : t.err = .noError ∧ t.errop = 0 ∧ t.irq = false
  outcnt : t.outcnt = 0

/-! ## Bits and bytes of a stream (R12, R39, R83, R87) -/

/-- The pending bits of the packer, the earliest first: `PACC[PACCN−1], …, PACC[0]` (R39). -/
def State.pending (s : State) : Bits := (List.range s.paccn.toNat).reverse.map s.pacc.getLsbD

/-- The bits of a byte sequence, most significant first in each byte (R83). -/
def streamBits (bs : List Byte) : Bits := bs.flatMap byteBits

/-- The number that a byte sequence stands for in big-endian order (R82). -/
def bigEndianValue (bs : List Byte) : Nat := bs.foldl (fun v b => v * 2 ^ 8 + b.toNat) 0

/-! ## Trees of the arena (R15, R51) -/

/-- The shape of a tree whose nodes are arena entries; a `hole` is a subtree not parsed yet. -/
inductive Shape where
  | hole
  | leaf (i : NodeIdx)
  | node (i : NodeIdx) (l r : Shape)
  deriving DecidableEq, Repr

/-- The root's index (0 for a hole). -/
def Shape.top : Shape → NodeIdx
  | .hole => 0
  | .leaf i => i
  | .node i _ _ => i

/-- The indices of a shape in pre-order. -/
def Shape.indices : Shape → List NodeIdx
  | .hole => []
  | .leaf i => [i]
  | .node i l r => i :: (l.indices ++ r.indices)

/-- The indices of the leaves, left to right. -/
def Shape.leaves : Shape → List NodeIdx
  | .hole => []
  | .leaf i => [i]
  | .node _ l r => l.leaves ++ r.leaves

/-- The longest path, in edges. -/
def Shape.height : Shape → Nat
  | .hole => 0
  | .leaf _ => 0
  | .node _ l r => max l.height r.height + 1

/-- A full binary tree: no hole. -/
def Shape.complete : Shape → Bool
  | .hole => false
  | .leaf _ => true
  | .node _ l r => l.complete && r.complete

/-- The arena holds the shape: each leaf is a live leaf entry, each node a live internal entry whose children, where they are
not holes, are the roots of its subtrees. -/
def Shape.InArena (nodes : List Node) : Shape → Prop
  | .hole => True
  | .leaf i => ∃ n, nodes[i.toNat]? = some n ∧ n.kind = .leaf
  | .node i l r =>
    (∃ n, nodes[i.toNat]? = some n ∧ n.kind = .internal ∧ (l ≠ .hole → n.l = l.top) ∧ (r ≠ .hole → n.r = r.top)) ∧
      l.InArena nodes ∧ r.InArena nodes

/-- Every internal entry's weight is the exact sum of its children's (R51 (b)). -/
def Shape.Summed (nodes : List Node) : Shape → Prop
  | .hole => True
  | .leaf _ => True
  | .node i l r =>
    (∀ n nl nr, nodes[i.toNat]? = some n → nodes[l.top.toNat]? = some nl → nodes[r.top.toNat]? = some nr →
        n.w.toNat = nl.w.toNat + nr.w.toNat) ∧
      l.Summed nodes ∧ r.Summed nodes

/-- The symbols of a shape's leaves, left to right. -/
def Shape.symbols (nodes : List Node) (t : Shape) : List Byte :=
  t.leaves.filterMap fun i => (nodes[i.toNat]?).map Node.sym

/-- The leaves of a shape with their paths from the root, left to right, 0 for left and 1 for right, below a path `p`
(R15, R37). -/
def Shape.paths : Shape → Bits → List (NodeIdx × Bits)
  | .hole, _ => []
  | .leaf i, p => [(i, p)]
  | .node _ l r, p => l.paths (p ++ [false]) ++ r.paths (p ++ [true])

/-- The pre-order grammar of R210 on a shape, with the symbol of each leaf. -/
def Shape.bytes (sym : NodeIdx → Byte) : Shape → List Byte
  | .hole => []
  | .leaf i => [leafMark, sym i]
  | .node _ l r => nodeMark :: (l.bytes sym ++ r.bytes sym)

/-- The frames of a shape under construction, the next hole's parent first: a node without its left child waits for it, a
node with its left child and without its right one waits for that (R41, R213). -/
def Shape.frames : Shape → List Frame
  | .hole => []
  | .leaf _ => []
  | .node i .hole _ => [⟨i, .left⟩]
  | .node i l .hole => l.frames ++ [⟨i, .right⟩]
  | .node _ l r => l.frames ++ r.frames

/-- A shape under construction is filled from the left: a right subtree is begun only when the left one is complete. -/
def Shape.leftFilled : Shape → Prop
  | .hole => True
  | .leaf _ => True
  | .node _ l r => (r ≠ .hole → l.complete = true) ∧ l.leftFilled ∧ r.leftFilled

/-- Every live index occurs exactly once in the list. -/
def CoversArena (s : State) (is : List NodeIdx) : Prop := (is.map BitVec.toNat).Perm (List.range s.ncount)

/-- The present tree has this shape: it is full, the arena holds it under `ROOT`, and each live node is in it exactly once
(R51 (a)). -/
def TreeIs (s : State) (t : Shape) : Prop :=
  t.complete = true ∧ t.InArena s.nodes ∧ t.top = s.root ∧ CoversArena s t.indices

/-! ## The invariants of R51, as the rule states them -/

/-- R51 (a) to (f), of a state after a command; of (b), the part that the state alone can show. -/
structure RuleR51 (s : State) : Prop where
  /-- (a) -/
  tree : s.tvalid = true → ∃ t, TreeIs s t
  /-- (b): weights are sums, and the leaves' symbols are distinct. -/
  weights : s.tvalid = true → s.torigin = .builder → ∀ t, TreeIs s t → t.Summed s.nodes ∧ (t.symbols s.nodes).Nodup
  /-- (c) -/
  walk : s.tvalid = true → s.walk = s.root ∨ ∃ t, TreeIs s t ∧ s.walk ∈ t.indices ∧ s.isLeaf s.walk = false
  /-- (d) -/
  packer : s.pacc.toNat < 2 ^ s.paccn.toNat
  /-- (e) -/
  heap : s.hsize ≤ s.ncount ∧ ∀ n ∈ s.heap, n.toNat < s.ncount
  /-- (f) -/
  frames : s.dsState = .marker ∨ s.dsState = .sym →
    ∀ f ∈ s.dsStk, ∃ n, s.nodes[f.node.toNat]? = some n ∧ n.kind = .internal

/-! ## The inductive invariant -/

/-- The heap property (R152): no slot weighs less than its parent. -/
def HeapOrdered (key : NodeIdx → Nat) (h : List NodeIdx) : Prop :=
  ∀ j, 0 < j → j < h.length → keyAt key h ((j - 1) / 2) ≤ keyAt key h j

/-- No parse in progress and no parsed tree: the live nodes are the builder's forest, whose roots are the heap's entries. The
tree is complete exactly when one root is left. With no node at all this is the state after reset. -/
structure BuilderPhase (s : State) : Prop where
  forest : ∃ ts : List Shape,
    (∀ t ∈ ts, t.complete = true ∧ t.InArena s.nodes ∧ t.Summed s.nodes) ∧
      ts.map Shape.top = s.heap ∧
      CoversArena s (ts.flatMap Shape.indices) ∧
      (ts.flatMap (Shape.symbols s.nodes)).Nodup
  noParse : s.dsStk = [] ∧ s.dsCur = 0
  ordered : HeapOrdered s.key s.heap
  total : (s.heap.map s.key).sum < 2 ^ 64
  oneRoot : s.tvalid = true ↔ s.hsize = 1
  present : s.tvalid = true → s.heap = [s.root] ∧ s.torigin = .builder

/-- A parse in progress: the live nodes are a shape under construction, numbered in pre-order, whose frames are the stack.
Before the first marker there is no node; in state SYM the leaf `DS_CUR` is the last node. -/
structure ParsePhase (s : State) : Prop where
  parsed : ∃ t : Shape,
    t.leftFilled ∧ t.InArena s.nodes ∧ t.frames = s.dsStk ∧ t.indices.map BitVec.toNat = List.range s.ncount
  noTree : s.tvalid = false
  noHeap : s.heap = []
  symbol : s.dsState = .sym →
    s.dsCur.toNat + 1 = s.ncount ∧ ∃ n, s.nodes[s.dsCur.toNat]? = some n ∧ n.kind = .leaf
  marker : s.dsState = .marker → s.dsStk = [] → s.ncount = 0

/-- A tree that the deserializer completed: numbered in pre-order from node 0 (R213, R216). -/
structure ParsedPhase (s : State) : Prop where
  parsed : ∃ t : Shape,
    t.complete = true ∧ t.InArena s.nodes ∧ t.indices.map BitVec.toNat = List.range s.ncount
  present : s.tvalid = true ∧ s.torigin = .deserializer ∧ s.root = 0
  noHeap : s.heap = []
  noFrames : s.dsStk = []

/-- What the arena, the heap and the stack hold, by the phase the block is in. -/
def PhaseHolds (s : State) : Prop :=
  match s.dsState with
  | .idle => BuilderPhase s
  | .marker => ParsePhase s
  | .sym => ParsePhase s
  | .done => ParsedPhase s

/-- The invariant that every step keeps, from every state it holds of. -/
structure Inv (s : State) : Prop where
  phase : PhaseHolds s
  arena : s.ncount ≤ nodeCap
  /-- R51 (d). -/
  packer : s.pacc.toNat < 2 ^ s.paccn.toNat
  /-- R35, R40: without a tree `ROOT` and `TORIGIN` are 0, and the walk is at 0. -/
  noTree : s.tvalid = false → s.root = 0 ∧ s.torigin = .builder ∧ s.walk = 0
  /-- R51 (c). -/
  walk : s.tvalid = true →
    s.walk = s.root ∨ ∃ n, s.nodes[s.walk.toNat]? = some n ∧ n.kind = .internal
  /-- R37: a table is valid only beside the tree it was built from. -/
  codesOfTree : s.ctvalid = true → s.tvalid = true
  /-- R37: a valid table holds the codes of the present tree. -/
  table : s.ctvalid = true →
    ∃ c, s.codes = some c ∧ hasDuplicate c = false ∧ s.code = (c.foldl State.recordCode s.clearCodes).code
  /-- R37, R49: an invalid table is clear. -/
  clearTable : s.ctvalid = false → s.code = Vector.replicate 256 CodeEntry.cleared
  /-- R37: a symbol without a code has length and bits 0, and the bits above a code's length are 0. -/
  entries : ∀ a, ((s.codeOf a).cvalid = false → s.codeOf a = CodeEntry.cleared) ∧
    (s.codeOf a).cbits.toNat < 2 ^ (s.codeOf a).clen.toNat
  /-- R42, R240: with no error recorded `ERROP` is 0. -/
  noError : s.err = .noError → s.errop = 0

end Sys2Proof.Machine
end

