-- ==== Sys2Proof/Certificates/Slice0/Obligations.lean ====
section
/-!
DEFINITION. The statements for the provers. Each docstring says which rule of spec/ the statement formalises; where a
statement rests on a choice of the model's, it names the log entry.
-/

open Sys2Proof Sys2Proof.Machine

/-! ## Encoding (spec/30_encoding.md) -/

/-- Decoding the word of any command gives the command back, with every operand at every value (R102 to R105, R107). -/
def Obligations.DecodeOfEncode : Prop := ∀ i : Instr, decode (encode i) = .command i

/-- A word that decodes to a command is that command's word: no two words are one command (R102 to R104, R107). -/
def Obligations.EncodeOfDecode : Prop := ∀ (w : Word) (i : Instr), decode w = .command i → encode i = w

/-- R107. Decoding is total: a word whose opcode field is in no row is ILLEGAL; a word of a row's opcode is ILLEGAL when a
reserved bit of its format is set, else the row's command with the operands of R105; and a word is a row's command exactly
when `(w & mask) = match`. -/
def Obligations.DecodingFollowsTheMap : Prop :=
  ∀ w : Word,
    ((∀ m : Mnemonic, m.opcode ≠ opField w) → decode w = .illegal (.unassignedOpcode (opField w))) ∧
    ∀ m : Mnemonic,
      (m.opcode = opField w → reservedField m.format w ≠ 0 → decode w = .illegal (.reservedBits m.format)) ∧
      (m.opcode = opField w → reservedField m.format w = 0 → decode w = .command (m.command w)) ∧
      ((∃ i, decode w = .command i ∧ i.mnemonic = m) ↔ w &&& m.format.mask = m.matchWord)

/-- R112: the twelve encoding examples, from their source text and as words, and the three illegal words. -/
def Obligations.EncodingExamples : Prop :=
  (∀ row ∈ ([("NOP", 0x0000000000000000, .nop), ("RESET", 0x0100000000000000, .reset),
      ("FREQ_INC 'A'", 0x1100000000000041, .freqInc 0x41),
      ("FREQ_SET_LO 0x41, 5", 0x1200004100000005, .freqSetLo 0x41 5),
      ("FREQ_SET_HI 0xFF, 0x1", 0x130000FF00000001, .freqSetHi 0xFF 1),
      ("TREE_BUILD", 0x2200000000000000, .treeBuild), ("CODE_BUILD", 0x3000000000000000, .codeBuild),
      ("PACK_SYM 'C'", 0x4000000000000043, .packSym 0x43), ("UNPACK_BYTE 0xAF", 0x52000000000000AF, .unpackByte 0xAF),
      ("DESER_BYTE 0x30", 0x6200000000000030, .deserByte 0x30), ("EMIT_BYTE 3", 0x7000000000000003, .emitByte 3),
      ("COUNT_EMIT", 0x7100000000000000, .countEmit)] : List (String × Word × Instr)),
    assembleText (asciiCodes row.1) = .word row.2.1 ∧ decode row.2.1 = .command row.2.2) ∧
  decode 0x0300000000000000 = .illegal (.unassignedOpcode 0x03) ∧
  decode 0x0000000000000001 = .illegal (.reservedBits .F0) ∧
  decode 0x1100000000000141 = .illegal (.reservedBits .FB)

/-- R110: an assembler line whose numbers fit their fields has the word `(op << 56) | operand bits`, and one whose numbers do
not is an error, never a truncation. -/
def Obligations.AssemblerNeverTruncates : Prop :=
  ∀ a : AsmLine,
    (a.wellFormed = false → assemble a = none) ∧
    (a.wellFormed = true → ∃ i, assemble a = some i ∧ i.mnemonic = a.mnemonic ∧
      (encode i).toNat = a.mnemonic.opcode.toNat * 2 ^ 56 + a.operands.foldl (fun v x => v * 2 ^ 32 + x) 0)

/-- The pseudo-commands that load a value (R111, R142, R143, R190, R191): `FREQ_SET s, v` leaves `FREQ[s] = v` and
`COUNT_LOAD c` leaves `REMAIN = c` and `WALK = ROOT`, each changing nothing else. -/
def Obligations.PseudoCommandsLoadWholeValues : Prop :=
  ∀ s : State, s.err = .noError →
    (∀ (a : Byte) (v : Word), ∃ is t, expand (.freqSet a.toNat v.toNat) = some is ∧ execAll is s = .next t ∧
      t = { s with freq := t.freq } ∧ ∀ b, t.freqOf b = if b = a then v else s.freqOf b) ∧
    (∀ c : Count, ∃ is, expand (.countLoad c.toNat) = some is ∧
      execAll is s = .next { s with remain := c, walk := s.root })

/-! ## A step, and the ports (spec/10_state.md, spec/20_memory.md, spec/70_reset_and_hazards.md) -/

/-- A step takes the host's next action: a command word that decodes to `i` runs `exec i`, a word that does not is illegal,
a register read is served, a reset resets; and with no action pending the block holds its state (R7, R71, R76). The queue
of actions is the model's form of the host (log entry 4). -/
def Obligations.StepTakesTheNextAction : Prop :=
  ∀ (s : State) (rest : List HostAction),
    (s.inbox = [] → step s = .next s) ∧
    (∀ w i, s.inbox = .cmd w :: rest → decode w = .command i → step s = exec i (s.take rest)) ∧
    (∀ w why, s.inbox = .cmd w :: rest → decode w = .illegal why → step s = illegalWord w (s.take rest)) ∧
    (∀ idx, s.inbox = .regRead idx :: rest → step s = .next (s.serve rest idx (s.regRead idx))) ∧
    (s.inbox = .hwReset :: rest → step s = .next (s.take rest).applyReset) ∧
    (∀ i, step (s.withFetchWord 64 (encode i).toNat) = exec i (s.take s.inbox))

/-- R108: a word that decodes to ILLEGAL, with `ERR = 0`, records code 0x0B and its opcode field and has no other effect;
with `ERR ≠ 0` it is ignored. -/
def Obligations.IllegalWordRaises : Prop :=
  ErrCode.illegal.code = 0x0B ∧
  ∀ (w : Word) (why : IllegalReason) (s : State), decode w = .illegal why →
    (s.err = .noError → runWord w s = .next { s with err := .illegal, errop := w.extractLsb' 56 8 }) ∧
    (s.err ≠ .noError → runWord w s = .next s)

/-- R246: while `ERR ≠ 0`, every command word but the three words of `NOP`, `RESET` and `CLRERR` is ignored: it changes no
state and emits nothing. -/
def Obligations.StickyErrorIgnoresCommands : Prop :=
  ∀ (w : Word) (s : State), s.err ≠ .noError →
    w ≠ 0x0000000000000000 → w ≠ 0x0100000000000000 → w ≠ 0x0200000000000000 → runWord w s = .next s

/-- A register read changes no component of the block and returns the value of the map; after it every index reads as
before, so that any number of reads between two commands agree (R52, R79). That the host keeps what it read is the model's
form (log entry 5). -/
def Obligations.RegReadChangesNothing : Prop :=
  ∀ (s : State) (idx : RegIdx) (rest : List HostAction), s.inbox = .regRead idx :: rest →
    ∃ t, step s = .next t ∧ t = { s with inbox := rest, reads := s.reads ++ [(idx, s.regRead idx)] } ∧
      SameBlock s t ∧ ∀ j, t.regRead j = s.regRead j

/-- R53, R54, R55: the register map, row by row, every field at its place and every other bit 0, in every state of the
invariant; the live-only rows at their live entries. -/
def Obligations.RegisterMapReadsEveryRow : Prop :=
  ∀ s : State, Inv s →
    s.regRead 0x000 = 0x4855464600010007 ∧
    (s.regRead 0x001).toNat =
      s.err.code.toNat + s.errop.toNat * 2 ^ 8 + s.tvalid.toNat * 2 ^ 16 + s.torigin.bit.toNat * 2 ^ 17
        + s.ctvalid.toNat * 2 ^ 18 + (if s.tvalid = true ∧ (s.node s.root).kind = .leaf then 1 else 0) * 2 ^ 19
        + s.dsState.value.toNat * 2 ^ 20 + (if s.err = .noError then 0 else 1) * 2 ^ 22 ∧
    (s.regRead 0x002).toNat = s.root.toNat ∧
    (s.regRead 0x003).toNat = s.ncount ∧
    (s.regRead 0x004).toNat = s.hsize ∧
    (s.regRead 0x005).toNat = s.pacc.toNat + s.paccn.toNat * 2 ^ 8 ∧
    (s.regRead 0x006).toNat = s.remain.toNat ∧
    (s.regRead 0x007).toNat = s.walk.toNat ∧
    (s.regRead 0x008).toNat = s.dsState.value.toNat + s.dsDepth * 2 ^ 8 + s.dsCur.toNat * 2 ^ 20 ∧
    s.regRead 0x009 = s.outcnt ∧
    (∀ a : Byte, s.regRead (BitVec.ofNat 12 (0x100 + a.toNat)) = s.freqOf a) ∧
    (∀ a : Byte, (s.regRead (BitVec.ofNat 12 (0x200 + a.toNat))).toNat =
      (s.codeOf a).clen.toNat + (s.codeOf a).cvalid.toNat * 2 ^ 8) ∧
    (∀ (a : Byte) (k : Nat), k < 4 → (s.regRead (BitVec.ofNat 12 (0x400 + 4 * a.toNat + k))).toNat =
      (s.codeOf a).cbits.toNat / 2 ^ (64 * k) % 2 ^ 64) ∧
    (∀ (k : Nat) (n : Node), s.nodes[k]? = some n → (s.regRead (BitVec.ofNat 12 (0x800 + k))).toNat =
      n.kind.bit.toNat + n.sym.toNat * 2 ^ 8 + n.l.toNat * 2 ^ 16 + n.r.toNat * 2 ^ 32) ∧
    (∀ (k : Nat) (n : Node), s.nodes[k]? = some n → s.regRead (BitVec.ofNat 12 (0xA00 + k)) = n.w) ∧
    (∀ (k : Nat) (n : NodeIdx), s.heap[k]? = some n → (s.regRead (BitVec.ofNat 12 (0xC00 + k))).toNat = n.toNat) ∧
    (∀ (k : Nat) (f : Frame), s.dsStk.reverse[k]? = some f →
      (s.regRead (BitVec.ofNat 12 (0xE00 + k))).toNat = f.node.toNat + f.side.bit.toNat * 2 ^ 9) ∧
    (∀ idx : RegIdx, (0x00A ≤ idx.toNat ∧ idx.toNat ≤ 0x0FF) ∨ (0x300 ≤ idx.toNat ∧ idx.toNat ≤ 0x3FF) ∨
      idx.toNat = 0x9FF ∨ idx.toNat = 0xBFF ∨ (0xD00 ≤ idx.toNat ∧ idx.toNat ≤ 0xDFF) ∨ idx.toNat = 0xFFF →
      s.regRead idx = 0)

/-- A live-only row at a non-live entry reads as the free value, of which nothing is known (R52, R280; log entry 2). -/
def Obligations.NonLiveReadsAreFree : Prop :=
  ∀ (s : State) (idx : RegIdx),
    (∀ k, k < 511 → s.ncount ≤ k → idx.toNat = 0x800 + k → s.regRead idx = Config.freeRead s.draws idx) ∧
    (∀ k, k < 511 → s.ncount ≤ k → idx.toNat = 0xA00 + k → s.regRead idx = Config.freeRead s.draws idx) ∧
    (∀ k, k < 256 → s.hsize ≤ k → idx.toNat = 0xC00 + k → s.regRead idx = Config.freeRead s.draws idx) ∧
    (∀ k, k < 511 → s.dsDepth ≤ k → idx.toNat = 0xE00 + k → s.regRead idx = Config.freeRead s.draws idx)

/-- R131, R270, R56: `RESET` and the reset input, whatever is recorded in `ERR`, leave every component at its value of R56
and keep every byte of `OUT`; the two are one effect. -/
def Obligations.ResetLeavesTheResetValues : Prop :=
  IsWordOf 0x0100000000000000 .reset ∧
  ∀ (s : State) (rest : List HostAction), ∃ t u,
    exec .reset s = .next t ∧ ResetValues t ∧ t.out = s.out ∧
    perform .hwReset rest s = .next u ∧ ResetValues u ∧ u.out = s.out ∧ SameBlock t u

/-! ## Control and errors (spec/40_control.md, spec/60_exceptions.md) -/

/-- R130, R132: `NOP` has no effect and `CLRERR` clears `ERR` and `ERROP`, so that `irq` falls, and changes nothing else;
both run whether or not an error is recorded. -/
def Obligations.NopAndErrorAcknowledge : Prop :=
  IsWordOf 0x0000000000000000 .nop ∧ IsWordOf 0x0200000000000000 .clrerr ∧
  ∀ s : State,
    exec .nop s = .next s ∧
    ∃ t, exec .clrerr s = .next t ∧ t = { s with err := .noError, errop := 0 } ∧ t.irq = false ∧
      (s.err = .noError → s.errop = 0 → t = s)

/-- R241, R244, R245: when a command word raises an error, `ERR` takes the code and `ERROP` the word's opcode field, `irq` is
1, and nothing else changes: no other state, no byte emitted. -/
def Obligations.ErrorsChangeOnlyTheErrorRegisters : Prop :=
  ∀ (w : Word) (s t : State), s.err = .noError → runWord w s = .next t → t.err ≠ .noError →
    t = { s with err := t.err, errop := w.extractLsb' 56 8 } ∧ t.irq = true

/-- The codes of R240, and which commands raise which; `ALPHABET` is never raised (R155) and `ILLEGAL` by no command. -/
def Obligations.ErrorsComeFromTheirCommands : Prop :=
  [ErrCode.noError, .empty, .corruptHeader, .truncated, .alphabet, .state, .freqOvf, .weightOvf, .noCode, .dupSym,
    .countOvf, .illegal].map (fun c => c.code.toNat) = List.range 12 ∧
  ∀ (i : Instr) (s t : State), s.err = .noError → exec i s = .next t →
    match t.err with
    | .noError => True
    | .empty => i = .treeSeed ∨ i = .treeBuild
    | .corruptHeader => (∃ b, i = .deserByte b) ∨ i = .deserEnd
    | .truncated => i = .unpackEnd
    | .alphabet => False
    | .state => i = .treeMerge ∨ i = .codeBuild ∨ (∃ a, i = .packSym a) ∨ (∃ b, i = .unpackByte b) ∨ i = .unpackSym ∨
        i = .treeSer ∨ (∃ b, i = .deserByte b) ∨ i = .deserEnd ∨ i = .countEmit
    | .freqOvf => ∃ a, i = .freqInc a
    | .weightOvf => i = .treeSeed ∨ i = .treeBuild
    | .noCode => ∃ a, i = .packSym a
    | .dupSym => i = .codeBuild
    | .countOvf => i = .countEmit
    | .illegal => False

/-! ## Frequency table (spec/41_frequency.md) -/

/-- R140: `FREQ_CLEAR` makes every count 0 and changes nothing else. -/
def Obligations.FreqClearZeroesCounts : Prop :=
  IsWordOf 0x1000000000000000 .freqClear ∧
  ∀ s : State, s.err = .noError →
    ∃ t, exec .freqClear s = .next t ∧ t = { s with freq := t.freq } ∧ ∀ a, t.freqOf a = 0

/-- R141: `FREQ_INC s` adds one to the count of `s` and changes nothing else; at 2^64 − 1 it raises `FREQ_OVF` and the count
stays. -/
def Obligations.FreqIncCountsOneOccurrence : Prop :=
  ∀ (a : Byte) (s : State), IsWordOf (0x1100000000000000 ||| a.setWidth 64) (.freqInc a) ∧ (s.err = .noError →
    ((s.freqOf a).toNat < 2 ^ 64 - 1 → ∃ t, exec (.freqInc a) s = .next t ∧ t = { s with freq := t.freq } ∧
      (t.freqOf a).toNat = (s.freqOf a).toNat + 1 ∧ ∀ b, b ≠ a → t.freqOf b = s.freqOf b) ∧
    ((s.freqOf a).toNat = 2 ^ 64 - 1 → exec (.freqInc a) s = .next { s with err := .freqOvf, errop := 0x11 }))

/-- R142, R143: each of the two writes replaces one half of the count of `s`, keeps the other half, and changes nothing
else. -/
def Obligations.FreqSetWritesOneHalf : Prop :=
  ∀ (a : Byte) (v : Half) (s : State),
    IsWordOf (0x1200000000000000 ||| (a.setWidth 64 <<< 32 ||| v.setWidth 64)) (.freqSetLo a v) ∧
    IsWordOf (0x1300000000000000 ||| (a.setWidth 64 <<< 32 ||| v.setWidth 64)) (.freqSetHi a v) ∧ (s.err = .noError →
    (∃ t, exec (.freqSetLo a v) s = .next t ∧ t = { s with freq := t.freq } ∧
      (t.freqOf a).toNat = (s.freqOf a).toNat / 2 ^ 32 * 2 ^ 32 + v.toNat ∧ ∀ b, b ≠ a → t.freqOf b = s.freqOf b) ∧
    (∃ t, exec (.freqSetHi a v) s = .next t ∧ t = { s with freq := t.freq } ∧
      (t.freqOf a).toNat = v.toNat * 2 ^ 32 + (s.freqOf a).toNat % 2 ^ 32 ∧ ∀ b, b ≠ a → t.freqOf b = s.freqOf b))

/-- R144: after `FREQ_CLEAR`, or a reset, and one `FREQ_INC` for each byte of `x` with no error, each count is the number of
occurrences; fewer than 2^64 bytes raise no error. -/
def Obligations.FrequencyPassCountsInput : Prop :=
  ∀ (x : List Byte) (s : State) (c : Instr), s.err = .noError → c = .freqClear ∨ c = .reset →
    ∃ t, execAll (c :: x.map .freqInc) s = .next t ∧
      (t.err = .noError → ∀ a, (t.freqOf a).toNat = x.count a) ∧ (x.length < 2 ^ 64 → t.err = .noError)

/-- R145: a command that writes `FREQ` changes nothing else but the error registers; and no other command but `TREE_SEED` and
`TREE_BUILD` reads `FREQ`: run from two states that differ in `FREQ` alone, it does the same. -/
def Obligations.FrequenciesReachTheTreeOnlyBySeeding : Prop :=
  (∀ (i : Instr) (s t : State), i = .freqClear ∨ (∃ a, i = .freqInc a) ∨ (∃ a v, i = .freqSetLo a v) ∨
      (∃ a v, i = .freqSetHi a v) → exec i s = .next t → t = { s with freq := t.freq, err := t.err, errop := t.errop }) ∧
  (∀ (i : Instr) (s t : State) (f : Vector Word 256), i ≠ .treeSeed → i ≠ .treeBuild → i ≠ .reset → i ≠ .freqClear →
      (∀ a, i ≠ .freqInc a) → (∀ a v, i ≠ .freqSetLo a v) → (∀ a v, i ≠ .freqSetHi a v) →
      exec i s = .next t → exec i { s with freq := f } = .next { t with freq := f })

/-! ## Tree builder (spec/42_tree_builder.md) -/

/-- R152: `HeapPush` and `HeapPop` keep the heap property and the live entries, and `HeapPop` of a heap that is not empty
returns an entry of minimum weight. -/
def Obligations.HeapPropertyIsKept : Prop :=
  ∀ (key : NodeIdx → Nat) (h : List NodeIdx), HeapOrdered key h →
    (∀ n, HeapOrdered key (heapPush key h n) ∧ (heapPush key h n).Perm (n :: h)) ∧
    (h ≠ [] → ∃ r h', heapPop key h = some (r, h') ∧ HeapOrdered key h' ∧ h.Perm (r :: h') ∧ ∀ m ∈ h, key r ≤ key m)

/-- The checks of `TREE_SEED` and `TREE_BUILD` (R155, R157): `EMPTY` exactly when every count is 0, `WEIGHT_OVF` when the
counts add up to 2^64 or more; the old tree is kept. Otherwise the command completes without an error: `ALPHABET` cannot
occur. -/
def Obligations.SeedChecksCounts : Prop :=
  ∀ (i : Instr) (s : State), i = .treeSeed ∨ i = .treeBuild → s.err = .noError →
    ((∀ a, s.freqOf a = 0) → exec i s = .next { s with err := .empty, errop := i.opcode }) ∧
    (2 ^ 64 ≤ s.freqTotal → exec i s = .next { s with err := .weightOvf, errop := i.opcode }) ∧
    ((∃ a, s.freqOf a ≠ 0) → s.freqTotal < 2 ^ 64 → ∃ t, exec i s = .next t ∧ t.err = .noError)

/-- R153, R155: `TREE_SEED` raises `EMPTY` when every count is 0 and `WEIGHT_OVF` when the counts add up to 2^64 or more, and
keeps the old tree; its checks passed, it discards the present tree, codes and parse; the
symbols with a nonzero count, ascending, become the leaves 0, 1, … with their counts as weights, pushed on the heap in that order; one symbol alone makes
the tree complete at once. Every other component is kept. -/
def Obligations.TreeSeedMakesTheLeaves : Prop :=
  IsWordOf 0x2000000000000000 .treeSeed ∧
  ∀ s : State, s.err = .noError →
    ((∀ a, s.freqOf a = 0) → exec .treeSeed s = .next { s with err := .empty, errop := 0x20 }) ∧
    (2 ^ 64 ≤ s.freqTotal → exec .treeSeed s = .next { s with err := .weightOvf, errop := 0x20 }) ∧
    ((∃ a, s.freqOf a ≠ 0) → s.freqTotal < 2 ^ 64 → exec .treeSeed s = .next
      { s with
        nodes := s.presentSymbols.map fun a => ⟨.leaf, a, s.freqOf a, 0, 0⟩
        heap := ((List.range s.presentSymbols.length).map (BitVec.ofNat 9)).foldl
          (heapPush fun i => (s.freqOf (s.presentSymbols.getD i.toNat 0)).toNat) []
        root := 0, tvalid := decide (s.presentSymbols.length = 1), torigin := .builder, walk := 0
        code := Vector.replicate 256 ⟨false, 0, 0⟩, ctvalid := false
        dsState := .idle, dsStk := [], dsCur := 0 })

/-- R154, R156: `TREE_MERGE` raises `STATE` below two heap entries. Otherwise it pops the lightest node `a` and the next
lightest `b`, allocates at `NCOUNT` their parent, `a` left and `b` right, whose weight is their exact sum, and pushes it; the
last merge completes the tree. Every other component is kept. -/
def Obligations.TreeMergeJoinsTheTwoLightest : Prop :=
  IsWordOf 0x2100000000000000 .treeMerge ∧
  ∀ s : State, s.err = .noError →
    (s.hsize < 2 → exec .treeMerge s = .next { s with err := .state, errop := 0x21 }) ∧
    (Inv s → 2 ≤ s.hsize → ∃ a b h1 h2 t, heapPop s.key s.heap = some (a, h1) ∧ heapPop s.key h1 = some (b, h2) ∧
      exec .treeMerge s = .next t ∧
      t = { s with
            nodes := s.nodes ++ [⟨.internal, 0, s.weight a + s.weight b, a, b⟩]
            heap := heapPush t.key h2 (BitVec.ofNat 9 s.ncount)
            root := if s.hsize = 2 then BitVec.ofNat 9 s.ncount else s.root
            walk := if s.hsize = 2 then BitVec.ofNat 9 s.ncount else s.walk
            tvalid := decide (s.hsize = 2), torigin := .builder } ∧
      (s.weight a + s.weight b).toNat = (s.weight a).toNat + (s.weight b).toNat ∧
      t.hsize + 1 = s.hsize ∧ s.ncount ≤ 510 ∧ s.key a ≤ s.key b ∧ ∀ m ∈ h2, s.key b ≤ s.key m)

/-- R157: `TREE_BUILD` without an error does what `TREE_SEED` and then `k − 1` times `TREE_MERGE` do, `k` the number of
symbols with a nonzero count; with an error it records that of `TREE_SEED` with its own opcode. From every state. -/
def Obligations.TreeBuildIsSeedThenMerges : Prop :=
  IsWordOf 0x2200000000000000 .treeBuild ∧
  ∀ s : State, s.err = .noError →
    (s.seedError = none → (∃ t, exec .treeBuild s = .next t ∧ t.err = .noError ∧ t.tvalid = true) ∧
      exec .treeBuild s = execAll (.treeSeed :: List.replicate (s.presentSymbols.length - 1) .treeMerge) s) ∧
    (∀ t, exec .treeSeed s = .next t → t.err ≠ .noError → exec .treeBuild s = .next { t with errop := 0x22 })

/-- R158: the arena after `TREE_BUILD` with `k` distinct symbols. Nodes 0 to `k − 1` are the leaves in ascending symbol order,
the others are the internal nodes in merge order (`j` merges after a seed, the arena holds its first `k + j` nodes),
`ROOT = 2k − 2`, `NCOUNT = 2k − 1`, the heap holds the root alone, and the root weighs the total of the counts. The nodes
are one full binary tree whose weights are sums. -/
def Obligations.TreeBuildLaysOutTheArena : Prop :=
  ∀ s : State, s.err = .noError → (∃ a, s.freqOf a ≠ 0) → s.freqTotal < 2 ^ 64 →
    ∃ t, exec .treeBuild s = .next t ∧
      t = { s with
            nodes := t.nodes, heap := [t.root], root := t.root, tvalid := true, torigin := .builder, walk := t.root
            code := Vector.replicate 256 ⟨false, 0, 0⟩, ctvalid := false
            dsState := .idle, dsStk := [], dsCur := 0 } ∧
      t.ncount + 1 = 2 * s.presentSymbols.length ∧ t.root.toNat + 2 = 2 * s.presentSymbols.length ∧
      t.nodes.take s.presentSymbols.length = (s.presentSymbols.map fun a => ⟨.leaf, a, s.freqOf a, 0, 0⟩) ∧
      (∀ n ∈ t.nodes.drop s.presentSymbols.length, n.kind = .internal) ∧
      (∀ j u, j < s.presentSymbols.length → execAll (.treeSeed :: List.replicate j .treeMerge) s = .next u →
        u.nodes = t.nodes.take (s.presentSymbols.length + j)) ∧
      (t.weight t.root).toNat = s.freqTotal ∧
      ∃ sh, TreeIs t sh ∧ sh.Summed t.nodes

/-- R2, R159 (code-length optimality): after `TREE_BUILD` and `CODE_BUILD` the codes are optimal. For any prefix-free
assignment of codes to the symbols with a nonzero count, the total number of code bits, each symbol counted as often as it
occurs, is no less than with the block's codes. -/
def Obligations.BuiltCodesAreOptimal : Prop :=
  ∀ s t : State, s.err = .noError → execAll [.treeBuild, .codeBuild] s = .next t → t.err = .noError →
    ∀ c : Byte → Bits,
      (∀ a b, s.freqOf a ≠ 0 → s.freqOf b ≠ 0 → a ≠ b → ¬ c a <+: c b) →
      (allSymbols.map fun a => (s.freqOf a).toNat * (t.codeOf a).clen.toNat).sum ≤
        (allSymbols.map fun a => (s.freqOf a).toNat * (c a).length).sum

/-! ## Code table (spec/43_code_table.md) -/

/-- R170, R172: `CODE_BUILD` raises `STATE` without a complete tree, and `DUPSYM` when two leaves of the tree carry one
symbol; otherwise each leaf's symbol gets its path from the root as its code, of at most 255 bits, every other symbol has no
code, and nothing but the table changes. -/
def Obligations.CodeBuildRecordsThePaths : Prop :=
  IsWordOf 0x3000000000000000 .codeBuild ∧
  ∀ s : State, s.err = .noError →
    (s.tvalid = false → exec .codeBuild s = .next { s with err := .state, errop := 0x30 }) ∧
    (∀ sh : Shape, s.tvalid = true → s.ncount ≤ nodeCap → TreeIs s sh →
      (¬ ((sh.paths []).map fun e => (s.node e.1).sym).Nodup →
        exec .codeBuild s = .next { s with err := .dupSym, errop := 0x30 }) ∧
      (((sh.paths []).map fun e => (s.node e.1).sym).Nodup →
        ∃ t, exec .codeBuild s = .next t ∧ t = { s with code := t.code, ctvalid := true } ∧
          (∀ e ∈ sh.paths [], e.2.length ≤ 255 ∧ (t.codeOf (s.node e.1).sym).cvalid = true ∧
            (t.codeOf (s.node e.1).sym).clen.toNat = e.2.length ∧
            (t.codeOf (s.node e.1).sym).cbits.toNat = bitsValue e.2) ∧
          (∀ a, a ∉ (sh.paths []).map (fun e => (s.node e.1).sym) → t.codeOf a = ⟨false, 0, 0⟩)))

/-- R171: after a successful `CODE_BUILD` no symbol's code is a prefix of another's. -/
def Obligations.CodesArePrefixFree : Prop :=
  ∀ s t : State, Inv s → exec .codeBuild s = .next t → t.err = .noError →
    ∀ a b, a ≠ b → (t.codeOf a).cvalid = true → (t.codeOf b).cvalid = true → ¬ (t.codeOf a).bits <+: (t.codeOf b).bits

/-- R173: two trees with the same shape and the same leaf symbols (the same serialized bytes) give equal tables, whatever
their arena indices and weights. -/
def Obligations.TableDependsOnShapeAndSymbols : Prop :=
  ∀ s1 s2 t1 t2 : State, Inv s1 → Inv s2 → exec .codeBuild s1 = .next t1 → exec .codeBuild s2 = .next t2 →
    t1.err = .noError → t2.err = .noError → s1.serialized = s2.serialized → t1.code = t2.code

/-! ## Bit packer (spec/44_bit_packer.md) -/

/-- R180: `PACK_SYM` raises `STATE` without a table and `NOCODE` for a symbol without a code; otherwise it emits
`(PACCN + CLEN) / 8` bytes, and the bits it emitted with those now pending are those pending before with the symbol's code
after them. Nothing but the packer and the output changes. -/
def Obligations.PackSymAppendsTheCode : Prop :=
  ∀ (a : Byte) (s : State), IsWordOf (0x4000000000000000 ||| a.setWidth 64) (.packSym a) ∧ (s.err = .noError →
    (s.ctvalid = false → exec (.packSym a) s = .next { s with err := .state, errop := 0x40 }) ∧
    (s.ctvalid = true → (s.codeOf a).cvalid = false →
      exec (.packSym a) s = .next { s with err := .noCode, errop := 0x40 }) ∧
    (s.ctvalid = true → (s.codeOf a).cvalid = true → s.pacc.toNat < 2 ^ s.paccn.toNat →
      ∃ t bs, exec (.packSym a) s = .next t ∧
        t = { s with pacc := t.pacc, paccn := t.paccn, out := s.out ++ bs,
                     outcnt := s.outcnt + BitVec.ofNat 64 bs.length } ∧
        streamBits bs ++ t.pending = s.pending ++ (s.codeOf a).bits ∧
        bs.length = (s.paccn.toNat + (s.codeOf a).clen.toNat) / 8 ∧ t.pacc.toNat < 2 ^ t.paccn.toNat))

/-- R84, R181: `PACK_FLUSH` with bits pending emits one byte, those bits in its high positions and zeros below; with none it
emits nothing. The accumulator is cleared and nothing else changes. -/
def Obligations.PackFlushPadsTheLastByte : Prop :=
  IsWordOf 0x4100000000000000 .packFlush ∧
  ∀ s : State, s.err = .noError → s.pacc.toNat < 2 ^ s.paccn.toNat →
    (s.paccn = 0 → exec .packFlush s = .next s) ∧
    (s.paccn ≠ 0 → ∃ b : Byte,
      exec .packFlush s = .next { s with pacc := 0, paccn := 0, out := s.out ++ [b], outcnt := s.outcnt + 1 } ∧
      b.toNat = s.pacc.toNat * 2 ^ (8 - s.paccn.toNat) ∧
      byteBits b = s.pending ++ List.replicate (8 - s.paccn.toNat) false)

/-- R182, the packing law: with no bits pending, `PACK_SYM` for each byte of `x` and `PACK_FLUSH` emit the concatenated codes,
cut into bytes and padded with zeros: `ceil(B / 8)` bytes for `B` code bits. -/
def Obligations.PackingLaw : Prop :=
  ∀ (x : List Byte) (s : State), s.err = .noError → s.ctvalid = true → s.paccn = 0 → s.pacc = 0 →
    (∀ a ∈ x, (s.codeOf a).cvalid = true) →
    ∃ bs pad, execAll (x.map .packSym ++ [.packFlush]) s =
        .next { s with out := s.out ++ bs, outcnt := s.outcnt + BitVec.ofNat 64 bs.length } ∧
      streamBits bs = (x.flatMap fun a => (s.codeOf a).bits) ++ List.replicate pad false ∧
      bs.length = ((x.map fun a => (s.codeOf a).clen.toNat).sum + 7) / 8

/-! ## Bit unpacker (spec/45_bit_unpacker.md) -/

/-- R190, R191: `UNPACK_INIT` clears `REMAIN` and puts the walk at `ROOT`; `COUNT_SHIFT b` shifts `b` into the low byte of
`REMAIN`, modulo 2^48. Neither changes anything else. -/
def Obligations.CountIsShiftedIn : Prop :=
  IsWordOf 0x5000000000000000 .unpackInit ∧
  ∀ (b : Byte) (s : State), IsWordOf (0x5100000000000000 ||| b.setWidth 64) (.countShift b) ∧ (s.err = .noError →
    exec .unpackInit s = .next { s with remain := 0, walk := s.root } ∧
    ∃ t, exec (.countShift b) s = .next t ∧ t = { s with remain := t.remain } ∧
      t.remain.toNat = (s.remain.toNat * 2 ^ 8 + b.toNat) % 2 ^ 48)

/-- R192: `UNPACK_BYTE` raises `STATE` without a tree, has no effect when the count is met or the root is a leaf, and otherwise
takes the bits 7 down to 0 of its byte, one edge down per bit, until the count is met: at a leaf its symbol is emitted, one
symbol less remains, and the walk is back at the root. -/
def Obligations.UnpackByteWalksEightBits : Prop :=
  ∀ (b : Byte) (s : State), IsWordOf (0x5200000000000000 ||| b.setWidth 64) (.unpackByte b) ∧ (s.err = .noError →
    (s.tvalid = false → exec (.unpackByte b) s = .next { s with err := .state, errop := 0x52 }) ∧
    (s.tvalid = true → s.remain = 0 ∨ (s.node s.root).kind = .leaf → exec (.unpackByte b) s = .next s) ∧
    (s.tvalid = true → s.remain ≠ 0 → (s.node s.root).kind = .internal →
      exec (.unpackByte b) s = .next ([7, 6, 5, 4, 3, 2, 1, 0].foldl
        (fun u k =>
          if u.remain = 0 then u
          else
            let n := if b.getLsbD k then (u.node u.walk).r else (u.node u.walk).l
            if (u.node n).kind = .leaf then
              { u with out := u.out ++ [(u.node n).sym], outcnt := u.outcnt + 1, remain := u.remain - 1, walk := u.root }
            else { u with walk := n })
        s)))

/-- One `UNPACK_BYTE` emits at most eight symbols, never past the count, leaves the walk at the root or at an internal node,
and changes nothing but `REMAIN`, the walk and the output (R192, R51 (c)). -/
def Obligations.UnpackByteStaysWithinTheCount : Prop :=
  ∀ (b : Byte) (s : State), Inv s → s.err = .noError → s.tvalid = true →
    ∃ t bs, exec (.unpackByte b) s = .next t ∧
      t = { s with remain := t.remain, walk := t.walk, out := s.out ++ bs,
                   outcnt := s.outcnt + BitVec.ofNat 64 bs.length } ∧
      bs.length ≤ 8 ∧ t.remain.toNat + bs.length = s.remain.toNat ∧
      (∀ x ∈ bs, ∃ n ∈ s.nodes, n.kind = .leaf ∧ n.sym = x) ∧
      (t.walk = t.root ∨ ∃ n, t.nodes[t.walk.toNat]? = some n ∧ n.kind = .internal)

/-- R193: `UNPACK_SYM` raises `STATE` without a tree or with an internal root, has no effect when the count is met, and
otherwise emits the root's symbol and takes one from the count. -/
def Obligations.UnpackSymEmitsTheRootSymbol : Prop :=
  IsWordOf 0x5300000000000000 .unpackSym ∧
  ∀ s : State, s.err = .noError →
    (s.tvalid = false ∨ (s.node s.root).kind = .internal →
      exec .unpackSym s = .next { s with err := .state, errop := 0x53 }) ∧
    (s.tvalid = true → (s.node s.root).kind = .leaf → s.remain = 0 → exec .unpackSym s = .next s) ∧
    (s.tvalid = true → (s.node s.root).kind = .leaf → s.remain ≠ 0 →
      ∃ t, exec .unpackSym s = .next t ∧ t.remain.toNat + 1 = s.remain.toNat ∧
        t = { s with remain := t.remain, out := s.out ++ [(s.node s.root).sym], outcnt := s.outcnt + 1 })

/-- R194: `UNPACK_END` raises `TRUNCATED` when the count was not met, and has no effect when it was. -/
def Obligations.UnpackEndChecksTheCount : Prop :=
  IsWordOf 0x5400000000000000 .unpackEnd ∧
  ∀ s : State, s.err = .noError →
    (s.remain ≠ 0 → exec .unpackEnd s = .next { s with err := .truncated, errop := 0x54 }) ∧
    (s.remain = 0 → exec .unpackEnd s = .next s)

/-- R195, the decoding law: with a tree whose root is internal, the walk at the root and `REMAIN` the number of symbols,
`UNPACK_BYTE` for the bytes whose bits are the codes of the symbols `xs` (each a leaf of the tree with its path) and then any
padding emits exactly those symbols and leaves `REMAIN` at 0. With a leaf as root, `REMAIN` times `UNPACK_SYM` emits as many
copies of its symbol. In both cases `UNPACK_END` then succeeds. -/
def Obligations.DecodingLaw : Prop :=
  ∀ (s : State) (sh : Shape), s.err = .noError → s.tvalid = true → s.ncount ≤ nodeCap → TreeIs s sh →
    s.walk = s.root →
    (∀ (xs : List (NodeIdx × Bits)) (bs : List Byte) (pad : Bits), (s.node s.root).kind = .internal →
      (∀ x ∈ xs, x ∈ sh.paths []) → s.remain.toNat = xs.length →
      streamBits bs = xs.flatMap Prod.snd ++ pad →
      ∃ t, execAll (bs.map .unpackByte) s = .next t ∧ t.remain = 0 ∧ t.out = s.out ++ xs.map (fun x => (s.node x.1).sym) ∧
        exec .unpackEnd t = .next t) ∧
    ((s.node s.root).kind = .leaf →
      ∃ t, execAll (List.replicate s.remain.toNat .unpackSym) s = .next t ∧ t.remain = 0 ∧
        t.out = s.out ++ List.replicate s.remain.toNat (s.node s.root).sym ∧ exec .unpackEnd t = .next t)

/-! ## Tree serializer (spec/46_tree_serializer.md) -/

/-- R210, R211: `TREE_SER` raises `STATE` without a tree; otherwise it emits the tree in pre-order, 0x31 and the symbol for a
leaf, 0x30 for an internal node: `3k − 1` bytes for `k` leaves. Nothing but the output changes. -/
def Obligations.TreeSerEmitsPreOrder : Prop :=
  IsWordOf 0x6000000000000000 .treeSer ∧
  ∀ s : State, s.err = .noError →
    (s.tvalid = false → exec .treeSer s = .next { s with err := .state, errop := 0x60 }) ∧
    (∀ sh : Shape, s.tvalid = true → s.ncount ≤ nodeCap → TreeIs s sh →
      ∃ bs, bs = sh.bytes (fun i => (s.node i).sym) ∧ bs.length + 1 = 3 * sh.leaves.length ∧
        exec .treeSer s = .next { s with out := s.out ++ bs, outcnt := s.outcnt + BitVec.ofNat 64 bs.length })

/-- R210: the grammar is prefix-free: when the bytes of one full tree begin those of another, the two are the same bytes. -/
def Obligations.SerializedTreesArePrefixFree : Prop :=
  ∀ (t u : Shape) (f g : NodeIdx → Byte) (rest : List Byte), t.complete = true → u.complete = true →
    t.bytes f ++ rest = u.bytes g → rest = []

/-- R212: `DESER_START` discards the present tree, codes and heap and begins a parse, whatever parse was in progress; every
other component is kept. -/
def Obligations.DeserStartBeginsAParse : Prop :=
  IsWordOf 0x6100000000000000 .deserStart ∧
  ∀ s : State, s.err = .noError →
    exec .deserStart s = .next
      { s with
        nodes := [], heap := [], root := 0, tvalid := false, torigin := .builder, walk := 0
        code := Vector.replicate 256 ⟨false, 0, 0⟩, ctvalid := false
        dsState := .marker, dsStk := [], dsCur := 0 }

/-- R213: `DESER_BYTE`, case by case: `STATE` when no parse is in progress; in state SYM the leaf `DS_CUR` takes its symbol, and
without a frame the tree is complete with root 0; in state MARKER a byte that is no marker, or a marker that would need a
512th node, is a corrupt header, and otherwise a node is allocated, attached to the parent that waits, and waits itself, a
leaf for its symbol, an internal node on the stack. Nothing else changes. -/
def Obligations.DeserByteParsesOneByte : Prop :=
  ∀ (b : Byte) (s : State), IsWordOf (0x6200000000000000 ||| b.setWidth 64) (.deserByte b) ∧ (Inv s → s.err = .noError →
    (s.dsState = .idle ∨ s.dsState = .done → exec (.deserByte b) s = .next { s with err := .state, errop := 0x62 }) ∧
    (s.dsState = .sym → s.dsStk = [] → exec (.deserByte b) s = .next
      { s with nodes := s.nodes.modify s.dsCur.toNat (fun n => { n with sym := b }), dsState := .done
               root := 0, tvalid := true, torigin := .deserializer, walk := 0 }) ∧
    (s.dsState = .sym → s.dsStk ≠ [] → exec (.deserByte b) s = .next
      { s with nodes := s.nodes.modify s.dsCur.toNat (fun n => { n with sym := b }), dsState := .marker }) ∧
    (s.dsState = .marker → (b ≠ 0x31 ∧ b ≠ 0x30) ∨ s.ncount = 511 →
      exec (.deserByte b) s = .next { s with err := .corruptHeader, errop := 0x62 }) ∧
    (s.dsState = .marker → b = 0x31 ∨ b = 0x30 → s.ncount < 511 →
      ∃ t, exec (.deserByte b) s = .next t ∧
        t = { s with nodes := t.nodes, dsStk := t.dsStk
                     dsCur := if b = 0x31 then BitVec.ofNat 9 s.ncount else s.dsCur
                     dsState := if b = 0x31 then .sym else .marker } ∧
        t.nodes =
          (match s.dsStk with
           | [] => s.nodes
           | ⟨p, .left⟩ :: _ => s.nodes.modify p.toNat fun n => { n with l := BitVec.ofNat 9 s.ncount }
           | ⟨p, .right⟩ :: _ => s.nodes.modify p.toNat fun n => { n with r := BitVec.ofNat 9 s.ncount })
            ++ [⟨if b = 0x31 then .leaf else .internal, 0, 0, 0, 0⟩] ∧
        t.dsStk =
          (if b = 0x31 then [] else [⟨BitVec.ofNat 9 s.ncount, .left⟩]) ++
            (match s.dsStk with
             | [] => []
             | ⟨p, .left⟩ :: rest => ⟨p, .right⟩ :: rest
             | ⟨_, .right⟩ :: rest => rest)))

/-- R214: each frame of the stack names a distinct live internal node, so that `DS_DEPTH ≤ NCOUNT ≤ 511`. -/
def Obligations.StackNeverOverflows : Prop :=
  ∀ s : State, Inv s →
    (s.dsStk.map Frame.node).Nodup ∧ (∀ f ∈ s.dsStk, ∃ n, s.nodes[f.node.toNat]? = some n ∧ n.kind = .internal) ∧
      s.dsDepth ≤ s.ncount ∧ s.ncount ≤ 511

/-- R215: `DESER_END` raises `STATE` when no parse was started and `CORRUPT_HEADER` when the tree is incomplete, and has no
effect when it is complete. -/
def Obligations.DeserEndChecksTheTree : Prop :=
  IsWordOf 0x6300000000000000 .deserEnd ∧
  ∀ s : State, s.err = .noError →
    (s.dsState = .idle → exec .deserEnd s = .next { s with err := .state, errop := 0x63 }) ∧
    (s.dsState = .marker ∨ s.dsState = .sym → exec .deserEnd s = .next { s with err := .corruptHeader, errop := 0x63 }) ∧
    (s.dsState = .done → exec .deserEnd s = .next s)

/-- R216, the tree round trip: `DESER_START` and `DESER_BYTE` for each byte of the present tree's serialized form succeed,
`DS_STATE` is DONE exactly after the last byte, and the new tree has the same serialized form, its nodes numbered in
pre-order from 0 and its weights 0. -/
def Obligations.TreeRoundTrip : Prop :=
  ∀ s : State, Inv s → s.err = .noError → s.tvalid = true →
    ∃ bs t, s.serialized = some bs ∧ execAll (.deserStart :: bs.map .deserByte) s = .next t ∧
      t.err = .noError ∧ t.dsState = .done ∧ t.tvalid = true ∧ t.root = 0 ∧ t.serialized = some bs ∧
      (∃ sh, TreeIs t sh ∧ sh.indices.map BitVec.toNat = List.range t.ncount) ∧ (∀ n ∈ t.nodes, n.w = 0) ∧
      ∀ k, k < bs.length → ∃ u, execAll (.deserStart :: (bs.take k).map .deserByte) s = .next u ∧
        u.err = .noError ∧ u.dsState ≠ .done

/-! ## Container (spec/47_container.md) -/

/-- R230: `EMIT_BYTE b` appends `b` to `OUT`, counts it, and changes nothing else. -/
def Obligations.EmitBytePassesOneByte : Prop :=
  ∀ (b : Byte) (s : State), IsWordOf (0x7000000000000000 ||| b.setWidth 64) (.emitByte b) ∧ (s.err = .noError →
    exec (.emitByte b) s = .next { s with out := s.out ++ [b], outcnt := s.outcnt + 1 })

/-- R87, R231: `COUNT_EMIT` raises `STATE` without a tree of the builder and `COUNT_OVF` when the root weighs more than
2^48 − 1; otherwise it emits six bytes that are the root's weight, big-endian, and changes nothing else. -/
def Obligations.CountEmitWritesSixBytes : Prop :=
  IsWordOf 0x7100000000000000 .countEmit ∧
  ∀ s : State, s.err = .noError →
    (s.tvalid = false ∨ s.torigin = .deserializer → exec .countEmit s = .next { s with err := .state, errop := 0x71 }) ∧
    (s.tvalid = true → s.torigin = .builder → 2 ^ 48 - 1 < (s.weight s.root).toNat →
      exec .countEmit s = .next { s with err := .countOvf, errop := 0x71 }) ∧
    (s.tvalid = true → s.torigin = .builder → (s.weight s.root).toNat ≤ 2 ^ 48 - 1 →
      ∃ bs, bs.length = 6 ∧ bigEndianValue bs = (s.weight s.root).toNat ∧
        exec .countEmit s = .next { s with out := s.out ++ bs, outcnt := s.outcnt + 6 })

/-- R232: from `ERR = 0` and an empty packer, the encode sequence for `x` and extension `e` emits the container of R85: the
extension, the tree, the six bytes of the count, and the codes of `x` packed and padded. An empty input raises `EMPTY` and
emits nothing; a count above 2^48 − 1 raises `COUNT_OVF`. -/
def Obligations.EncodeSequenceEmitsAContainer : Prop :=
  ∀ (x e : List Byte) (s : State), s.err = .noError → s.paccn = 0 → s.pacc = 0 → e.length ≤ 255 →
    (x ≠ [] → x.length < 2 ^ 48 → ∃ t tree count payload pad, execAll (encodeSequence x e) s = .next t ∧ t.err = .noError ∧
      t.out = s.out ++ (BitVec.ofNat 8 e.length :: e ++ tree ++ count ++ payload) ∧
      t.serialized = some tree ∧ count.length = 6 ∧ bigEndianValue count = x.length ∧
      (∀ a ∈ x, (t.codeOf a).cvalid = true) ∧ pad < 8 ∧
      streamBits payload = (x.flatMap fun a => (t.codeOf a).bits) ++ List.replicate pad false) ∧
    (x = [] → ∃ t, execAll (encodeSequence x e) s = .next t ∧ t.err = .empty ∧ t.out = s.out) ∧
    (2 ^ 48 ≤ x.length → x.length < 2 ^ 64 → ∃ t, execAll (encodeSequence x e) s = .next t ∧ t.err = .countOvf)

/-- R234, the round trip: for every `x` of 1 to 2^48 − 1 bytes and every extension `e`, the encode sequence succeeds, and the
decode sequence on the bytes it emitted, on any block of the invariant without an error recorded, ends with `ERR = 0` and
emits exactly `x`. For the empty `x` the encode sequence raises `EMPTY` and emits nothing. -/
def Obligations.RoundTrip : Prop :=
  ∀ (x e : List Byte) (s : State), s.err = .noError → s.paccn = 0 → s.pacc = 0 → e.length ≤ 255 →
    (1 ≤ x.length → x.length ≤ 2 ^ 48 - 1 →
      ∃ t y, execAll (encodeSequence x e) s = .next t ∧ t.err = .noError ∧ t.out = s.out ++ y ∧
        ∀ v : State, Inv v → v.err = .noError → ∃ u, decodeSequence y v = .ran u ∧ u.err = .noError ∧ u.out = v.out ++ x) ∧
    (x = [] → ∃ t, execAll (encodeSequence x e) s = .next t ∧ t.err = .empty ∧ t.out = s.out)

/-! ## The whole machine (spec/10_state.md) -/

/-- The invariant holds after reset. -/
def Obligations.ResetMeetsTheInvariant : Prop := Inv State.reset

/-- Every step keeps the invariant, from every state it holds of. -/
def Obligations.EveryStepKeepsTheInvariant : Prop := ∀ s t : State, Inv s → step s = .next t → Inv t

/-- From every state of the invariant, every step completes: no command faults or is refused, so that an error of R240 is the
only way a command fails (R72, R242). -/
def Obligations.EveryStepCompletes : Prop := ∀ s : State, Inv s → Completes (step s)

/-- The invariants that R51 lists follow from the inductive one, so they hold after every command (R51 (a) to (f); of (b), that
a leaf's weight is the count at its seed is said by TreeSeedMakesTheLeaves). -/
def Obligations.InvariantsOfTheState : Prop := ∀ s : State, Inv s → RuleR51 s

/-- R33, R36, R41 (no rule reads a non-live entry): from a state of the invariant, what a command does does not depend on the
free values, which are drawn by the counter `draws` (log entry 2). -/
def Obligations.NoRuleReadsANonLiveEntry : Prop :=
  ∀ (i : Instr) (s t : State) (d : Nat), Inv s → exec i s = .next t →
    exec i { s with draws := d } = .next { t with draws := d }

/-- R43, R44, R271: a command only appends to `OUT`; `OUTCNT` counts the bytes appended, modulo 2^64, except that `RESET`
clears it and appends nothing. -/
def Obligations.OutputIsAppendOnly : Prop :=
  ∀ (i : Instr) (s t : State), exec i s = .next t →
    ∃ bs, t.out = s.out ++ bs ∧
      (i ≠ .reset → t.outcnt = s.outcnt + BitVec.ofNat 64 bs.length) ∧ (i = .reset → bs = [] ∧ t.outcnt = 0)

/-- Which commands write which component (R31, R35, R36, R37, R39, R40, R41, R42, R48, R277, R278): `RESET` writes all of them,
and no other command but those named writes the component. -/
def Obligations.ComponentsAreWrittenByTheirCommands : Prop :=
  ∀ (i : Instr) (s t : State), i ≠ .reset → exec i s = .next t →
    (t.freq ≠ s.freq → i = .freqClear ∨ (∃ a, i = .freqInc a) ∨ (∃ a v, i = .freqSetLo a v) ∨ (∃ a v, i = .freqSetHi a v)) ∧
    (t.nodes ≠ s.nodes ∨ t.root ≠ s.root ∨ t.tvalid ≠ s.tvalid ∨ t.torigin ≠ s.torigin →
      i = .treeSeed ∨ i = .treeMerge ∨ i = .treeBuild ∨ i = .deserStart ∨ ∃ b, i = .deserByte b) ∧
    (t.heap ≠ s.heap → i = .treeSeed ∨ i = .treeMerge ∨ i = .treeBuild ∨ i = .deserStart) ∧
    (t.code ≠ s.code ∨ t.ctvalid ≠ s.ctvalid → i = .codeBuild ∨ i = .treeSeed ∨ i = .treeBuild ∨ i = .deserStart) ∧
    (t.pacc ≠ s.pacc ∨ t.paccn ≠ s.paccn → (∃ a, i = .packSym a) ∨ i = .packFlush) ∧
    (t.remain ≠ s.remain → i = .unpackInit ∨ (∃ b, i = .countShift b) ∨ (∃ b, i = .unpackByte b) ∨ i = .unpackSym) ∧
    (t.walk ≠ s.walk → i = .unpackInit ∨ (∃ b, i = .unpackByte b) ∨ i = .treeSeed ∨ i = .treeMerge ∨ i = .treeBuild ∨
      i = .deserStart ∨ ∃ b, i = .deserByte b) ∧
    (t.dsState ≠ s.dsState ∨ t.dsStk ≠ s.dsStk ∨ t.dsCur ≠ s.dsCur →
      i = .treeSeed ∨ i = .treeBuild ∨ i = .deserStart ∨ ∃ b, i = .deserByte b) ∧
    (s.err ≠ .noError → t.err ≠ s.err → i = .clrerr)
end

