-- ==== Sys2Proof/Laws/State.lean ====
section
/-!
SUPPORT. One lemma for each field of each state update of Machine/Ops.lean, so that no later proof unfolds a record update.
-/

namespace Sys2Proof.Machine

/-! ## `emit` -/

@[simp] theorem State.emit_freq (s : State) (b : Byte) : (s.emit b).freq = s.freq := rfl
@[simp] theorem State.emit_nodes (s : State) (b : Byte) : (s.emit b).nodes = s.nodes := rfl
@[simp] theorem State.emit_root (s : State) (b : Byte) : (s.emit b).root = s.root := rfl
@[simp] theorem State.emit_tvalid (s : State) (b : Byte) : (s.emit b).tvalid = s.tvalid := rfl
@[simp] theorem State.emit_torigin (s : State) (b : Byte) : (s.emit b).torigin = s.torigin := rfl
@[simp] theorem State.emit_heap (s : State) (b : Byte) : (s.emit b).heap = s.heap := rfl
@[simp] theorem State.emit_code (s : State) (b : Byte) : (s.emit b).code = s.code := rfl
@[simp] theorem State.emit_ctvalid (s : State) (b : Byte) : (s.emit b).ctvalid = s.ctvalid := rfl
@[simp] theorem State.emit_pacc (s : State) (b : Byte) : (s.emit b).pacc = s.pacc := rfl
@[simp] theorem State.emit_paccn (s : State) (b : Byte) : (s.emit b).paccn = s.paccn := rfl
@[simp] theorem State.emit_remain (s : State) (b : Byte) : (s.emit b).remain = s.remain := rfl
@[simp] theorem State.emit_walk (s : State) (b : Byte) : (s.emit b).walk = s.walk := rfl
@[simp] theorem State.emit_dsState (s : State) (b : Byte) : (s.emit b).dsState = s.dsState := rfl
@[simp] theorem State.emit_dsStk (s : State) (b : Byte) : (s.emit b).dsStk = s.dsStk := rfl
@[simp] theorem State.emit_dsCur (s : State) (b : Byte) : (s.emit b).dsCur = s.dsCur := rfl
@[simp] theorem State.emit_err (s : State) (b : Byte) : (s.emit b).err = s.err := rfl
@[simp] theorem State.emit_errop (s : State) (b : Byte) : (s.emit b).errop = s.errop := rfl
@[simp] theorem State.emit_outcnt (s : State) (b : Byte) : (s.emit b).outcnt = s.outcnt + 1 := rfl
@[simp] theorem State.emit_out (s : State) (b : Byte) : (s.emit b).out = s.out ++ [b] := rfl
@[simp] theorem State.emit_inbox (s : State) (b : Byte) : (s.emit b).inbox = s.inbox := rfl
@[simp] theorem State.emit_reads (s : State) (b : Byte) : (s.emit b).reads = s.reads := rfl
@[simp] theorem State.emit_draws (s : State) (b : Byte) : (s.emit b).draws = s.draws := rfl

/-! ## `clearError` -/

@[simp] theorem State.clearError_freq (s : State) : (s.clearError).freq = s.freq := rfl
@[simp] theorem State.clearError_nodes (s : State) : (s.clearError).nodes = s.nodes := rfl
@[simp] theorem State.clearError_root (s : State) : (s.clearError).root = s.root := rfl
@[simp] theorem State.clearError_tvalid (s : State) : (s.clearError).tvalid = s.tvalid := rfl
@[simp] theorem State.clearError_torigin (s : State) : (s.clearError).torigin = s.torigin := rfl
@[simp] theorem State.clearError_heap (s : State) : (s.clearError).heap = s.heap := rfl
@[simp] theorem State.clearError_code (s : State) : (s.clearError).code = s.code := rfl
@[simp] theorem State.clearError_ctvalid (s : State) : (s.clearError).ctvalid = s.ctvalid := rfl
@[simp] theorem State.clearError_pacc (s : State) : (s.clearError).pacc = s.pacc := rfl
@[simp] theorem State.clearError_paccn (s : State) : (s.clearError).paccn = s.paccn := rfl
@[simp] theorem State.clearError_remain (s : State) : (s.clearError).remain = s.remain := rfl
@[simp] theorem State.clearError_walk (s : State) : (s.clearError).walk = s.walk := rfl
@[simp] theorem State.clearError_dsState (s : State) : (s.clearError).dsState = s.dsState := rfl
@[simp] theorem State.clearError_dsStk (s : State) : (s.clearError).dsStk = s.dsStk := rfl
@[simp] theorem State.clearError_dsCur (s : State) : (s.clearError).dsCur = s.dsCur := rfl
@[simp] theorem State.clearError_err (s : State) : (s.clearError).err = .noError := rfl
@[simp] theorem State.clearError_errop (s : State) : (s.clearError).errop = 0 := rfl
@[simp] theorem State.clearError_outcnt (s : State) : (s.clearError).outcnt = s.outcnt := rfl
@[simp] theorem State.clearError_out (s : State) : (s.clearError).out = s.out := rfl
@[simp] theorem State.clearError_inbox (s : State) : (s.clearError).inbox = s.inbox := rfl
@[simp] theorem State.clearError_reads (s : State) : (s.clearError).reads = s.reads := rfl
@[simp] theorem State.clearError_draws (s : State) : (s.clearError).draws = s.draws := rfl

/-! ## `clearCodes` -/

@[simp] theorem State.clearCodes_freq (s : State) : (s.clearCodes).freq = s.freq := rfl
@[simp] theorem State.clearCodes_nodes (s : State) : (s.clearCodes).nodes = s.nodes := rfl
@[simp] theorem State.clearCodes_root (s : State) : (s.clearCodes).root = s.root := rfl
@[simp] theorem State.clearCodes_tvalid (s : State) : (s.clearCodes).tvalid = s.tvalid := rfl
@[simp] theorem State.clearCodes_torigin (s : State) : (s.clearCodes).torigin = s.torigin := rfl
@[simp] theorem State.clearCodes_heap (s : State) : (s.clearCodes).heap = s.heap := rfl
@[simp] theorem State.clearCodes_code (s : State) : (s.clearCodes).code = Vector.replicate 256 CodeEntry.cleared := rfl
@[simp] theorem State.clearCodes_ctvalid (s : State) : (s.clearCodes).ctvalid = false := rfl
@[simp] theorem State.clearCodes_pacc (s : State) : (s.clearCodes).pacc = s.pacc := rfl
@[simp] theorem State.clearCodes_paccn (s : State) : (s.clearCodes).paccn = s.paccn := rfl
@[simp] theorem State.clearCodes_remain (s : State) : (s.clearCodes).remain = s.remain := rfl
@[simp] theorem State.clearCodes_walk (s : State) : (s.clearCodes).walk = s.walk := rfl
@[simp] theorem State.clearCodes_dsState (s : State) : (s.clearCodes).dsState = s.dsState := rfl
@[simp] theorem State.clearCodes_dsStk (s : State) : (s.clearCodes).dsStk = s.dsStk := rfl
@[simp] theorem State.clearCodes_dsCur (s : State) : (s.clearCodes).dsCur = s.dsCur := rfl
@[simp] theorem State.clearCodes_err (s : State) : (s.clearCodes).err = s.err := rfl
@[simp] theorem State.clearCodes_errop (s : State) : (s.clearCodes).errop = s.errop := rfl
@[simp] theorem State.clearCodes_outcnt (s : State) : (s.clearCodes).outcnt = s.outcnt := rfl
@[simp] theorem State.clearCodes_out (s : State) : (s.clearCodes).out = s.out := rfl
@[simp] theorem State.clearCodes_inbox (s : State) : (s.clearCodes).inbox = s.inbox := rfl
@[simp] theorem State.clearCodes_reads (s : State) : (s.clearCodes).reads = s.reads := rfl
@[simp] theorem State.clearCodes_draws (s : State) : (s.clearCodes).draws = s.draws := rfl

/-! ## `invalidateTree` -/

@[simp] theorem State.invalidateTree_freq (s : State) : (s.invalidateTree).freq = s.freq := rfl
@[simp] theorem State.invalidateTree_nodes (s : State) : (s.invalidateTree).nodes = [] := rfl
@[simp] theorem State.invalidateTree_root (s : State) : (s.invalidateTree).root = 0 := rfl
@[simp] theorem State.invalidateTree_tvalid (s : State) : (s.invalidateTree).tvalid = false := rfl
@[simp] theorem State.invalidateTree_torigin (s : State) : (s.invalidateTree).torigin = .builder := rfl
@[simp] theorem State.invalidateTree_heap (s : State) : (s.invalidateTree).heap = [] := rfl
@[simp] theorem State.invalidateTree_code (s : State) : (s.invalidateTree).code = Vector.replicate 256 CodeEntry.cleared := rfl
@[simp] theorem State.invalidateTree_ctvalid (s : State) : (s.invalidateTree).ctvalid = false := rfl
@[simp] theorem State.invalidateTree_pacc (s : State) : (s.invalidateTree).pacc = s.pacc := rfl
@[simp] theorem State.invalidateTree_paccn (s : State) : (s.invalidateTree).paccn = s.paccn := rfl
@[simp] theorem State.invalidateTree_remain (s : State) : (s.invalidateTree).remain = s.remain := rfl
@[simp] theorem State.invalidateTree_walk (s : State) : (s.invalidateTree).walk = 0 := rfl
@[simp] theorem State.invalidateTree_dsState (s : State) : (s.invalidateTree).dsState = .idle := rfl
@[simp] theorem State.invalidateTree_dsStk (s : State) : (s.invalidateTree).dsStk = [] := rfl
@[simp] theorem State.invalidateTree_dsCur (s : State) : (s.invalidateTree).dsCur = 0 := rfl
@[simp] theorem State.invalidateTree_err (s : State) : (s.invalidateTree).err = s.err := rfl
@[simp] theorem State.invalidateTree_errop (s : State) : (s.invalidateTree).errop = s.errop := rfl
@[simp] theorem State.invalidateTree_outcnt (s : State) : (s.invalidateTree).outcnt = s.outcnt := rfl
@[simp] theorem State.invalidateTree_out (s : State) : (s.invalidateTree).out = s.out := rfl
@[simp] theorem State.invalidateTree_inbox (s : State) : (s.invalidateTree).inbox = s.inbox := rfl
@[simp] theorem State.invalidateTree_reads (s : State) : (s.invalidateTree).reads = s.reads := rfl
@[simp] theorem State.invalidateTree_draws (s : State) : (s.invalidateTree).draws = s.draws := rfl

/-! ## `completeTree` -/

@[simp] theorem State.completeTree_freq (s : State) (r : NodeIdx) (o : Origin) : (s.completeTree r o).freq = s.freq := rfl
@[simp] theorem State.completeTree_nodes (s : State) (r : NodeIdx) (o : Origin) : (s.completeTree r o).nodes = s.nodes := rfl
@[simp] theorem State.completeTree_root (s : State) (r : NodeIdx) (o : Origin) : (s.completeTree r o).root = r := rfl
@[simp] theorem State.completeTree_tvalid (s : State) (r : NodeIdx) (o : Origin) : (s.completeTree r o).tvalid = true := rfl
@[simp] theorem State.completeTree_torigin (s : State) (r : NodeIdx) (o : Origin) : (s.completeTree r o).torigin = o := rfl
@[simp] theorem State.completeTree_heap (s : State) (r : NodeIdx) (o : Origin) : (s.completeTree r o).heap = s.heap := rfl
@[simp] theorem State.completeTree_code (s : State) (r : NodeIdx) (o : Origin) : (s.completeTree r o).code = s.code := rfl
@[simp] theorem State.completeTree_ctvalid (s : State) (r : NodeIdx) (o : Origin) : (s.completeTree r o).ctvalid = s.ctvalid := rfl
@[simp] theorem State.completeTree_pacc (s : State) (r : NodeIdx) (o : Origin) : (s.completeTree r o).pacc = s.pacc := rfl
@[simp] theorem State.completeTree_paccn (s : State) (r : NodeIdx) (o : Origin) : (s.completeTree r o).paccn = s.paccn := rfl
@[simp] theorem State.completeTree_remain (s : State) (r : NodeIdx) (o : Origin) : (s.completeTree r o).remain = s.remain := rfl
@[simp] theorem State.completeTree_walk (s : State) (r : NodeIdx) (o : Origin) : (s.completeTree r o).walk = r := rfl
@[simp] theorem State.completeTree_dsState (s : State) (r : NodeIdx) (o : Origin) : (s.completeTree r o).dsState = s.dsState := rfl
@[simp] theorem State.completeTree_dsStk (s : State) (r : NodeIdx) (o : Origin) : (s.completeTree r o).dsStk = s.dsStk := rfl
@[simp] theorem State.completeTree_dsCur (s : State) (r : NodeIdx) (o : Origin) : (s.completeTree r o).dsCur = s.dsCur := rfl
@[simp] theorem State.completeTree_err (s : State) (r : NodeIdx) (o : Origin) : (s.completeTree r o).err = s.err := rfl
@[simp] theorem State.completeTree_errop (s : State) (r : NodeIdx) (o : Origin) : (s.completeTree r o).errop = s.errop := rfl
@[simp] theorem State.completeTree_outcnt (s : State) (r : NodeIdx) (o : Origin) : (s.completeTree r o).outcnt = s.outcnt := rfl
@[simp] theorem State.completeTree_out (s : State) (r : NodeIdx) (o : Origin) : (s.completeTree r o).out = s.out := rfl
@[simp] theorem State.completeTree_inbox (s : State) (r : NodeIdx) (o : Origin) : (s.completeTree r o).inbox = s.inbox := rfl
@[simp] theorem State.completeTree_reads (s : State) (r : NodeIdx) (o : Origin) : (s.completeTree r o).reads = s.reads := rfl
@[simp] theorem State.completeTree_draws (s : State) (r : NodeIdx) (o : Origin) : (s.completeTree r o).draws = s.draws := rfl

/-! ## `setFreq` -/

@[simp] theorem State.setFreq_freq (s : State) (a : Byte) (v : Word) : (s.setFreq a v).freq = s.freq.set a.toNat v a.isLt := rfl
@[simp] theorem State.setFreq_nodes (s : State) (a : Byte) (v : Word) : (s.setFreq a v).nodes = s.nodes := rfl
@[simp] theorem State.setFreq_root (s : State) (a : Byte) (v : Word) : (s.setFreq a v).root = s.root := rfl
@[simp] theorem State.setFreq_tvalid (s : State) (a : Byte) (v : Word) : (s.setFreq a v).tvalid = s.tvalid := rfl
@[simp] theorem State.setFreq_torigin (s : State) (a : Byte) (v : Word) : (s.setFreq a v).torigin = s.torigin := rfl
@[simp] theorem State.setFreq_heap (s : State) (a : Byte) (v : Word) : (s.setFreq a v).heap = s.heap := rfl
@[simp] theorem State.setFreq_code (s : State) (a : Byte) (v : Word) : (s.setFreq a v).code = s.code := rfl
@[simp] theorem State.setFreq_ctvalid (s : State) (a : Byte) (v : Word) : (s.setFreq a v).ctvalid = s.ctvalid := rfl
@[simp] theorem State.setFreq_pacc (s : State) (a : Byte) (v : Word) : (s.setFreq a v).pacc = s.pacc := rfl
@[simp] theorem State.setFreq_paccn (s : State) (a : Byte) (v : Word) : (s.setFreq a v).paccn = s.paccn := rfl
@[simp] theorem State.setFreq_remain (s : State) (a : Byte) (v : Word) : (s.setFreq a v).remain = s.remain := rfl
@[simp] theorem State.setFreq_walk (s : State) (a : Byte) (v : Word) : (s.setFreq a v).walk = s.walk := rfl
@[simp] theorem State.setFreq_dsState (s : State) (a : Byte) (v : Word) : (s.setFreq a v).dsState = s.dsState := rfl
@[simp] theorem State.setFreq_dsStk (s : State) (a : Byte) (v : Word) : (s.setFreq a v).dsStk = s.dsStk := rfl
@[simp] theorem State.setFreq_dsCur (s : State) (a : Byte) (v : Word) : (s.setFreq a v).dsCur = s.dsCur := rfl
@[simp] theorem State.setFreq_err (s : State) (a : Byte) (v : Word) : (s.setFreq a v).err = s.err := rfl
@[simp] theorem State.setFreq_errop (s : State) (a : Byte) (v : Word) : (s.setFreq a v).errop = s.errop := rfl
@[simp] theorem State.setFreq_outcnt (s : State) (a : Byte) (v : Word) : (s.setFreq a v).outcnt = s.outcnt := rfl
@[simp] theorem State.setFreq_out (s : State) (a : Byte) (v : Word) : (s.setFreq a v).out = s.out := rfl
@[simp] theorem State.setFreq_inbox (s : State) (a : Byte) (v : Word) : (s.setFreq a v).inbox = s.inbox := rfl
@[simp] theorem State.setFreq_reads (s : State) (a : Byte) (v : Word) : (s.setFreq a v).reads = s.reads := rfl
@[simp] theorem State.setFreq_draws (s : State) (a : Byte) (v : Word) : (s.setFreq a v).draws = s.draws := rfl

/-! ## `setCode` -/

@[simp] theorem State.setCode_freq (s : State) (a : Byte) (e : CodeEntry) : (s.setCode a e).freq = s.freq := rfl
@[simp] theorem State.setCode_nodes (s : State) (a : Byte) (e : CodeEntry) : (s.setCode a e).nodes = s.nodes := rfl
@[simp] theorem State.setCode_root (s : State) (a : Byte) (e : CodeEntry) : (s.setCode a e).root = s.root := rfl
@[simp] theorem State.setCode_tvalid (s : State) (a : Byte) (e : CodeEntry) : (s.setCode a e).tvalid = s.tvalid := rfl
@[simp] theorem State.setCode_torigin (s : State) (a : Byte) (e : CodeEntry) : (s.setCode a e).torigin = s.torigin := rfl
@[simp] theorem State.setCode_heap (s : State) (a : Byte) (e : CodeEntry) : (s.setCode a e).heap = s.heap := rfl
@[simp] theorem State.setCode_code (s : State) (a : Byte) (e : CodeEntry) : (s.setCode a e).code = s.code.set a.toNat e a.isLt := rfl
@[simp] theorem State.setCode_ctvalid (s : State) (a : Byte) (e : CodeEntry) : (s.setCode a e).ctvalid = s.ctvalid := rfl
@[simp] theorem State.setCode_pacc (s : State) (a : Byte) (e : CodeEntry) : (s.setCode a e).pacc = s.pacc := rfl
@[simp] theorem State.setCode_paccn (s : State) (a : Byte) (e : CodeEntry) : (s.setCode a e).paccn = s.paccn := rfl
@[simp] theorem State.setCode_remain (s : State) (a : Byte) (e : CodeEntry) : (s.setCode a e).remain = s.remain := rfl
@[simp] theorem State.setCode_walk (s : State) (a : Byte) (e : CodeEntry) : (s.setCode a e).walk = s.walk := rfl
@[simp] theorem State.setCode_dsState (s : State) (a : Byte) (e : CodeEntry) : (s.setCode a e).dsState = s.dsState := rfl
@[simp] theorem State.setCode_dsStk (s : State) (a : Byte) (e : CodeEntry) : (s.setCode a e).dsStk = s.dsStk := rfl
@[simp] theorem State.setCode_dsCur (s : State) (a : Byte) (e : CodeEntry) : (s.setCode a e).dsCur = s.dsCur := rfl
@[simp] theorem State.setCode_err (s : State) (a : Byte) (e : CodeEntry) : (s.setCode a e).err = s.err := rfl
@[simp] theorem State.setCode_errop (s : State) (a : Byte) (e : CodeEntry) : (s.setCode a e).errop = s.errop := rfl
@[simp] theorem State.setCode_outcnt (s : State) (a : Byte) (e : CodeEntry) : (s.setCode a e).outcnt = s.outcnt := rfl
@[simp] theorem State.setCode_out (s : State) (a : Byte) (e : CodeEntry) : (s.setCode a e).out = s.out := rfl
@[simp] theorem State.setCode_inbox (s : State) (a : Byte) (e : CodeEntry) : (s.setCode a e).inbox = s.inbox := rfl
@[simp] theorem State.setCode_reads (s : State) (a : Byte) (e : CodeEntry) : (s.setCode a e).reads = s.reads := rfl
@[simp] theorem State.setCode_draws (s : State) (a : Byte) (e : CodeEntry) : (s.setCode a e).draws = s.draws := rfl

/-! ## `alloc` -/

@[simp] theorem State.alloc_freq (s : State) (n : Node) : (s.alloc n).freq = s.freq := rfl
@[simp] theorem State.alloc_nodes (s : State) (n : Node) : (s.alloc n).nodes = s.nodes ++ [n] := rfl
@[simp] theorem State.alloc_root (s : State) (n : Node) : (s.alloc n).root = s.root := rfl
@[simp] theorem State.alloc_tvalid (s : State) (n : Node) : (s.alloc n).tvalid = s.tvalid := rfl
@[simp] theorem State.alloc_torigin (s : State) (n : Node) : (s.alloc n).torigin = s.torigin := rfl
@[simp] theorem State.alloc_heap (s : State) (n : Node) : (s.alloc n).heap = s.heap := rfl
@[simp] theorem State.alloc_code (s : State) (n : Node) : (s.alloc n).code = s.code := rfl
@[simp] theorem State.alloc_ctvalid (s : State) (n : Node) : (s.alloc n).ctvalid = s.ctvalid := rfl
@[simp] theorem State.alloc_pacc (s : State) (n : Node) : (s.alloc n).pacc = s.pacc := rfl
@[simp] theorem State.alloc_paccn (s : State) (n : Node) : (s.alloc n).paccn = s.paccn := rfl
@[simp] theorem State.alloc_remain (s : State) (n : Node) : (s.alloc n).remain = s.remain := rfl
@[simp] theorem State.alloc_walk (s : State) (n : Node) : (s.alloc n).walk = s.walk := rfl
@[simp] theorem State.alloc_dsState (s : State) (n : Node) : (s.alloc n).dsState = s.dsState := rfl
@[simp] theorem State.alloc_dsStk (s : State) (n : Node) : (s.alloc n).dsStk = s.dsStk := rfl
@[simp] theorem State.alloc_dsCur (s : State) (n : Node) : (s.alloc n).dsCur = s.dsCur := rfl
@[simp] theorem State.alloc_err (s : State) (n : Node) : (s.alloc n).err = s.err := rfl
@[simp] theorem State.alloc_errop (s : State) (n : Node) : (s.alloc n).errop = s.errop := rfl
@[simp] theorem State.alloc_outcnt (s : State) (n : Node) : (s.alloc n).outcnt = s.outcnt := rfl
@[simp] theorem State.alloc_out (s : State) (n : Node) : (s.alloc n).out = s.out := rfl
@[simp] theorem State.alloc_inbox (s : State) (n : Node) : (s.alloc n).inbox = s.inbox := rfl
@[simp] theorem State.alloc_reads (s : State) (n : Node) : (s.alloc n).reads = s.reads := rfl
@[simp] theorem State.alloc_draws (s : State) (n : Node) : (s.alloc n).draws = s.draws := rfl

/-! ## `modifyNode` -/

@[simp] theorem State.modifyNode_freq (s : State) (i : NodeIdx) (f : Node → Node) : (s.modifyNode i f).freq = s.freq := rfl
@[simp] theorem State.modifyNode_nodes (s : State) (i : NodeIdx) (f : Node → Node) : (s.modifyNode i f).nodes = s.nodes.modify i.toNat f := rfl
@[simp] theorem State.modifyNode_root (s : State) (i : NodeIdx) (f : Node → Node) : (s.modifyNode i f).root = s.root := rfl
@[simp] theorem State.modifyNode_tvalid (s : State) (i : NodeIdx) (f : Node → Node) : (s.modifyNode i f).tvalid = s.tvalid := rfl
@[simp] theorem State.modifyNode_torigin (s : State) (i : NodeIdx) (f : Node → Node) : (s.modifyNode i f).torigin = s.torigin := rfl
@[simp] theorem State.modifyNode_heap (s : State) (i : NodeIdx) (f : Node → Node) : (s.modifyNode i f).heap = s.heap := rfl
@[simp] theorem State.modifyNode_code (s : State) (i : NodeIdx) (f : Node → Node) : (s.modifyNode i f).code = s.code := rfl
@[simp] theorem State.modifyNode_ctvalid (s : State) (i : NodeIdx) (f : Node → Node) : (s.modifyNode i f).ctvalid = s.ctvalid := rfl
@[simp] theorem State.modifyNode_pacc (s : State) (i : NodeIdx) (f : Node → Node) : (s.modifyNode i f).pacc = s.pacc := rfl
@[simp] theorem State.modifyNode_paccn (s : State) (i : NodeIdx) (f : Node → Node) : (s.modifyNode i f).paccn = s.paccn := rfl
@[simp] theorem State.modifyNode_remain (s : State) (i : NodeIdx) (f : Node → Node) : (s.modifyNode i f).remain = s.remain := rfl
@[simp] theorem State.modifyNode_walk (s : State) (i : NodeIdx) (f : Node → Node) : (s.modifyNode i f).walk = s.walk := rfl
@[simp] theorem State.modifyNode_dsState (s : State) (i : NodeIdx) (f : Node → Node) : (s.modifyNode i f).dsState = s.dsState := rfl
@[simp] theorem State.modifyNode_dsStk (s : State) (i : NodeIdx) (f : Node → Node) : (s.modifyNode i f).dsStk = s.dsStk := rfl
@[simp] theorem State.modifyNode_dsCur (s : State) (i : NodeIdx) (f : Node → Node) : (s.modifyNode i f).dsCur = s.dsCur := rfl
@[simp] theorem State.modifyNode_err (s : State) (i : NodeIdx) (f : Node → Node) : (s.modifyNode i f).err = s.err := rfl
@[simp] theorem State.modifyNode_errop (s : State) (i : NodeIdx) (f : Node → Node) : (s.modifyNode i f).errop = s.errop := rfl
@[simp] theorem State.modifyNode_outcnt (s : State) (i : NodeIdx) (f : Node → Node) : (s.modifyNode i f).outcnt = s.outcnt := rfl
@[simp] theorem State.modifyNode_out (s : State) (i : NodeIdx) (f : Node → Node) : (s.modifyNode i f).out = s.out := rfl
@[simp] theorem State.modifyNode_inbox (s : State) (i : NodeIdx) (f : Node → Node) : (s.modifyNode i f).inbox = s.inbox := rfl
@[simp] theorem State.modifyNode_reads (s : State) (i : NodeIdx) (f : Node → Node) : (s.modifyNode i f).reads = s.reads := rfl
@[simp] theorem State.modifyNode_draws (s : State) (i : NodeIdx) (f : Node → Node) : (s.modifyNode i f).draws = s.draws := rfl

/-! ## `pushHeap` -/

@[simp] theorem State.pushHeap_freq (s : State) (n : NodeIdx) : (s.pushHeap n).freq = s.freq := rfl
@[simp] theorem State.pushHeap_nodes (s : State) (n : NodeIdx) : (s.pushHeap n).nodes = s.nodes := rfl
@[simp] theorem State.pushHeap_root (s : State) (n : NodeIdx) : (s.pushHeap n).root = s.root := rfl
@[simp] theorem State.pushHeap_tvalid (s : State) (n : NodeIdx) : (s.pushHeap n).tvalid = s.tvalid := rfl
@[simp] theorem State.pushHeap_torigin (s : State) (n : NodeIdx) : (s.pushHeap n).torigin = s.torigin := rfl
@[simp] theorem State.pushHeap_heap (s : State) (n : NodeIdx) : (s.pushHeap n).heap = heapPush s.key s.heap n := rfl
@[simp] theorem State.pushHeap_code (s : State) (n : NodeIdx) : (s.pushHeap n).code = s.code := rfl
@[simp] theorem State.pushHeap_ctvalid (s : State) (n : NodeIdx) : (s.pushHeap n).ctvalid = s.ctvalid := rfl
@[simp] theorem State.pushHeap_pacc (s : State) (n : NodeIdx) : (s.pushHeap n).pacc = s.pacc := rfl
@[simp] theorem State.pushHeap_paccn (s : State) (n : NodeIdx) : (s.pushHeap n).paccn = s.paccn := rfl
@[simp] theorem State.pushHeap_remain (s : State) (n : NodeIdx) : (s.pushHeap n).remain = s.remain := rfl
@[simp] theorem State.pushHeap_walk (s : State) (n : NodeIdx) : (s.pushHeap n).walk = s.walk := rfl
@[simp] theorem State.pushHeap_dsState (s : State) (n : NodeIdx) : (s.pushHeap n).dsState = s.dsState := rfl
@[simp] theorem State.pushHeap_dsStk (s : State) (n : NodeIdx) : (s.pushHeap n).dsStk = s.dsStk := rfl
@[simp] theorem State.pushHeap_dsCur (s : State) (n : NodeIdx) : (s.pushHeap n).dsCur = s.dsCur := rfl
@[simp] theorem State.pushHeap_err (s : State) (n : NodeIdx) : (s.pushHeap n).err = s.err := rfl
@[simp] theorem State.pushHeap_errop (s : State) (n : NodeIdx) : (s.pushHeap n).errop = s.errop := rfl
@[simp] theorem State.pushHeap_outcnt (s : State) (n : NodeIdx) : (s.pushHeap n).outcnt = s.outcnt := rfl
@[simp] theorem State.pushHeap_out (s : State) (n : NodeIdx) : (s.pushHeap n).out = s.out := rfl
@[simp] theorem State.pushHeap_inbox (s : State) (n : NodeIdx) : (s.pushHeap n).inbox = s.inbox := rfl
@[simp] theorem State.pushHeap_reads (s : State) (n : NodeIdx) : (s.pushHeap n).reads = s.reads := rfl
@[simp] theorem State.pushHeap_draws (s : State) (n : NodeIdx) : (s.pushHeap n).draws = s.draws := rfl

/-! ## `take` -/

@[simp] theorem State.take_freq (s : State) (rest : List HostAction) : (s.take rest).freq = s.freq := rfl
@[simp] theorem State.take_nodes (s : State) (rest : List HostAction) : (s.take rest).nodes = s.nodes := rfl
@[simp] theorem State.take_root (s : State) (rest : List HostAction) : (s.take rest).root = s.root := rfl
@[simp] theorem State.take_tvalid (s : State) (rest : List HostAction) : (s.take rest).tvalid = s.tvalid := rfl
@[simp] theorem State.take_torigin (s : State) (rest : List HostAction) : (s.take rest).torigin = s.torigin := rfl
@[simp] theorem State.take_heap (s : State) (rest : List HostAction) : (s.take rest).heap = s.heap := rfl
@[simp] theorem State.take_code (s : State) (rest : List HostAction) : (s.take rest).code = s.code := rfl
@[simp] theorem State.take_ctvalid (s : State) (rest : List HostAction) : (s.take rest).ctvalid = s.ctvalid := rfl
@[simp] theorem State.take_pacc (s : State) (rest : List HostAction) : (s.take rest).pacc = s.pacc := rfl
@[simp] theorem State.take_paccn (s : State) (rest : List HostAction) : (s.take rest).paccn = s.paccn := rfl
@[simp] theorem State.take_remain (s : State) (rest : List HostAction) : (s.take rest).remain = s.remain := rfl
@[simp] theorem State.take_walk (s : State) (rest : List HostAction) : (s.take rest).walk = s.walk := rfl
@[simp] theorem State.take_dsState (s : State) (rest : List HostAction) : (s.take rest).dsState = s.dsState := rfl
@[simp] theorem State.take_dsStk (s : State) (rest : List HostAction) : (s.take rest).dsStk = s.dsStk := rfl
@[simp] theorem State.take_dsCur (s : State) (rest : List HostAction) : (s.take rest).dsCur = s.dsCur := rfl
@[simp] theorem State.take_err (s : State) (rest : List HostAction) : (s.take rest).err = s.err := rfl
@[simp] theorem State.take_errop (s : State) (rest : List HostAction) : (s.take rest).errop = s.errop := rfl
@[simp] theorem State.take_outcnt (s : State) (rest : List HostAction) : (s.take rest).outcnt = s.outcnt := rfl
@[simp] theorem State.take_out (s : State) (rest : List HostAction) : (s.take rest).out = s.out := rfl
@[simp] theorem State.take_inbox (s : State) (rest : List HostAction) : (s.take rest).inbox = rest := rfl
@[simp] theorem State.take_reads (s : State) (rest : List HostAction) : (s.take rest).reads = s.reads := rfl
@[simp] theorem State.take_draws (s : State) (rest : List HostAction) : (s.take rest).draws = s.draws + 1 := rfl

/-! ## `serve` -/

@[simp] theorem State.serve_freq (s : State) (rest : List HostAction) (idx : RegIdx) (v : Word) : (s.serve rest idx v).freq = s.freq := rfl
@[simp] theorem State.serve_nodes (s : State) (rest : List HostAction) (idx : RegIdx) (v : Word) : (s.serve rest idx v).nodes = s.nodes := rfl
@[simp] theorem State.serve_root (s : State) (rest : List HostAction) (idx : RegIdx) (v : Word) : (s.serve rest idx v).root = s.root := rfl
@[simp] theorem State.serve_tvalid (s : State) (rest : List HostAction) (idx : RegIdx) (v : Word) : (s.serve rest idx v).tvalid = s.tvalid := rfl
@[simp] theorem State.serve_torigin (s : State) (rest : List HostAction) (idx : RegIdx) (v : Word) : (s.serve rest idx v).torigin = s.torigin := rfl
@[simp] theorem State.serve_heap (s : State) (rest : List HostAction) (idx : RegIdx) (v : Word) : (s.serve rest idx v).heap = s.heap := rfl
@[simp] theorem State.serve_code (s : State) (rest : List HostAction) (idx : RegIdx) (v : Word) : (s.serve rest idx v).code = s.code := rfl
@[simp] theorem State.serve_ctvalid (s : State) (rest : List HostAction) (idx : RegIdx) (v : Word) : (s.serve rest idx v).ctvalid = s.ctvalid := rfl
@[simp] theorem State.serve_pacc (s : State) (rest : List HostAction) (idx : RegIdx) (v : Word) : (s.serve rest idx v).pacc = s.pacc := rfl
@[simp] theorem State.serve_paccn (s : State) (rest : List HostAction) (idx : RegIdx) (v : Word) : (s.serve rest idx v).paccn = s.paccn := rfl
@[simp] theorem State.serve_remain (s : State) (rest : List HostAction) (idx : RegIdx) (v : Word) : (s.serve rest idx v).remain = s.remain := rfl
@[simp] theorem State.serve_walk (s : State) (rest : List HostAction) (idx : RegIdx) (v : Word) : (s.serve rest idx v).walk = s.walk := rfl
@[simp] theorem State.serve_dsState (s : State) (rest : List HostAction) (idx : RegIdx) (v : Word) : (s.serve rest idx v).dsState = s.dsState := rfl
@[simp] theorem State.serve_dsStk (s : State) (rest : List HostAction) (idx : RegIdx) (v : Word) : (s.serve rest idx v).dsStk = s.dsStk := rfl
@[simp] theorem State.serve_dsCur (s : State) (rest : List HostAction) (idx : RegIdx) (v : Word) : (s.serve rest idx v).dsCur = s.dsCur := rfl
@[simp] theorem State.serve_err (s : State) (rest : List HostAction) (idx : RegIdx) (v : Word) : (s.serve rest idx v).err = s.err := rfl
@[simp] theorem State.serve_errop (s : State) (rest : List HostAction) (idx : RegIdx) (v : Word) : (s.serve rest idx v).errop = s.errop := rfl
@[simp] theorem State.serve_outcnt (s : State) (rest : List HostAction) (idx : RegIdx) (v : Word) : (s.serve rest idx v).outcnt = s.outcnt := rfl
@[simp] theorem State.serve_out (s : State) (rest : List HostAction) (idx : RegIdx) (v : Word) : (s.serve rest idx v).out = s.out := rfl
@[simp] theorem State.serve_inbox (s : State) (rest : List HostAction) (idx : RegIdx) (v : Word) : (s.serve rest idx v).inbox = rest := rfl
@[simp] theorem State.serve_reads (s : State) (rest : List HostAction) (idx : RegIdx) (v : Word) : (s.serve rest idx v).reads = s.reads ++ [(idx, v)] := rfl
@[simp] theorem State.serve_draws (s : State) (rest : List HostAction) (idx : RegIdx) (v : Word) : (s.serve rest idx v).draws = s.draws := rfl

/-! ## `applyReset` -/

@[simp] theorem State.applyReset_freq (s : State) : (s.applyReset).freq = Vector.replicate 256 0 := rfl
@[simp] theorem State.applyReset_nodes (s : State) : (s.applyReset).nodes = [] := rfl
@[simp] theorem State.applyReset_root (s : State) : (s.applyReset).root = 0 := rfl
@[simp] theorem State.applyReset_tvalid (s : State) : (s.applyReset).tvalid = false := rfl
@[simp] theorem State.applyReset_torigin (s : State) : (s.applyReset).torigin = .builder := rfl
@[simp] theorem State.applyReset_heap (s : State) : (s.applyReset).heap = [] := rfl
@[simp] theorem State.applyReset_code (s : State) : (s.applyReset).code = Vector.replicate 256 CodeEntry.cleared := rfl
@[simp] theorem State.applyReset_ctvalid (s : State) : (s.applyReset).ctvalid = false := rfl
@[simp] theorem State.applyReset_pacc (s : State) : (s.applyReset).pacc = 0 := rfl
@[simp] theorem State.applyReset_paccn (s : State) : (s.applyReset).paccn = 0 := rfl
@[simp] theorem State.applyReset_remain (s : State) : (s.applyReset).remain = 0 := rfl
@[simp] theorem State.applyReset_walk (s : State) : (s.applyReset).walk = 0 := rfl
@[simp] theorem State.applyReset_dsState (s : State) : (s.applyReset).dsState = .idle := rfl
@[simp] theorem State.applyReset_dsStk (s : State) : (s.applyReset).dsStk = [] := rfl
@[simp] theorem State.applyReset_dsCur (s : State) : (s.applyReset).dsCur = 0 := rfl
@[simp] theorem State.applyReset_err (s : State) : (s.applyReset).err = .noError := rfl
@[simp] theorem State.applyReset_errop (s : State) : (s.applyReset).errop = 0 := rfl
@[simp] theorem State.applyReset_outcnt (s : State) : (s.applyReset).outcnt = 0 := rfl
@[simp] theorem State.applyReset_out (s : State) : (s.applyReset).out = s.out := rfl
@[simp] theorem State.applyReset_inbox (s : State) : (s.applyReset).inbox = s.inbox := rfl
@[simp] theorem State.applyReset_reads (s : State) : (s.applyReset).reads = s.reads := rfl
@[simp] theorem State.applyReset_draws (s : State) : (s.applyReset).draws = s.draws := rfl

end Sys2Proof.Machine
end

