-- ==== Sys2Proof/Laws/Ops.lean ====
section
/-!
SUPPORT. What each shared operation of Machine/Ops.lean can do: outcomes, the sticky rule, emission, and the tables.
-/

namespace Sys2Proof.Machine

/-! ## Outcomes -/

@[simp] theorem andThen_next (s : State) (f : State → Result) : andThen (.next s) f = f s := rfl
@[simp] theorem andThen_fault (e : Fault) (f : State → Result) : andThen (.fault e) f = .fault e := rfl
@[simp] theorem andThen_refused (e : Refusal) (f : State → Result) : andThen (.refused e) f = .refused e := rfl

/-- A sequence that answers a next state went through one. -/
theorem andThen_eq_next {r : Result} {f : State → Result} {t : State} (h : andThen r f = .next t) :
    ∃ s, r = .next s ∧ f s = .next t := by
  cases r with
  | next s => exact ⟨s, rfl, h⟩
  | fault e => exact nomatch h
  | refused e => exact nomatch h

@[simp] theorem unlessSticky_clear {s : State} (h : s.err = .noError) (r : Result) : unlessSticky s r = r := if_pos h
@[simp] theorem unlessSticky_sticky {s : State} (h : s.err ≠ .noError) (r : Result) : unlessSticky s r = .next s := if_neg h

/-- A command under the sticky rule that answers a next state was ignored, or ran. -/
theorem unlessSticky_eq_next {s t : State} {r : Result} (h : unlessSticky s r = .next t) :
    s.err ≠ .noError ∧ t = s ∨ s.err = .noError ∧ r = .next t := by
  by_cases he : s.err = .noError
  · exact .inr ⟨he, by rwa [unlessSticky_clear he] at h⟩
  · rw [unlessSticky_sticky he] at h
    exact .inl ⟨he, by cases h; rfl⟩

/-! ## Emission -/

@[simp] theorem State.emitAll_nil (s : State) : s.emitAll [] = s := rfl
@[simp] theorem State.emitAll_cons (s : State) (b : Byte) (bs : List Byte) :
    s.emitAll (b :: bs) = (s.emit b).emitAll bs := rfl

/-- Emitting a list of bytes appends them to `OUT` and counts them, and changes nothing else. -/
theorem State.emitAll_eq (s : State) (bs : List Byte) :
    s.emitAll bs = { s with out := s.out ++ bs, outcnt := s.outcnt + BitVec.ofNat 64 bs.length } := by
  induction bs generalizing s with
  | nil => simp
  | cons b bs ih =>
    have hl : s.outcnt + 1 + BitVec.ofNat 64 bs.length = s.outcnt + BitVec.ofNat 64 (bs.length + 1) := by
      rw [BitVec.add_assoc, BitVec.ofNat_add, BitVec.add_comm (BitVec.ofNat 64 bs.length)]
      rfl
    rw [State.emitAll_cons, ih]
    simpa [State.emit] using hl

/-! ## The frequency table and the code table -/

/-- A count read after a count is written. -/
@[simp] theorem State.freqOf_setFreq (s : State) (a b : Byte) (v : Word) :
    (s.setFreq a v).freqOf b = if a = b then v else s.freqOf b := by
  simp only [State.freqOf, State.setFreq, Vector.getElem_set, BitVec.toNat_inj]

/-- A table entry read after a table entry is written. -/
@[simp] theorem State.codeOf_setCode (s : State) (a b : Byte) (e : CodeEntry) :
    (s.setCode a e).codeOf b = if a = b then e else s.codeOf b := by
  simp only [State.codeOf, State.setCode, Vector.getElem_set, BitVec.toNat_inj]

/-- A cleared table gives no symbol a code. -/
@[simp] theorem State.codeOf_clearCodes (s : State) (a : Byte) : s.clearCodes.codeOf a = CodeEntry.cleared := by
  simp [State.codeOf]

/-- A count depends on the frequency table alone. -/
theorem State.freqOf_congr {s t : State} (h : t.freq = s.freq) (a : Byte) : t.freqOf a = s.freqOf a := by
  simp only [State.freqOf, h]

/-- A table entry depends on the code table alone. -/
theorem State.codeOf_congr {s t : State} (h : t.code = s.code) (a : Byte) : t.codeOf a = s.codeOf a := by
  simp only [State.codeOf, h]

/-- Two states with the same counts have the same frequency table. -/
theorem freq_ext {s t : State} (h : ∀ a, t.freqOf a = s.freqOf a) : t.freq = s.freq := by
  apply Vector.ext
  intro i hi
  simpa [State.freqOf, Nat.mod_eq_of_lt hi] using h (BitVec.ofNat 8 i)

/-- Two states with the same entries have the same code table. -/
theorem code_ext {s t : State} (h : ∀ a, t.codeOf a = s.codeOf a) : t.code = s.code := by
  apply Vector.ext
  intro i hi
  simpa [State.codeOf, Nat.mod_eq_of_lt hi] using h (BitVec.ofNat 8 i)

/-- Every symbol is in the list of symbols. -/
@[simp] theorem mem_allSymbols (a : Byte) : a ∈ allSymbols := by
  simp only [allSymbols, List.mem_map, List.mem_range]
  exact ⟨a.toNat, a.isLt, by simp⟩

@[simp] theorem length_allSymbols : allSymbols.length = 256 := by simp [allSymbols, nsym]

/-- The symbols are listed in ascending order, so each once. -/
theorem allSymbols_sorted : allSymbols.Pairwise (· < ·) := by
  rw [allSymbols, List.pairwise_map]
  refine List.Pairwise.imp_of_mem ?_ List.pairwise_lt_range
  intro i j hi hj hij
  simp only [List.mem_range, nsym] at hi hj
  simp only [BitVec.lt_def, BitVec.toNat_ofNat]
  omega

/-! ## Arena entries -/

/-- A live entry is what the arena holds. -/
theorem State.node_of_getElem? {s : State} {i : NodeIdx} {n : Node} (h : s.nodes[i.toNat]? = some n) : s.node i = n := by
  simp [State.node, h]

/-- An index below `NCOUNT` names a live entry. -/
theorem State.getElem?_of_live {s : State} {i : NodeIdx} (h : i.toNat < s.ncount) : s.nodes[i.toNat]? = some (s.node i) := by
  have h' : i.toNat < s.nodes.length := h
  simp [State.node, List.getElem?_eq_getElem h']

/-- Below 512 entries, the next allocation's index is `NCOUNT` itself. -/
theorem State.nextIdx_toNat {s : State} (h : s.ncount < 512) : s.nextIdx.toNat = s.ncount := by
  simp [State.nextIdx, Nat.mod_eq_of_lt h]

end Sys2Proof.Machine
end

