-- ==== Sys2Proof/Laws/Shape.lean ====
section
/-!
SUPPORT. Shapes of trees: their sizes, what keeps them in the arena, and what the two recursive walks of the spec
(`Codes`, R170; `Ser`, R210) answer on them.
-/

namespace Sys2Proof.Machine

@[simp] theorem Shape.top_hole : Shape.hole.top = 0 := rfl
@[simp] theorem Shape.top_leaf (i : NodeIdx) : (Shape.leaf i).top = i := rfl
@[simp] theorem Shape.top_node (i : NodeIdx) (l r : Shape) : (Shape.node i l r).top = i := rfl

/-! ## Sizes -/

/-- A full binary tree with `k` leaves has `2k − 1` nodes (R8, R210). -/
theorem Shape.length_indices {t : Shape} (h : t.complete = true) : t.indices.length + 1 = 2 * t.leaves.length := by
  induction t with
  | hole => exact nomatch h
  | leaf i => rfl
  | node i l r ihl ihr =>
    simp only [Shape.complete, Bool.and_eq_true] at h
    have := ihl h.1
    have := ihr h.2
    simp only [Shape.indices, Shape.leaves, List.length_cons, List.length_append]
    omega

/-- A full binary tree of height `d` has at least `2d + 1` nodes (R172). -/
theorem Shape.height_le {t : Shape} (h : t.complete = true) : 2 * t.height + 1 ≤ t.indices.length := by
  induction t with
  | hole => exact nomatch h
  | leaf i => simp [Shape.height, Shape.indices]
  | node i l r ihl ihr =>
    simp only [Shape.complete, Bool.and_eq_true] at h
    have := ihl h.1
    have := ihr h.2
    simp only [Shape.height, Shape.indices, List.length_cons, List.length_append]
    omega

/-- The root of a full binary tree is its first index. -/
theorem Shape.top_mem {t : Shape} (h : t.complete = true) : t.top ∈ t.indices := by
  cases t with
  | hole => exact nomatch h
  | leaf i => simp [Shape.top, Shape.indices]
  | node i l r => simp [Shape.top, Shape.indices]

/-- Every leaf is an index of the shape. -/
theorem Shape.leaves_subset (t : Shape) : t.leaves ⊆ t.indices := by
  induction t with
  | hole => exact List.Subset.refl _
  | leaf i => exact List.Subset.refl _
  | node i l r ihl ihr =>
    intro x hx
    simp only [Shape.leaves, Shape.indices, List.mem_append, List.mem_cons] at hx ⊢
    exact .inr (hx.imp (fun h => ihl h) fun h => ihr h)

theorem Shape.complete_ne_hole {t : Shape} (h : t.complete = true) : t ≠ .hole := by
  rintro rfl
  exact nomatch h

/-- The paths of a shape are those of its leaves. -/
theorem Shape.paths_fst (t : Shape) (p : Bits) : (t.paths p).map Prod.fst = t.leaves := by
  induction t generalizing p with
  | hole => rfl
  | leaf i => rfl
  | node i l r ihl ihr => simp [Shape.paths, Shape.leaves, ihl, ihr]

/-- Paths below a path are that path followed by the paths from the root. -/
theorem Shape.paths_eq (t : Shape) (p : Bits) : t.paths p = (t.paths []).map fun e => (e.1, p ++ e.2) := by
  induction t generalizing p with
  | hole => rfl
  | leaf i => simp [Shape.paths]
  | node i l r ihl ihr =>
    simp only [Shape.paths, List.nil_append, List.map_append]
    rw [ihl (p ++ [false]), ihr (p ++ [true]), ihl [false], ihr [true]]
    simp [Function.comp_def]

/-! ## Being in the arena -/

/-- Every index of a shape in the arena is a live entry. -/
theorem Shape.InArena.live {nodes : List Node} {t : Shape} (h : t.InArena nodes) :
    ∀ i ∈ t.indices, i.toNat < nodes.length := by
  induction t with
  | hole => simp [Shape.indices]
  | leaf i =>
    obtain ⟨n, hn, -⟩ := h
    simpa [Shape.indices] using (List.getElem?_eq_some_iff.mp hn).1
  | node i l r ihl ihr =>
    obtain ⟨⟨n, hn, -⟩, hl, hr⟩ := h
    intro x hx
    simp only [Shape.indices, List.mem_cons, List.mem_append] at hx
    rcases hx with rfl | hx | hx
    · exact (List.getElem?_eq_some_iff.mp hn).1
    · exact ihl hl x hx
    · exact ihr hr x hx

/-- A shape stays in the arena when the entries it names keep their kind and children. -/
theorem Shape.InArena.mono {nodes nodes' : List Node} {t : Shape} (h : t.InArena nodes)
    (keep : ∀ i ∈ t.indices, ∀ n, nodes[i.toNat]? = some n →
      ∃ n', nodes'[i.toNat]? = some n' ∧ n'.kind = n.kind ∧ n'.l = n.l ∧ n'.r = n.r) : t.InArena nodes' := by
  induction t with
  | hole => trivial
  | leaf i =>
    obtain ⟨n, hn, hk⟩ := h
    obtain ⟨n', hn', hk', -⟩ := keep i (by simp [Shape.indices]) n hn
    exact ⟨n', hn', hk'.trans hk⟩
  | node i l r ihl ihr =>
    obtain ⟨⟨n, hn, hk, hl, hr⟩, hal, har⟩ := h
    obtain ⟨n', hn', hk', hl', hr'⟩ := keep i (by simp [Shape.indices]) n hn
    refine ⟨⟨n', hn', hk'.trans hk, fun e => hl'.trans (hl e), fun e => hr'.trans (hr e)⟩, ihl hal ?_, ihr har ?_⟩
    · exact fun x hx => keep x (by simp [Shape.indices, hx])
    · exact fun x hx => keep x (by simp [Shape.indices, hx])

/-- Allocation keeps every shape in the arena. -/
theorem Shape.InArena.append {nodes : List Node} {t : Shape} (h : t.InArena nodes) (x : Node) :
    t.InArena (nodes ++ [x]) :=
  h.mono fun _ _ n hn => ⟨n, by rw [List.getElem?_append_left (List.getElem?_eq_some_iff.mp hn).1, hn], rfl, rfl, rfl⟩

/-! ## The walks of the spec -/

/-- `Codes(n, p)` of R170 on a tree of the arena answers its leaves' symbols with their paths, when the fuel covers the
height. -/
theorem codesFrom_eq {s : State} {t : Shape} (hc : t.complete = true) (ha : t.InArena s.nodes) {fuel : Nat}
    (hf : t.height ≤ fuel) (p : Bits) :
    codesFrom s.node fuel t.top p = some ((t.paths p).map fun e => ((s.node e.1).sym, e.2)) := by
  induction t generalizing fuel p with
  | hole => exact nomatch hc
  | leaf i =>
    obtain ⟨n, hn, hk⟩ := ha
    have hnode := State.node_of_getElem? hn
    cases fuel <;> simp [codesFrom, Shape.top, Shape.paths, hnode, hk]
  | node i l r ihl ihr =>
    simp only [Shape.complete, Bool.and_eq_true] at hc
    obtain ⟨⟨n, hn, hk, hl, hr⟩, hal, har⟩ := ha
    have hnode := State.node_of_getElem? hn
    cases fuel with
    | zero => simp [Shape.height] at hf
    | succ fuel =>
      simp only [Shape.height, Nat.add_le_add_iff_right, Nat.max_le] at hf
      have el := ihl hc.1 hal hf.1 (p ++ [false])
      have er := ihr hc.2 har hf.2 (p ++ [true])
      simp only [codesFrom, Shape.top_node, hnode, hk, hl (Shape.complete_ne_hole hc.1), hr (Shape.complete_ne_hole hc.2), el, er]
      simp [Shape.paths]

/-- `Ser(n)` of R210 on a tree of the arena answers its bytes, when the fuel covers the height. -/
theorem serFrom_eq {s : State} {t : Shape} (hc : t.complete = true) (ha : t.InArena s.nodes) {fuel : Nat}
    (hf : t.height ≤ fuel) : serFrom s.node fuel t.top = some (t.bytes fun i => (s.node i).sym) := by
  induction t generalizing fuel with
  | hole => exact nomatch hc
  | leaf i =>
    obtain ⟨n, hn, hk⟩ := ha
    have hnode := State.node_of_getElem? hn
    cases fuel <;> simp [serFrom, Shape.top, Shape.bytes, hnode, hk]
  | node i l r ihl ihr =>
    simp only [Shape.complete, Bool.and_eq_true] at hc
    obtain ⟨⟨n, hn, hk, hl, hr⟩, hal, har⟩ := ha
    have hnode := State.node_of_getElem? hn
    cases fuel with
    | zero => simp [Shape.height] at hf
    | succ fuel =>
      simp only [Shape.height, Nat.add_le_add_iff_right, Nat.max_le] at hf
      have el := ihl hc.1 hal hf.1
      have er := ihr hc.2 har hf.2
      simp only [serFrom, Shape.top_node, hnode, hk, hl (Shape.complete_ne_hole hc.1), hr (Shape.complete_ne_hole hc.2), el, er]
      simp [Shape.bytes]

/-! ## The present tree -/

/-- A covering list of indices has `NCOUNT` entries, each once. -/
theorem CoversArena.length {s : State} {is : List NodeIdx} (h : CoversArena s is) : is.length = s.ncount := by
  simpa using List.Perm.length_eq h

theorem CoversArena.nodup {s : State} {is : List NodeIdx} (h : CoversArena s is) : is.Nodup :=
  List.Nodup.of_map _ ((List.Perm.nodup_iff h).mpr List.nodup_range)

/-- A covering list holds exactly the live indices. -/
theorem CoversArena.mem_iff {s : State} {is : List NodeIdx} (h : CoversArena s is) (i : NodeIdx) :
    i ∈ is ↔ i.toNat < s.ncount := by
  have := List.Perm.mem_iff h (a := i.toNat)
  rw [List.mem_range, List.mem_map] at this
  rw [← this]
  constructor
  · exact fun hi => ⟨i, hi, rfl⟩
  · rintro ⟨j, hj, e⟩
    rwa [← BitVec.eq_of_toNat_eq e]

/-- A tree of an arena within its capacity is at most 255 edges deep (R172). -/
theorem TreeIs.height_le {s : State} {t : Shape} (h : TreeIs s t) (hn : s.ncount ≤ nodeCap) : t.height ≤ maxLen := by
  have h1 := Shape.height_le h.1
  have h2 := h.2.2.2.length
  simp only [nodeCap, maxLen] at *
  omega

/-- The codes of the present tree. -/
theorem TreeIs.codes {s : State} {t : Shape} (h : TreeIs s t) (hn : s.ncount ≤ nodeCap) :
    s.codes = some ((t.paths []).map fun e => ((s.node e.1).sym, e.2)) := by
  rw [State.codes, ← h.2.2.1]
  exact codesFrom_eq h.1 h.2.1 (h.height_le hn) []

/-- The bytes of the present tree. -/
theorem TreeIs.serialized {s : State} {t : Shape} (h : TreeIs s t) (hn : s.ncount ≤ nodeCap) :
    s.serialized = some (t.bytes fun i => (s.node i).sym) := by
  rw [State.serialized, ← h.2.2.1]
  exact serFrom_eq h.1 h.2.1 (h.height_le hn)

end Sys2Proof.Machine
end

