-- ==== Sys2Proof/Laws/Codes.lean ====
section
/-!
SUPPORT. Bit sequences and their values (R12), the entry that records a path (R37, R170), and the paths of a shape.
-/

namespace Sys2Proof.Machine

/-- A bit sequence of length `d` stands for a number below `2^d` (R12). -/
theorem bitsValue_lt (p : Bits) : bitsValue p < 2^p.length := by
  induction p with
  | nil => simp [bitsValue]
  | cons c p ih => cases c <;> simp [bitsValue, Nat.pow_succ] <;> omega

/-- A path is no longer than the height. -/
theorem Shape.paths_length (t : Shape) (p : Bits) : ∀ e ∈ t.paths p, e.2.length ≤ p.length + t.height := by
  induction t generalizing p with
  | hole => simp [Shape.paths]
  | leaf i => simp [Shape.paths]
  | node i l r ihl ihr =>
    intro e he
    simp only [Shape.paths, List.mem_append] at he
    rcases he with he | he
    · have := ihl _ e he; simp [Shape.height] at this ⊢; omega
    · have := ihr _ e he; simp [Shape.height] at this ⊢; omega

/-- Recording codes writes the code table alone (R170). -/
theorem foldl_record_spec (c : List (Byte × Bits)) (s : State) : c.foldl State.recordCode s =
    { s with code := (c.foldl State.recordCode s).code } := by
  induction c generalizing s with
  | nil => rfl
  | cons a c ih =>
    simp only [List.foldl_cons]
    have := ih (s.recordCode a)
    generalize List.foldl State.recordCode (s.recordCode a) c = u at *
    rw [this]; rfl

/-- An entry after recording is as before, or a recorded path. -/
theorem foldl_record_entries (c : List (Byte × Bits)) (s : State)  (a : Byte) :
   (c.foldl State.recordCode s).codeOf a = s.codeOf a ∨ ∃ p, (a, p) ∈ c ∧
       (c.foldl State.recordCode s).codeOf a = CodeEntry.ofPath p := by
  induction c generalizing s with
  | nil => exact .inl rfl
  | cons e c ih =>
    simp only [List.foldl_cons]
    rcases ih (s.recordCode e) with h | ⟨p, h1, h2⟩
    · rw [h]
      simp only [State.recordCode, State.codeOf_setCode]
      split
      · next hh => subst hh; exact .inr ⟨e.2, List.mem_cons_self, rfl⟩
      · exact .inl rfl
    · exact .inr ⟨p, List.mem_cons_of_mem _ h1, h2⟩

/-- Reading the bits of `BitsValue(p)`, highest first, gives `p` back (R12). -/
theorem testBits_bitsValue (p : Bits) : (List.range p.length).reverse.map (fun i => (bitsValue p).testBit i) = p := by
  induction p with
  | nil => rfl
  | cons c p ih =>
    have hlt := bitsValue_lt p
    rw [List.length_cons, List.range_succ, List.reverse_append, List.reverse_singleton, List.singleton_append,
        List.map_cons]
    have e : bitsValue (c :: p) = 2^p.length * c.toNat + bitsValue p := by simp [bitsValue, Nat.mul_comm]
    rw [e]
    congr 1
    · rw [Nat.testBit_two_pow_mul_add _ hlt]; cases c <;> simp
    · conv => rhs; rw [← ih]
      apply List.map_congr_left
      intro i hi
      simp at hi
      rw [Nat.testBit_two_pow_mul_add _ hlt, if_pos hi]

/-- The bits of the entry that records a path are the path (R37, R170). -/
theorem ofPath_bits {p : Bits} (h : p.length ≤ 255) : (CodeEntry.ofPath p).bits = p := by
  unfold CodeEntry.bits CodeEntry.ofPath
  simp only [BitVec.toNat_ofNat]
  rw [Nat.mod_eq_of_lt (show p.length < 2^8 by omega)]
  conv => rhs; rw [← testBits_bitsValue p]
  apply List.map_congr_left
  intro i hi
  simp at hi
  rw [BitVec.getLsbD, BitVec.toNat_ofNat, Nat.mod_eq_of_lt]
  exact lt_of_lt_of_le (bitsValue_lt p) (Nat.pow_le_pow_right (by decide) h)

/-- With distinct symbols, each symbol's entry is its path. -/
theorem foldl_record_mem (c : List (Byte × Bits)) (s : State) (hnd : (c.map Prod.fst).Nodup) {a p} (h : (a, p) ∈ c) :
    (c.foldl State.recordCode s).codeOf a = CodeEntry.ofPath p := by
  induction c generalizing s with
  | nil => cases h
  | cons e c ih =>
    rw [List.map_cons, List.nodup_cons] at hnd
    rcases List.mem_cons.mp h with h | h
    · subst h
      rcases foldl_record_entries c (s.recordCode (a, p)) a with h1 | ⟨q, h1, h2⟩
      · rw [List.foldl_cons, h1]; simp [State.recordCode]
      · exact absurd (List.mem_map_of_mem h1) hnd.1
    · exact ih _ hnd.2 h

/-- The paths of a node: those of its children, one bit longer. -/
theorem Shape.paths_node (i l r) : (Shape.node i l r).paths [] = (l.paths []).map (fun e => (e.1, false :: e.2)) ++
    (r.paths []).map (fun e => (e.1, true :: e.2)) := by
  show l.paths [false] ++ r.paths [true] = _
  rw [Shape.paths_eq l, Shape.paths_eq r]; rfl

/-- No path of a leaf is a prefix of another leaf's (R171). -/
theorem Shape.paths_prefix (t : Shape) : ∀ e ∈ t.paths [], ∀ e' ∈ t.paths [], e.2 <+: e'.2 → e = e' := by
  induction t with
  | hole => simp [Shape.paths]
  | leaf i => simp [Shape.paths]
  | node i l r ihl ihr =>
    rw [Shape.paths_node]
    intro e he e' he' hp
    simp only [List.mem_append, List.mem_map] at he he'
    rcases he with ⟨x, hx, rfl⟩ | ⟨x, hx, rfl⟩ <;> rcases he' with ⟨y, hy, rfl⟩ | ⟨y, hy,
        rfl⟩ <;> simp only [List.cons_prefix_cons, true_and] at hp
    · rw [ihl x hx y hy hp]
    · simp at hp
    · simp at hp
    · rw [ihr x hx y hy hp]

end Sys2Proof.Machine
end

