-- ==== Sys2Proof/Laws/Parse.lean ====
section
/-!
SUPPORT. Shapes under construction: their frames, and filling the next hole (R41, R213).
-/

namespace Sys2Proof.Machine

/-- The frames of a node, by which child is still missing. -/
theorem Shape.frames_node (i : NodeIdx) (l r : Shape) :
    (Shape.node i l r).frames = if l = .hole then [⟨i, .left⟩] else if r = .hole then l.frames ++ [⟨i,
        .right⟩] else l.frames ++ r.frames := by
  cases l <;> cases r <;> simp [Shape.frames]

/-- A complete tree awaits nothing. -/
theorem Shape.frames_complete {t : Shape} (h : t.complete = true) : t.frames = [] := by
  induction t with
  | hole => rfl
  | leaf i => rfl
  | node i l r ihl ihr =>
    simp only [Shape.complete, Bool.and_eq_true] at h
    rw [Shape.frames_node, if_neg (Shape.complete_ne_hole h.1), if_neg (Shape.complete_ne_hole h.2), ihl h.1,
        ihr h.2]; rfl

/-- A tree begun that awaits nothing is complete. -/
theorem Shape.complete_of_frames {t : Shape} (hf : t.leftFilled) (hne : t ≠ .hole) (h : t.frames = []) :
    t.complete = true := by
  induction t with
  | hole => exact absurd rfl hne
  | leaf i => rfl
  | node i l r ihl ihr =>
    obtain ⟨h1, h2, h3⟩ := hf
    rw [Shape.frames_node] at h
    split at h
    · cases h
    · next hl =>
      split at h
      · simp at h
      · next hr =>
        simp at h
        simp [Shape.complete, ihl h2 hl h.1, ihr h3 hr h.2]

/-- Put a shape in the next hole, in pre-order. -/
def Shape.fill : Shape → Shape → Shape
  | .hole, x => x
  | .leaf i, _ => .leaf i
  | .node i l r, x => if l.complete then .node i l (r.fill x) else .node i (l.fill x) r

/-- Filling keeps the root. -/
theorem Shape.fill_top {x t : Shape} (h : t ≠ .hole) : (t.fill x).top = t.top := by
  cases t with
  | hole => exact absurd rfl h
  | leaf i => rfl
  | node i l r => simp only [Shape.fill]; split <;> rfl

/-- A filled shape is no hole. -/
theorem Shape.fill_ne_hole {x t : Shape} (hx : x ≠ .hole) : t.fill x ≠ .hole := by
  cases t with
  | hole => exact hx
  | leaf i => simp [Shape.fill]
  | node i l r => simp only [Shape.fill]; split <;> simp

/-- While the left subtree is incomplete the right one is not begun. -/
theorem Shape.right_hole {i l r} (h : (Shape.node i l r).leftFilled) (hl : l.complete = false) : r = .hole := by
  by_contra hr
  have := h.1 hr; rw [hl] at this; cases this

/-- Filling keeps the order of filling. -/
theorem Shape.fill_leftFilled {x t : Shape} (hx : x.leftFilled) (h : t.leftFilled) : (t.fill x).leftFilled := by
  induction t with
  | hole => exact hx
  | leaf i => trivial
  | node i l r ihl ihr =>
    simp only [Shape.fill]
    split
    · next hc => exact ⟨fun _ => hc, h.2.1, ihr h.2.2⟩
    · next hc =>
      have := Shape.right_hole h (by simpa using hc)
      subst this
      exact ⟨fun e => absurd rfl e, ihl h.2.1, trivial⟩

/-- The filled part comes last in pre-order. -/
theorem Shape.fill_indices {x t : Shape} (h : t.leftFilled) (hc : t.complete = false) :
    (t.fill x).indices = t.indices ++ x.indices := by
  induction t with
  | hole => rfl
  | leaf i => cases hc
  | node i l r ihl ihr =>
    simp only [Shape.fill]
    split
    · next hl =>
      have hr : r.complete = false := by simpa [Shape.complete, hl] using hc
      simp [Shape.indices, ihr h.2.2 hr]
    · next hl =>
      have hl : l.complete = false := by simpa using hl
      have := Shape.right_hole h hl
      subst this
      simp [Shape.indices, ihl h.2.1 hl]

/-- What attaching a node does to the stack (R213). -/
def afterAttach : List Frame → List Frame
  | [] => []
  | ⟨p, .left⟩ :: rest => ⟨p, .right⟩ :: rest
  | ⟨_, .right⟩ :: rest => rest

/-- Attaching touches the top frame alone. -/
theorem afterAttach_append {a b : List Frame} (h : a ≠ []) : afterAttach (a ++ b) = afterAttach a ++ b := by
  match a, h with
  | ⟨p, .left⟩ :: r, _ => rfl
  | ⟨p, .right⟩ :: r, _ => rfl

/-- The frames after the next hole is filled: those of the part, on what attaching leaves (R213). -/
theorem Shape.fill_frames {x t : Shape} (hx : x ≠ .hole) (h : t.leftFilled) (hc : t.complete = false) :
    (t.fill x).frames = x.frames ++ afterAttach t.frames := by
  induction t with
  | hole => simp [Shape.fill, Shape.frames, afterAttach]
  | leaf i => cases hc
  | node i l r ihl ihr =>
    simp only [Shape.fill]
    split
    · next hl =>
      have hr : r.complete = false := by simpa [Shape.complete, hl] using hc
      rw [Shape.frames_node, if_neg (Shape.complete_ne_hole hl), if_neg (Shape.fill_ne_hole hx), ihr h.2.2 hr,
          Shape.frames_complete hl, Shape.frames_node, if_neg (Shape.complete_ne_hole hl), Shape.frames_complete hl]
      by_cases hrh : r = .hole
      · subst hrh; simp [Shape.frames, afterAttach]
      · rw [if_neg hrh]; simp
    · next hl =>
      have hl : l.complete = false := by simpa using hl
      have := Shape.right_hole h hl
      subst this
      rw [Shape.frames_node, if_neg (Shape.fill_ne_hole hx), if_pos rfl, ihl h.2.1 hl, Shape.frames_node]
      by_cases hlh : l = .hole
      · subst hlh; simp [Shape.frames, afterAttach]
      · rw [if_neg hlh, if_pos rfl]
        have hne : l.frames ≠ [] := fun e => by
          have := Shape.complete_of_frames h.2.1 hlh e; rw [hl] at this; cases this
        rw [afterAttach_append hne, List.append_assoc]

/-- A frame names an internal node of the shape (R51 (f)). -/
theorem Shape.frames_mem {nodes : List Node} {t : Shape} (ha : t.InArena nodes) : ∀ f ∈ t.frames, f.node ∈ t.indices
    ∧ ∃ n, nodes[f.node.toNat]? = some n ∧ n.kind = .internal := by
  induction t with
  | hole => simp [Shape.frames]
  | leaf i => simp [Shape.frames]
  | node i l r ihl ihr =>
    obtain ⟨⟨n, hn, hk, -⟩, hal, har⟩ := ha
    intro f hf
    rw [Shape.frames_node] at hf
    simp only [Shape.indices, List.mem_cons, List.mem_append]
    have key1 : f ∈ l.frames → (f.node = i ∨ f.node ∈ l.indices ∨ f.node ∈ r.indices) ∧ ∃ n,
        nodes[f.node.toNat]? = some n ∧ n.kind = .internal := fun hh => ⟨.inr (.inl (ihl hal f hh).1),
            (ihl hal f hh).2⟩
    have key2 : f ∈ r.frames → (f.node = i ∨ f.node ∈ l.indices ∨ f.node ∈ r.indices) ∧ ∃ n,
        nodes[f.node.toNat]? = some n ∧ n.kind = .internal := fun hh => ⟨.inr (.inr (ihr har f hh).1),
            (ihr har f hh).2⟩
    split at hf
    · simp at hf; subst hf; exact ⟨.inl rfl, n, hn, hk⟩
    · split at hf
      · simp at hf
        rcases hf with hf | hf
        · exact key1 hf
        · subst hf; exact ⟨.inl rfl, n, hn, hk⟩
      · simp at hf
        rcases hf with hf | hf
        · exact key1 hf
        · exact key2 hf

/-- A frame names a node of the shape. -/
theorem Shape.frames_sub (t : Shape) : ∀ f ∈ t.frames, f.node ∈ t.indices := by
  induction t with
  | hole => simp [Shape.frames]
  | leaf i => simp [Shape.frames]
  | node i l r ihl ihr =>
    intro f hf
    rw [Shape.frames_node] at hf
    simp only [Shape.indices, List.mem_cons, List.mem_append]
    split at hf
    · simp at hf; subst hf; exact .inl rfl
    · split at hf
      · simp at hf
        rcases hf with hf | hf
        · exact .inr (.inl (ihl _ hf))
        · subst hf; exact .inl rfl
      · simp at hf
        rcases hf with hf | hf
        · exact .inr (.inl (ihl _ hf))
        · exact .inr (.inr (ihr _ hf))

/-- There are no more frames than nodes (R214). -/
theorem Shape.frames_length (t : Shape) : t.frames.length ≤ t.indices.length := by
  induction t with
  | hole => simp [Shape.frames]
  | leaf i => simp [Shape.frames]
  | node i l r ihl ihr =>
    rw [Shape.frames_node]
    simp only [Shape.indices, List.length_cons, List.length_append]
    split
    · simp
    · split <;> simp <;> omega

/-- Filling the next hole, where the arena's parent entry takes the part's root as the child it awaited and no other
    entry changes. -/
theorem Shape.fill_inArena {nodes nodes' : List Node} {x t : Shape} (hxa : x.InArena nodes')
    (h : t.leftFilled) (hc : t.complete = false) (hnd : t.indices.Nodup) (ha : t.InArena nodes)
    (hkeep : ∀ i ∈ t.indices, (∀ f ∈ t.frames.head?, f.node ≠ i) → ∀ n, nodes[i.toNat]? = some n → ∃ n',
        nodes'[i.toNat]? = some n' ∧ n'.kind = n.kind ∧ n'.l = n.l ∧ n'.r = n.r)
    (hl : ∀ p, t.frames.head? = some ⟨p, .left⟩ → ∀ n, nodes[p.toNat]? = some n → ∃ n', nodes'[p.toNat]? = some n'
        ∧ n'.kind = n.kind ∧ n'.l = x.top ∧ n'.r = n.r)
    (hr : ∀ p, t.frames.head? = some ⟨p, .right⟩ → ∀ n, nodes[p.toNat]? = some n → ∃ n', nodes'[p.toNat]? = some n'
        ∧ n'.kind = n.kind ∧ n'.l = n.l ∧ n'.r = x.top) :
    (t.fill x).InArena nodes' := by
  induction t with
  | hole => exact hxa
  | leaf i => cases hc
  | node i l r ihl ihr =>
    obtain ⟨⟨n, hn, hk, hnl, hnr⟩, hal, har⟩ := ha
    simp only [Shape.indices, List.nodup_cons, List.mem_append, not_or, List.nodup_append] at hnd
    obtain ⟨⟨hil, hir⟩, hndl, hndr, hdis⟩ := hnd
    simp only [Shape.fill]
    split
    · next hlc =>
      have hrc : r.complete = false := by simpa [Shape.complete, hlc] using hc
      have hlne := Shape.complete_ne_hole hlc
      by_cases hrh : r = .hole
      · subst hrh
        have hhead : (Shape.node i l .hole).frames.head? = some ⟨i, .right⟩ := by
          rw [Shape.frames_node, if_neg hlne, if_pos rfl, Shape.frames_complete hlc]; rfl
        obtain ⟨n', h1, h2, h3, h4⟩ := hr i hhead n hn
        refine ⟨⟨n', h1, h2.trans hk, fun e => h3.trans (hnl e), fun _ => h4⟩, ?_, hxa⟩
        apply hal.mono
        intro j hj m hm
        refine hkeep j (by simp [Shape.indices, hj]) ?_ m hm
        rw [hhead]; intro f hf; cases hf; intro e; subst e; exact hil hj
      · have hhead : (Shape.node i l r).frames.head? = r.frames.head? := by
          rw [Shape.frames_node, if_neg hlne, if_neg hrh, Shape.frames_complete hlc]; rfl
        have hfr : ∀ f ∈ r.frames.head?, f.node ∈ r.indices := fun f hf => Shape.frames_sub r f
            (List.mem_of_mem_head? hf)
        have hi' : ∀ f ∈ (Shape.node i l r).frames.head?, f.node ≠ i := by
          rw [hhead]; intro f hf e; exact hir (e ▸ hfr f hf)
        obtain ⟨n', h1, h2, h3, h4⟩ := hkeep i (by simp [Shape.indices]) hi' n hn
        refine ⟨⟨n', h1, h2.trans hk, fun e => h3.trans (hnl e), fun e => ?_⟩, ?_, ?_⟩
        · rw [h4, hnr hrh, Shape.fill_top hrh]
        · apply hal.mono
          intro j hj m hm
          refine hkeep j (by simp [Shape.indices, hj]) ?_ m hm
          rw [hhead]; intro f hf e; exact hdis _ hj _ (hfr f hf) e.symm
        · apply ihr h.2.2 hrc hndr har
          · intro j hj hjf m hm
            exact hkeep j (by simp [Shape.indices, hj]) (by rw [hhead]; exact hjf) m hm
          · intro p hp; exact hl p (by rw [hhead]; exact hp)
          · intro p hp; exact hr p (by rw [hhead]; exact hp)
    · next hlc =>
      have hlc : l.complete = false := by simpa using hlc
      have := Shape.right_hole h hlc
      subst this
      by_cases hlh : l = .hole
      · subst hlh
        have hhead : (Shape.node i .hole .hole).frames.head? = some ⟨i, .left⟩ := rfl
        obtain ⟨n', h1, h2, h3, h4⟩ := hl i hhead n hn
        exact ⟨⟨n', h1, h2.trans hk, fun _ => h3, fun e => absurd rfl e⟩, hxa, trivial⟩
      · have hne : l.frames ≠ [] := fun e => by
          have := Shape.complete_of_frames h.2.1 hlh e; rw [hlc] at this; cases this
        have hhead : (Shape.node i l .hole).frames.head? = l.frames.head? := by
          rw [Shape.frames_node, if_neg hlh, if_pos rfl, List.head?_append_of_ne_nil _ hne]
        have hfl : ∀ f ∈ l.frames.head?, f.node ∈ l.indices := fun f hf => Shape.frames_sub l f
            (List.mem_of_mem_head? hf)
        have hi' : ∀ f ∈ (Shape.node i l .hole).frames.head?, f.node ≠ i := by
          rw [hhead]; intro f hf e; exact hil (e ▸ hfl f hf)
        obtain ⟨n', h1, h2, h3, h4⟩ := hkeep i (by simp [Shape.indices]) hi' n hn
        refine ⟨⟨n', h1, h2.trans hk, fun e => ?_, fun e => absurd rfl e⟩, ?_, trivial⟩
        · rw [h3, hnl hlh, Shape.fill_top hlh]
        · apply ihl h.2.1 hlc hndl hal
          · intro j hj hjf m hm
            exact hkeep j (by simp [Shape.indices, hj]) (by rw [hhead]; exact hjf) m hm
          · intro p hp; exact hl p (by rw [hhead]; exact hp)
          · intro p hp; exact hr p (by rw [hhead]; exact hp)

end Sys2Proof.Machine
end

