-- ==== Sys2Proof/Laws/Frames.lean ====
section
/-!
SUPPORT. What each command can change, said once (`exec_cases`), and the frames of the operations it is made of.
-/

namespace Sys2Proof.Machine

/-- There are at most 256 symbols with a count (R155: `ALPHABET` cannot occur). -/
theorem presentSymbols_length (s : State) : s.presentSymbols.length ≤ 256 := by
  have := List.length_filter_le (fun a => decide (s.freqOf a ≠ 0)) allSymbols
  rw [length_allSymbols] at this
  exact this

/-- The total of the counts is the sum over the table (R155). -/
theorem State.freqTotal_eq (s : State) : s.freqTotal = (s.freq.toList.map BitVec.toNat).sum := by
  unfold State.freqTotal
  congr 1
  apply List.ext_getElem
  · simp
  · intro i h1 h2
    have hi : i < 256 := by simpa using h2
    simp [State.freqOf, allSymbols, Nat.mod_eq_of_lt hi]

/-- Attaching writes the arena and the stack alone (R213). -/
theorem attach_eq (s : State) (n : NodeIdx) :
    s.attach n = { s with nodes := (s.attach n).nodes, dsStk := afterAttach s.dsStk } := by
  unfold State.attach
  split
  · next h => rw [h]; simp only [afterAttach]; rw [← h]
  · next h => simp [h, afterAttach, State.modifyNode]
  · next h => simp [h, afterAttach, State.modifyNode]

/-- Only the tree builder's components differ. -/
def TreeFrame (s t : State) : Prop := t =
    { s with nodes := t.nodes, heap := t.heap, root := t.root, tvalid := t.tvalid, torigin := t.torigin, walk := t.walk }

theorem TreeFrame.refl (s : State) : TreeFrame s s := rfl

theorem TreeFrame.trans {s t u : State} (h1 : TreeFrame s t) (h2 : TreeFrame t u) : TreeFrame s u := by
  unfold TreeFrame at *; rw [h2, h1]

theorem finishTree_frame (s : State) : TreeFrame s s.finishTree := by
  unfold State.finishTree; split <;> rfl

/-- A merge writes the tree builder's components alone. -/
theorem merge_frame {s t : State} (h : s.merge = .next t) : TreeFrame s t := by
  unfold State.merge at h
  split at h
  · cases h
  · split at h
    · cases h
    · split at h
      · cases h
      · have := Host.Outcome.next.inj h
        rw [← this]
        refine TreeFrame.trans ?_ (finishTree_frame _)
        rfl

/-- So does the merge loop. -/
theorem mergeAll_frame {fuel : Nat} {s t : State} (h : mergeAll fuel s = .next t) : TreeFrame s t := by
  induction fuel generalizing s with
  | zero => cases h; rfl
  | succ n ih =>
    unfold mergeAll at h
    split at h
    · obtain ⟨u, h1, h2⟩ := andThen_eq_next h
      exact (merge_frame h1).trans (ih h2)
    · cases h; rfl

theorem seedLeaf_frame (s : State) (a) : TreeFrame s (s.seedLeaf a) := rfl

theorem seedFold_frame (l : List Byte) (s : State) : TreeFrame s (l.foldl State.seedLeaf s) := by
  induction l generalizing s with
  | nil => rfl
  | cons a l ih => exact (seedLeaf_frame s a).trans (ih _)

/-- After `TI`, so does the seeding. -/
theorem seed_frame (s : State) : TreeFrame s.invalidateTree s.seed :=
  (seedFold_frame _ _).trans (finishTree_frame _)

/-- Bytes were emitted. -/
def Emitted (s t : State) (bs : List Byte) : Prop := t.out = s.out ++ bs
    ∧ t.outcnt = s.outcnt + BitVec.ofNat 64 bs.length

theorem Emitted.nil (s : State) : Emitted s s [] := by simp [Emitted]

theorem Emitted.trans {s t u : State} {a b} (h1 : Emitted s t a) (h2 : Emitted t u b) : Emitted s u (a ++ b) := by
  obtain ⟨a1, a2⟩ := h1; obtain ⟨b1, b2⟩ := h2
  exact ⟨by rw [b1, a1, List.append_assoc], by rw [b2, a2, List.length_append, BitVec.ofNat_add, BitVec.add_assoc]⟩

/-- Packing bits writes the accumulator and the output alone. -/
theorem packBits_frame (l : Bits) (s : State) : ∃ bs, Emitted s (s.packBits l) bs ∧ s.packBits l =
    { s with pacc := (s.packBits l).pacc, paccn := (s.packBits l).paccn, out := (s.packBits l).out, outcnt := (s.packBits l).outcnt } := by
  unfold State.packBits
  induction l generalizing s with
  | nil => exact ⟨[], Emitted.nil _, rfl⟩
  | cons c l ih =>
    obtain ⟨bs, h1, h2⟩ := ih (s.packBit c)
    rw [List.foldl_cons]
    have : ∃ b0, Emitted s (s.packBit c) b0 ∧ s.packBit c =
        { s with pacc := (s.packBit c).pacc, paccn := (s.packBit c).paccn, out := (s.packBit c).out, outcnt := (s.packBit c).outcnt } := by
      unfold State.packBit; split
      · exact ⟨[_], ⟨rfl, rfl⟩, rfl⟩
      · exact ⟨[], Emitted.nil _, rfl⟩
    obtain ⟨b0, e0, f0⟩ := this
    refine ⟨_, e0.trans h1, ?_⟩
    rw [h2, f0]

/-- Walking bits writes `REMAIN`, the walk and the output alone. -/
theorem walkBits_frame (l : Bits) (s : State) : ∃ bs, Emitted s (s.walkBits l) bs ∧ s.walkBits l =
    { s with remain := (s.walkBits l).remain, walk := (s.walkBits l).walk, out := (s.walkBits l).out, outcnt := (s.walkBits l).outcnt } := by
  unfold State.walkBits
  induction l generalizing s with
  | nil => exact ⟨[], Emitted.nil _, rfl⟩
  | cons c l ih =>
    obtain ⟨bs, h1, h2⟩ := ih (s.walkBit c)
    rw [List.foldl_cons]
    have : ∃ b0, Emitted s (s.walkBit c) b0 ∧ s.walkBit c =
        { s with remain := (s.walkBit c).remain, walk := (s.walkBit c).walk, out := (s.walkBit c).out, outcnt := (s.walkBit c).outcnt } := by
      unfold State.walkBit; split
      · exact ⟨[], Emitted.nil _, rfl⟩
      · split
        · exact ⟨[_], ⟨rfl, rfl⟩, rfl⟩
        · exact ⟨[], Emitted.nil _, rfl⟩
    obtain ⟨b0, e0, f0⟩ := this
    refine ⟨_, e0.trans h1, ?_⟩
    rw [h2, f0]

/-- Which errors a command raises (R240). -/
def mayRaise : Instr → ErrCode → Prop
  | .treeSeed, c | .treeBuild, c => c = .empty ∨ c = .weightOvf
  | .freqInc _, c => c = .freqOvf
  | .treeMerge, c => c = .state
  | .codeBuild, c => c = .state ∨ c = .dupSym
  | .packSym _, c => c = .state ∨ c = .noCode
  | .unpackByte _, c => c = .state
  | .unpackSym, c => c = .state
  | .unpackEnd, c => c = .truncated
  | .treeSer, c => c = .state
  | .deserByte _, c => c = .state ∨ c = .corruptHeader
  | .deserEnd, c => c = .state ∨ c = .corruptHeader
  | .countEmit, c => c = .state ∨ c = .countOvf
  | .nop, _ | .reset, _ | .clrerr, _ | .freqClear, _ | .freqSetLo _ _, _ | .freqSetHi _ _, _ => False
  | .packFlush, _ | .unpackInit, _ | .countShift _, _ | .deserStart, _ | .emitByte _, _ => False

/-- What a command without an error may have written. -/
def Wrote : Instr → State → State → Prop
  | .nop, s, t => t = s
  | .reset, s, t => t = s.applyReset
  | .clrerr, s, t => t = s.clearError
  | .freqClear, s, t | .freqInc _, s, t | .freqSetLo _ _, s, t | .freqSetHi _ _, s, t => t = { s with freq := t.freq }
  | .treeSeed, s, t | .treeBuild, s, t => TreeFrame s.invalidateTree t
  | .treeMerge, s, t => TreeFrame s t
  | .codeBuild, s, t => t = { s with code := t.code, ctvalid := true }
  | .packSym _, s, t | .packFlush, s, t =>
    (∃ bs, Emitted s t bs) ∧ t = { s with pacc := t.pacc, paccn := t.paccn, out := t.out, outcnt := t.outcnt }
  | .unpackInit, s, t => t = { s with remain := 0, walk := s.root }
  | .countShift _, s, t => t = { s with remain := t.remain }
  | .unpackByte _, s, t => (∃ bs, Emitted s t bs) ∧ t =
      { s with remain := t.remain, walk := t.walk, out := t.out, outcnt := t.outcnt }
  | .unpackSym, s, t => (∃ bs, Emitted s t bs) ∧ t = { s with remain := t.remain, out := t.out, outcnt := t.outcnt }
  | .unpackEnd, s, t => t = s
  | .treeSer, s, t | .emitByte _, s, t | .countEmit, s, t => (∃ bs, Emitted s t bs) ∧ t =
      { s with out := t.out, outcnt := t.outcnt }
  | .deserStart, s, t => t = { s.invalidateTree with dsState := .marker }
  | .deserByte _, s, t => t =
      { s with nodes := t.nodes, root := t.root, tvalid := t.tvalid, torigin := t.torigin, walk := t.walk, dsState := t.dsState, dsStk := t.dsStk, dsCur := t.dsCur }
  | .deserEnd, s, t => t = s

/-- Emitting bytes writes the output alone. -/
theorem emitAll_emitted (s : State) (bs : List Byte) : (∃ bs', Emitted s (s.emitAll bs) bs') ∧ s.emitAll bs =
    { s with out := (s.emitAll bs).out, outcnt := (s.emitAll bs).outcnt } := by
  rw [State.emitAll_eq]; exact ⟨⟨bs, rfl, rfl⟩, rfl⟩

/-- All that a command which answers a next state can have done: it was ignored (R246),
    it raised one of its errors and changed
nothing else (R245), or it wrote its own components. -/
theorem exec_cases {i : Instr} {s t : State} (h : exec i s = .next t) :
    (s.err ≠ .noError ∧ exempt i = false ∧ t = s) ∨
    (s.err = .noError ∧ ∃ c, mayRaise i c ∧ t = { s with err := c, errop := i.opcode }) ∨
    ((s.err = .noError ∨ exempt i = true) ∧ Wrote i s t) := by
  by_cases hx : exempt i = true
  · refine .inr (.inr ⟨.inr hx, ?_⟩)
    cases i <;> first | (exact absurd hx (by decide)) | (cases h; rfl) | (exfalso; revert hx; simp [exempt])
  · replace hx : exempt i = false := by simpa using hx
    have key : ∀ r : Result, exec i s = unlessSticky s r → (s.err = .noError → r = .next t → (∃ c, mayRaise i c ∧ t =
        { s with err := c, errop := i.opcode }) ∨ Wrote i s t) → ((s.err ≠ .noError ∧ exempt i = false ∧ t = s) ∨
            (s.err = .noError ∧ ∃ c, mayRaise i c ∧ t = { s with err := c, errop := i.opcode }) ∨ ((s.err = .noError
            ∨ exempt i = true) ∧ Wrote i s t)) := by
      intro r e k
      rw [e] at h
      rcases unlessSticky_eq_next h with ⟨a, b⟩ | ⟨a, b⟩
      · exact Or.inl ⟨a, hx, b⟩
      · rcases k a b with k | k
        · exact .inr (.inl ⟨a, k⟩)
        · exact .inr (.inr ⟨.inl a, k⟩)
    cases i
    case nop => simp [exempt] at hx
    case reset => simp [exempt] at hx
    case clrerr => simp [exempt] at hx
    all_goals refine key _ rfl fun he h => ?_
    all_goals clear key hx
    case freqClear => cases h; exact .inr rfl
    case freqInc a =>
      split at h
      · exact .inl ⟨.freqOvf, rfl, (Host.Outcome.next.inj h).symm⟩
      · cases h; exact .inr rfl
    case freqSetLo => cases h; exact .inr rfl
    case freqSetHi => cases h; exact .inr rfl
    case treeSeed =>
      split at h
      · next c hc =>
        refine .inl ⟨c, ?_, (Host.Outcome.next.inj h).symm⟩
        unfold State.seedError at hc
        have : ¬ s.presentSymbols.length > heapCap := by have := presentSymbols_length s; simp only [heapCap]; omega
        split at hc
        · cases hc; exact .inl rfl
        · split at hc
          · cases hc; exact .inr rfl
          · cases hc
      · rw [← Host.Outcome.next.inj h]; exact .inr (seed_frame s)
    case treeMerge =>
      split at h
      · exact .inl ⟨.state, rfl, (Host.Outcome.next.inj h).symm⟩
      · exact .inr (merge_frame h)
    case treeBuild =>
      split at h
      · next c hc =>
        refine .inl ⟨c, ?_, (Host.Outcome.next.inj h).symm⟩
        unfold State.seedError at hc
        have : ¬ s.presentSymbols.length > heapCap := by have := presentSymbols_length s; simp only [heapCap]; omega
        split at hc
        · cases hc; exact .inl rfl
        · split at hc
          · cases hc; exact .inr rfl
          · cases hc
      · exact .inr ((seed_frame s).trans (mergeAll_frame h))
    case codeBuild =>
      split at h
      · exact .inl ⟨.state, .inl rfl, (Host.Outcome.next.inj h).symm⟩
      · split at h
        · cases h
        · split at h
          · exact .inl ⟨.dupSym, .inr rfl, (Host.Outcome.next.inj h).symm⟩
          · next c _ _ =>
            rw [← Host.Outcome.next.inj h]
            refine .inr ?_
            show State.fillCodes s c = _
            unfold State.fillCodes
            rw [foldl_record_spec]
            rfl
    case packSym a =>
      split at h
      · exact .inl ⟨.state, .inl rfl, (Host.Outcome.next.inj h).symm⟩
      · split at h
        · exact .inl ⟨.noCode, .inr rfl, (Host.Outcome.next.inj h).symm⟩
        · rw [← Host.Outcome.next.inj h]
          obtain ⟨bs, h1, h2⟩ := packBits_frame _ s
          exact .inr ⟨⟨bs, h1⟩, h2⟩
    case packFlush =>
      split at h
      · rw [← Host.Outcome.next.inj h]; exact .inr ⟨⟨[_], rfl, rfl⟩, rfl⟩
      · rw [← Host.Outcome.next.inj h]; exact .inr ⟨⟨[], by simp [Emitted]⟩, rfl⟩
    case unpackInit => cases h; exact .inr rfl
    case countShift => cases h; exact .inr rfl
    case unpackByte b =>
      split at h
      · exact .inl ⟨.state, rfl, (Host.Outcome.next.inj h).symm⟩
      · split at h
        · rw [← Host.Outcome.next.inj h]; exact .inr ⟨⟨[], Emitted.nil _⟩, rfl⟩
        · rw [← Host.Outcome.next.inj h]
          obtain ⟨bs, h1, h2⟩ := walkBits_frame _ s
          exact .inr ⟨⟨bs, h1⟩, h2⟩
    case unpackSym =>
      split at h
      · exact .inl ⟨.state, rfl, (Host.Outcome.next.inj h).symm⟩
      · split at h
        · exact .inl ⟨.state, rfl, (Host.Outcome.next.inj h).symm⟩
        · split at h
          · rw [← Host.Outcome.next.inj h]; exact .inr ⟨⟨[], Emitted.nil _⟩, rfl⟩
          · rw [← Host.Outcome.next.inj h]; exact .inr ⟨⟨[_], rfl, rfl⟩, rfl⟩
    case unpackEnd =>
      split at h
      · exact .inl ⟨.truncated, rfl, (Host.Outcome.next.inj h).symm⟩
      · cases h; exact .inr rfl
    case treeSer =>
      split at h
      · exact .inl ⟨.state, rfl, (Host.Outcome.next.inj h).symm⟩
      · split at h
        · cases h
        · rw [← Host.Outcome.next.inj h]; exact .inr (emitAll_emitted _ _)
    case deserStart => cases h; exact .inr rfl
    case deserByte b =>
      split at h
      · exact .inl ⟨.state, .inl rfl, (Host.Outcome.next.inj h).symm⟩
      · exact .inl ⟨.state, .inl rfl, (Host.Outcome.next.inj h).symm⟩
      · rw [← Host.Outcome.next.inj h]
        refine .inr ?_
        unfold State.takeSymbol
        simp only [Wrote]
        split <;> rfl
      · split at h
        · exact .inl ⟨.corruptHeader, .inr rfl, (Host.Outcome.next.inj h).symm⟩
        · split at h
          · exact .inl ⟨.corruptHeader, .inr rfl, (Host.Outcome.next.inj h).symm⟩
          · refine .inr ?_
            unfold State.takeMarker at h
            simp only at h
            split at h
            · rw [← Host.Outcome.next.inj h]; simp only [Wrote]; rw [attach_eq]; rfl
            · split at h
              · cases h
              · rw [← Host.Outcome.next.inj h]; simp only [Wrote]; rw [attach_eq]; rfl
    case deserEnd =>
      split at h
      · exact .inl ⟨.state, .inl rfl, (Host.Outcome.next.inj h).symm⟩
      · exact .inl ⟨.corruptHeader, .inr rfl, (Host.Outcome.next.inj h).symm⟩
      · exact .inl ⟨.corruptHeader, .inr rfl, (Host.Outcome.next.inj h).symm⟩
      · cases h; exact .inr rfl
    case emitByte => cases h; exact .inr ⟨⟨[_], rfl, rfl⟩, rfl⟩
    case countEmit =>
      split at h
      · exact .inl ⟨.state, .inl rfl, (Host.Outcome.next.inj h).symm⟩
      · split at h
        · exact .inl ⟨.countOvf, .inr rfl, (Host.Outcome.next.inj h).symm⟩
        · rw [← Host.Outcome.next.inj h]; exact .inr (emitAll_emitted _ _)

end Sys2Proof.Machine
end

