-- ==== Sys2Proof/Laws/Heap.lean ====
section
/-!
SUPPORT. What the heap primitives can do: each keeps the entries it does not add or remove, and moves nothing else.
-/

namespace Sys2Proof.Machine

variable {key : NodeIdx → Nat}

/-! ## `swapSlots` -/

@[simp] theorem length_swapSlots (h : List NodeIdx) (i j : Nat) : (swapSlots h i j).length = h.length := by
  simp [swapSlots]

/-- What a slot holds after a swap of two live slots. -/
theorem getD_swapSlots {h : List NodeIdx} {i j : Nat} (hi : i < h.length) (hj : j < h.length) (k : Nat) :
    (swapSlots h i j).getD k 0 = if k = j then h.getD i 0 else if k = i then h.getD j 0 else h.getD k 0 := by
  simp only [swapSlots, List.getD_eq_getElem?_getD, List.getElem?_set, List.length_set]
  by_cases hkj : k = j
  · subst hkj
    simp [hj]
  · by_cases hki : k = i
    · subst hki
      simp [hi, Ne.symm hkj, hkj]
    · simp [Ne.symm hkj, Ne.symm hki, hkj, hki]

/-- The weight at a slot after a swap of two live slots. -/
theorem keyAt_swapSlots {h : List NodeIdx} {i j : Nat} (hi : i < h.length) (hj : j < h.length) (k : Nat) :
    keyAt key (swapSlots h i j) k = if k = j then keyAt key h i else if k = i then keyAt key h j else keyAt key h k := by
  simp only [keyAt, getD_swapSlots hi hj]
  split
  · rfl
  · split <;> rfl

/-- A swap of two live slots keeps the entries. -/
theorem swapSlots_perm {h : List NodeIdx} {i j : Nat} (hi : i < h.length) (hj : j < h.length) :
    (swapSlots h i j).Perm h := by
  have e : swapSlots h i j = (h.set i h[j]).set j h[i] := by
    simp only [swapSlots, List.getD_eq_getElem?_getD, List.getElem?_eq_getElem, hi, hj, Option.getD_some]
  rw [e]
  exact List.set_set_perm hi hj

/-! ## `HeapPush` -/

@[simp] theorem length_siftUp (fuel : Nat) (h : List NodeIdx) (j : Nat) : (siftUp key fuel h j).length = h.length := by
  induction fuel generalizing h j with
  | zero => rfl
  | succ fuel ih =>
    simp only [siftUp]
    split
    · split
      · rw [ih, length_swapSlots]
      · rfl
    · rfl

/-- Sifting up keeps the entries. -/
theorem siftUp_perm (fuel : Nat) (h : List NodeIdx) (j : Nat) (hj : j < h.length) : (siftUp key fuel h j).Perm h := by
  induction fuel generalizing h j with
  | zero => exact .refl _
  | succ fuel ih =>
    simp only [siftUp]
    split
    · have hp : (j - 1) / 2 < h.length := by omega
      split
      · exact (ih _ _ (by rw [length_swapSlots]; exact hp)).trans (swapSlots_perm hp hj)
      · exact .refl _
    · exact .refl _

/-- `HeapPush(n)` adds one entry, `n`. -/
@[simp] theorem length_heapPush (h : List NodeIdx) (n : NodeIdx) : (heapPush key h n).length = h.length + 1 := by
  simp [heapPush]

/-- `HeapPush(n)` keeps every entry and adds `n`. -/
theorem heapPush_perm (h : List NodeIdx) (n : NodeIdx) : (heapPush key h n).Perm (n :: h) :=
  (siftUp_perm _ _ _ (by simp)).trans (List.perm_append_singleton n h)

/-! ## `HeapPop` -/

/-- The slot that slot `j` is swapped with is `j` itself or a live child of it. -/
theorem minChild_cases (h : List NodeIdx) (j : Nat) :
    minChild key h j = j ∨ (minChild key h j = 2 * j + 1 ∨ minChild key h j = 2 * j + 2) ∧ minChild key h j < h.length := by
  simp only [minChild]
  split <;> split <;> omega

@[simp] theorem length_siftDown (fuel : Nat) (h : List NodeIdx) (j : Nat) :
    (siftDown key fuel h j).length = h.length := by
  induction fuel generalizing h j with
  | zero => rfl
  | succ fuel ih =>
    simp only [siftDown]
    split
    · rfl
    · rw [ih, length_swapSlots]

/-- Sifting down keeps the entries. -/
theorem siftDown_perm (fuel : Nat) (h : List NodeIdx) (j : Nat) (hj : j < h.length) : (siftDown key fuel h j).Perm h := by
  induction fuel generalizing h j with
  | zero => exact .refl _
  | succ fuel ih =>
    simp only [siftDown]
    split
    · exact .refl _
    · next hne =>
      have hm : minChild key h j < h.length := ((minChild_cases h j).resolve_left hne).2
      exact (ih _ _ (by rw [length_swapSlots]; exact hm)).trans (swapSlots_perm hj hm)

/-- `HeapPop` answers nothing exactly on an empty heap. -/
@[simp] theorem heapPop_eq_none {h : List NodeIdx} : heapPop key h = none ↔ h = [] := by
  unfold heapPop
  split <;> simp

/-- `HeapPop` answers the top entry and the others, each kept. -/
theorem heapPop_spec {h h' : List NodeIdx} {r : NodeIdx} (e : heapPop key h = some (r, h')) :
    h.head? = some r ∧ (r :: h').Perm h ∧ h'.length + 1 = h.length := by
  unfold heapPop at e
  split at e
  · exact nomatch e
  · cases e
    exact ⟨rfl, .refl _, rfl⟩
  · next r' x rest =>
    simp only [Option.some.injEq, Prod.mk.injEq] at e
    obtain ⟨rfl, rfl⟩ := e
    have hl : (x :: rest).getLastD 0 = (x :: rest).getLast (List.cons_ne_nil _ _) := rfl
    refine ⟨rfl, .cons _ ?_, by simp⟩
    refine (siftDown_perm _ _ _ (by simp)).trans ?_
    rw [hl]
    have := List.perm_append_singleton ((x :: rest).getLast (List.cons_ne_nil _ _)) (x :: rest).dropLast
    rw [List.dropLast_append_getLast] at this
    exact this.symm

end Sys2Proof.Machine
end

