-- ==== Sys2Proof/Laws/HeapOrder.lean ====
section
/-!
SUPPORT. What the loops of the heap primitives do to the order of the heap, and that they read no weight but those of
the live entries (R150 to R152).
-/

namespace Sys2Proof.Machine

variable {key : NodeIdx → Nat}

/-- The loop of `HeapPush` (R150, R152): a heap in order but for slot `j` against its parent comes out in order. -/
theorem siftUp_ordered (fuel : Nat) (h : List NodeIdx) (j : Nat) (hf : j ≤ fuel) (hj : j < h.length)
    (h1 : ∀ k, 0 < k → k < h.length → k ≠ j → keyAt key h ((k-1)/2) ≤ keyAt key h k)
    (h2 : 0 < j → ∀ k, 0 < k → k < h.length → (k-1)/2 = j → keyAt key h ((j-1)/2) ≤ keyAt key h k) :
    HeapOrdered key (siftUp key fuel h j) := by
  induction fuel generalizing h j with
  | zero =>
    intro k hk hkl
    exact h1 k hk hkl (by omega)
  | succ fuel ih =>
    simp only [siftUp]
    split
    · next hj0 =>
      have hp : (j - 1) / 2 < h.length := by omega
      split
      · next hgt =>
        apply ih
        · omega
        · rw [length_swapSlots]; exact hp
        · intro k hk hkl hkp
          rw [length_swapSlots] at hkl
          rw [keyAt_swapSlots hp hj, keyAt_swapSlots hp hj]
          by_cases hkj : k = j
          · subst hkj
            rw [if_neg (by omega), if_pos rfl, if_pos rfl]; omega
          · rw [if_neg hkj, if_neg hkp]
            by_cases c1 : (k - 1)/2 = j
            · rw [if_pos c1]; exact h2 hj0 k hk hkl c1
            · rw [if_neg c1]
              have := h1 k hk hkl hkj
              by_cases c2 : (k-1)/2 = (j-1)/2
              · rw [if_pos c2]; rw [c2] at this; omega
              · rw [if_neg c2]; exact this
        · intro hp0 k hk hkl hkp
          rw [length_swapSlots] at hkl
          rw [keyAt_swapSlots hp hj, keyAt_swapSlots hp hj]
          rw [if_neg (by omega), if_neg (by omega)]
          have hpar := h1 ((j-1)/2) hp0 hp (by omega)
          by_cases hkj : k = j
          · subst hkj; rw [if_pos rfl]; exact hpar
          · rw [if_neg hkj, if_neg (by omega)]
            have := h1 k hk hkl hkj
            rw [hkp] at this; omega
      · next hle =>
        intro k hk hkl
        by_cases hkj : k = j
        · subst hkj; omega
        · exact h1 k hk hkl hkj
    · intro k hk hkl
      exact h1 k hk hkl (by omega)

/-- The slot that `HeapPop` swaps with weighs no more than slot `j` and its children (R151). -/
theorem minChild_le (h : List NodeIdx) (j : Nat) :
   keyAt key h (minChild key h j) ≤ keyAt key h j ∧ (2*j+1 < h.length → keyAt key h (minChild key h j) ≤ keyAt key h
       (2*j+1)) ∧ (2*j+2 < h.length → keyAt key h (minChild key h j) ≤ keyAt key h (2*j+2)) := by
  simp only [minChild]
  split <;> split <;> (try omega)

/-- The loop of `HeapPop` (R151, R152): a heap in order but for slot `j` against its children comes out in order. -/
theorem siftDown_ordered (fuel : Nat) (h : List NodeIdx) (j : Nat) (hf : h.length ≤ fuel + j) (hj : j < h.length)
    (h1 : ∀ k, 0 < k → k < h.length → (k-1)/2 ≠ j → keyAt key h ((k-1)/2) ≤ keyAt key h k)
    (h2 : 0 < j → ∀ k, 0 < k → k < h.length → (k-1)/2 = j → keyAt key h ((j-1)/2) ≤ keyAt key h k) :
    HeapOrdered key (siftDown key fuel h j) := by
  induction fuel generalizing h j with
  | zero => omega
  | succ fuel ih =>
    simp only [siftDown]
    have hm := minChild_le (key := key) h j
    have hc := minChild_cases (key := key) h j
    split
    · next heq =>
      rw [heq] at hm
      intro k hk hkl
      by_cases c : (k-1)/2 = j
      · rw [c]
        have : k = 2*j+1 ∨ k = 2*j+2 := by omega
        rcases this with rfl | rfl
        · exact hm.2.1 hkl
        · exact hm.2.2 hkl
      · exact h1 k hk hkl c
    · next hne =>
      obtain ⟨hc1, hml⟩ := hc.resolve_left hne
      generalize minChild key h j = m at *
      apply ih
      · rw [length_swapSlots]; omega
      · rw [length_swapSlots]; exact hml
      · intro k hk hkl hkp
        rw [length_swapSlots] at hkl
        rw [keyAt_swapSlots hj hml, keyAt_swapSlots hj hml]
        rw [if_neg (show ¬ (k-1)/2 = m from hkp)]
        by_cases c : (k-1)/2 = j
        · rw [if_pos c]
          have hk2 : k = 2*j+1 ∨ k = 2*j+2 := by omega
          by_cases ckm : k = m
          · rw [if_pos ckm]; exact hm.1
          · rw [if_neg ckm, if_neg (by omega)]
            rcases hk2 with rfl | rfl
            · exact hm.2.1 hkl
            · exact hm.2.2 hkl
        · rw [if_neg c]
          have hkm : k ≠ m := by omega
          rw [if_neg hkm]
          by_cases ckj : k = j
          · rw [if_pos ckj]; subst ckj
            exact h2 hk m (by omega) hml (by omega)
          · rw [if_neg ckj]; exact h1 k hk hkl c
      · intro h0 k hk hkl hkp
        rw [length_swapSlots] at hkl
        rw [keyAt_swapSlots hj hml, keyAt_swapSlots hj hml]
        rw [if_neg (by omega), if_pos (by omega), if_neg (by omega), if_neg (by omega)]
        have := h1 k hk hkl (by omega)
        rwa [hkp] at this

/-- A live slot's weight depends on the weights of the live entries alone. -/
theorem keyAt_congr {k1 k2 : NodeIdx → Nat} {h : List NodeIdx} (hk : ∀ i ∈ h, k2 i = k1 i) {j : Nat} (hj :
    j < h.length) : keyAt k2 h j = keyAt k1 h j := by
  simp only [keyAt, List.getD_eq_getElem?_getD, List.getElem?_eq_getElem hj, Option.getD_some]
  exact hk _ (List.getElem_mem hj)

/-- So does the loop of `HeapPush`. -/
theorem siftUp_congr {k1 k2 : NodeIdx → Nat} (fuel : Nat) (h : List NodeIdx) (j : Nat) (hj : j < h.length) (hk :
    ∀ i ∈ h, k2 i = k1 i) : siftUp k2 fuel h j = siftUp k1 fuel h j := by
  induction fuel generalizing h j with
  | zero => rfl
  | succ n ih =>
    have hp : (j-1)/2 < h.length := by omega
    simp only [siftUp, keyAt_congr hk hj, keyAt_congr hk hp]
    split
    · split
      · apply ih
        · rw [length_swapSlots]; exact hp
        · intro i hi; exact hk i ((swapSlots_perm hp hj).mem_iff.mp hi)
      · rfl
    · rfl

/-- So does `HeapPush`, with the weight of the entry pushed. -/
theorem heapPush_congr {k1 k2 : NodeIdx → Nat} {h : List NodeIdx} {n : NodeIdx} (hn : k2 n = k1 n) (hk : ∀ i ∈ h,
    k2 i = k1 i) : heapPush k2 h n = heapPush k1 h n := by
  apply siftUp_congr
  · simp
  · intro i hi
    simp only [List.mem_append, List.mem_singleton] at hi
    rcases hi with hi | rfl
    · exact hk i hi
    · exact hn

/-- So does the choice of the child. -/
theorem minChild_congr {k1 k2 : NodeIdx → Nat} {h : List NodeIdx} (hk : ∀ i ∈ h, k2 i = k1 i) {j : Nat} (hj :
    j < h.length) : minChild k2 h j = minChild k1 h j := by
  unfold minChild
  simp only []
  have e1 : ∀ k, (k < h.length ∧ keyAt k2 h k < keyAt k2 h j) ↔ (k < h.length ∧ keyAt k1 h k < keyAt k1 h j) := by
    intro k; constructor <;> rintro ⟨a, b⟩ <;> refine ⟨a, ?_⟩
    · rwa [keyAt_congr hk a, keyAt_congr hk hj] at b
    · rwa [keyAt_congr hk a, keyAt_congr hk hj]
  simp only [e1]
  split
  · next hc =>
    have : ∀ k, (k < h.length ∧ keyAt k2 h k < keyAt k2 h (2*j+1)) ↔ (k < h.length ∧ keyAt k1 h k < keyAt k1 h
        (2*j+1)) := by
      intro k; constructor <;> rintro ⟨a, b⟩ <;> refine ⟨a, ?_⟩
      · rwa [keyAt_congr hk a, keyAt_congr hk hc.1] at b
      · rwa [keyAt_congr hk a, keyAt_congr hk hc.1]
    simp only [this]
  · simp only [e1]

/-- So does the loop of `HeapPop`. -/
theorem siftDown_congr {k1 k2 : NodeIdx → Nat} (fuel : Nat) (h : List NodeIdx) (j : Nat) (hj : j < h.length) (hk :
    ∀ i ∈ h, k2 i = k1 i) : siftDown k2 fuel h j = siftDown k1 fuel h j := by
  induction fuel generalizing h j with
  | zero => rfl
  | succ n ih =>
    simp only [siftDown, minChild_congr hk hj]
    split
    · rfl
    · next hne =>
      have hm : minChild k1 h j < h.length := by
        rcases minChild_cases (key := k1) h j with h1 | h1 <;> omega
      apply ih
      · rw [length_swapSlots]; exact hm
      · intro i hi; exact hk i ((swapSlots_perm hj hm).mem_iff.mp hi)

/-- The last entry is an entry. -/
theorem getLastD_mem' (l : List NodeIdx) (hl : l ≠ []) : l.getLastD 0 ∈ l := by
  rw [List.getLastD_eq_getLast?, List.getLast?_eq_some_getLast hl]; exact List.getLast_mem hl

/-- So does `HeapPop`. -/
theorem heapPop_congr {k1 k2 : NodeIdx → Nat} {h : List NodeIdx} (hk : ∀ i ∈ h, k2 i = k1 i) :
    heapPop k2 h = heapPop k1 h := by
  match h with
  | [] => rfl
  | [r] => rfl
  | r :: x :: rest =>
    unfold heapPop
    simp only [Option.some.injEq, Prod.mk.injEq, true_and]
    apply siftDown_congr
    · simp
    · intro i hi
      apply hk
      simp only [List.mem_cons] at hi
      rcases hi with rfl | hi
      · have : (x :: rest).getLastD 0 ∈ (x :: rest) := (getLastD_mem' (x :: rest) (by simp))
        exact List.mem_cons_of_mem _ this
      · exact List.mem_cons_of_mem _ (List.dropLast_subset _ hi)

/-- Appending keeps the weights of the slots before. -/
theorem keyAt_append_left {h : List NodeIdx} {n} {k : Nat} (hk : k < h.length) : keyAt key
    (h ++ [n]) k = keyAt key h k := by
  simp [keyAt, List.getD_eq_getElem?_getD, List.getElem?_append_left hk]

/-- `HeapPush` keeps the heap property. -/
theorem heapPush_ordered {h : List NodeIdx} (n) (ho : HeapOrdered key h) : HeapOrdered key (heapPush key h n) := by
  apply siftUp_ordered
  · omega
  · simp
  · intro k hk hkl hkj
    simp at hkl
    rw [keyAt_append_left (by omega), keyAt_append_left (by omega)]
    exact ho k hk (by omega)
  · intro h0 k hk hkl
    simp at hkl; omega

/-- The top weighs no more than any slot. -/
theorem ordered_top_le {h : List NodeIdx} (ho : HeapOrdered key h) : ∀ k,
    k < h.length → keyAt key h 0 ≤ keyAt key h k := by
  intro k
  induction k using Nat.strong_induction_on with
  | _ k ih =>
    intro hk
    by_cases h0 : k = 0
    · subst h0; exact le_refl _
    · exact (ih ((k-1)/2) (by omega) (by omega)).trans (ho k (by omega) hk)

/-- `HeapPop` keeps the heap property and returns an entry of minimum weight. -/
theorem heapPop_ordered {h h' : List NodeIdx} {r} (ho : HeapOrdered key h) (e : heapPop key h = some (r, h')) :
    HeapOrdered key h' ∧ ∀ x ∈ h, key r ≤ key x := by
  constructor
  · unfold heapPop at e
    split at e
    · exact nomatch e
    · cases e
      intro k hk hkl; simp at hkl
    · next r' x rest =>
      simp only [Option.some.injEq, Prod.mk.injEq] at e
      obtain ⟨rfl, rfl⟩ := e
      apply siftDown_ordered
      · simp
      · simp
      · intro k hk hkl hkp
        simp at hkl
        have := ho k hk (by simp; omega)
        have e1 : ∀ i, 0 < i → i < (x::rest).length → keyAt key (((x :: rest).getLastD 0) :: (x ::
            rest).dropLast) i = keyAt key (r' :: x :: rest) i := by
          intro i hi hil
          obtain ⟨i, rfl⟩ := Nat.exists_eq_succ_of_ne_zero (by omega : i ≠ 0)
          simp [keyAt, List.getD_eq_getElem?_getD, List.getElem?_dropLast] at hil ⊢
          rw [if_pos hil]
        rw [e1 k hk (by simp; omega), e1 _ (by omega) (by simp; omega)]
        exact this
      · omega
  · intro x hx
    have := heapPop_spec e
    obtain ⟨i, hi, rfl⟩ := List.getElem_of_mem hx
    have h2 := ordered_top_le ho i hi
    have : h.getD 0 0 = r := by
      cases h with
      | nil => simp at hi
      | cons a t => simpa using this.1
    rw [keyAt, keyAt, this] at h2
    simpa [List.getD_eq_getElem?_getD, hi] using h2

end Sys2Proof.Machine
end

