-- ==== Sys2Proof/Laws/Invariant.lean ====
section
/-!
SUPPORT. What the invariant depends on, and the simple ways to keep it.
-/

namespace Sys2Proof.Machine

/-- Two states agree on the tree components. -/
def SameTree (s t : State) : Prop :=
  t.nodes = s.nodes ∧ t.heap = s.heap ∧ t.root = s.root ∧ t.tvalid = s.tvalid ∧ t.torigin = s.torigin
      ∧ t.dsState = s.dsState ∧ t.dsStk = s.dsStk ∧ t.dsCur = s.dsCur

/-- Covering depends on the arena alone. -/
theorem CoversArena.congr {s t : State} {is} (hn : t.nodes = s.nodes) (h : CoversArena s is) : CoversArena t is := by
  unfold CoversArena State.ncount at *; rwa [hn]

/-- A live node's key depends on the arena alone. -/
theorem key_congr {s t : State} (hn : t.nodes = s.nodes) {i : NodeIdx} (hi : i.toNat < s.ncount) :
    t.key i = s.key i := by
  have h1 := State.getElem?_of_live hi
  have h2 : t.nodes[i.toNat]? = some (s.node i) := by rw [hn]; exact h1
  simp [State.key, State.weight, State.node_of_getElem? h2]

/-- A live node depends on the arena alone. -/
theorem node_congr {s t : State} (hn : t.nodes = s.nodes) {i : NodeIdx} (hi : i.toNat < s.ncount) :
    t.node i = s.node i := by
  have h1 := State.getElem?_of_live hi
  have h2 : t.nodes[i.toNat]? = some (s.node i) := by rw [hn]; exact h1
  simp [State.node_of_getElem? h2]

/-- The heap property depends on the weights of the live entries alone. -/
theorem HeapOrdered.congr {k1 k2 : NodeIdx → Nat} {h : List NodeIdx} (hk : ∀ i ∈ h, k2 i = k1 i) (ho :
    HeapOrdered k1 h) : HeapOrdered k2 h := by
  intro j hj hjl
  have a1 : ∀ j, j < h.length → keyAt k2 h j = keyAt k1 h j := by
    intro j hj
    simp only [keyAt, List.getD_eq_getElem?_getD, List.getElem?_eq_getElem hj, Option.getD_some]
    exact hk _ (List.getElem_mem hj)
  rw [a1 _ hjl, a1 _ (by omega)]
  exact ho j hj hjl

/-- A heap entry is a live node (R51 (e)). -/
theorem BuilderPhase.heap_live {s : State} (h : BuilderPhase s) : ∀ n ∈ s.heap, n.toNat < s.ncount := by
  obtain ⟨ts, h1, h2, h3, h4⟩ := h.forest
  intro n hn
  rw [← h2, List.mem_map] at hn
  obtain ⟨t, ht, rfl⟩ := hn
  exact (h1 t ht).2.1.live _ (Shape.top_mem (h1 t ht).1)

/-- The builder's phase depends on the tree components alone. -/
theorem BuilderPhase.congr {s t : State} (e : SameTree s t) (h : BuilderPhase s) : BuilderPhase t := by
  have hl := h.heap_live
  obtain ⟨en, eh, er, ev, eo, es, ek, ec⟩ := e
  refine ⟨?_, ?_, ?_, ?_, ?_, ?_⟩
  · obtain ⟨ts, h1, h2, h3, h4⟩ := h.forest
    exact ⟨ts, by rwa [en], by rwa [eh], h3.congr en, by rwa [en]⟩
  · rw [ek, ec]; exact h.noParse
  · rw [eh]; exact h.ordered.congr fun i hi => key_congr en (hl i hi)
  · rw [eh]
    have : s.heap.map t.key = s.heap.map s.key := List.map_congr_left fun i hi => key_congr en (hl i hi)
    rw [this]; exact h.total
  · unfold State.hsize; rw [ev, eh]; exact h.oneRoot
  · rw [ev, eh, er, eo]; exact h.present

/-- So does a parse in progress. -/
theorem ParsePhase.congr {s t : State} (e : SameTree s t) (h : ParsePhase s) : ParsePhase t := by
  obtain ⟨en, eh, er, ev, eo, es, ek, ec⟩ := e
  have ecnt : t.ncount = s.ncount := by simp [State.ncount, en]
  refine ⟨?_, ?_, ?_, ?_, ?_⟩
  · rw [en, ek, ecnt]; exact h.parsed
  · rw [ev]; exact h.noTree
  · rw [eh]; exact h.noHeap
  · rw [es, ec, ecnt, en]; exact h.symbol
  · rw [es, ek, ecnt]; exact h.marker

/-- So does a parsed tree. -/
theorem ParsedPhase.congr {s t : State} (e : SameTree s t) (h : ParsedPhase s) : ParsedPhase t := by
  obtain ⟨en, eh, er, ev, eo, es, ek, ec⟩ := e
  have ecnt : t.ncount = s.ncount := by simp [State.ncount, en]
  refine ⟨?_, ?_, ?_, ?_⟩
  · rw [en, ecnt]; exact h.parsed
  · rw [ev, eo, er]; exact h.present
  · rw [eh]; exact h.noHeap
  · rw [ek]; exact h.noFrames

/-- So does the phase. -/
theorem PhaseHolds.congr {s t : State} (e : SameTree s t) (h : PhaseHolds s) : PhaseHolds t := by
  have es := e.2.2.2.2.2.1
  unfold PhaseHolds at *
  rw [es]
  split
  · next hh => rw [hh] at h; exact BuilderPhase.congr e h
  · next hh => rw [hh] at h; exact ParsePhase.congr e h
  · next hh => rw [hh] at h; exact ParsePhase.congr e h
  · next hh => rw [hh] at h; exact ParsedPhase.congr e h

theorem Inv.treeIs {s : State} (h : Inv s) (hv : s.tvalid = true) : ∃ t, TreeIs s t := by
  have hp := h.phase
  unfold PhaseHolds at hp
  split at hp
  · obtain ⟨ts, h1, h2, h3, h4⟩ := hp.forest
    obtain ⟨p1, p2⟩ := hp.present hv
    rw [p1] at h2
    match ts, h2 with
    | [t], h2 =>
      simp at h2 h3 h1
      exact ⟨t, h1.1, h1.2.1, h2, h3⟩
    | [], h2 => simp at h2
    | _ :: _ :: _, h2 => simp at h2
  · rw [hp.noTree] at hv; cases hv
  · rw [hp.noTree] at hv; cases hv
  · obtain ⟨t, h1, h2, h3⟩ := hp.parsed
    refine ⟨t, h1, h2, ?_, ?_⟩
    · rw [hp.present.2.2]
      cases t with
      | hole => cases h1
      | leaf i =>
        simp [Shape.indices] at h3
        apply BitVec.eq_of_toNat_eq
        have : s.ncount = 1 := by have := congrArg List.length h3; simpa using this.symm
        rw [this] at h3; simpa using h3
      | node i l r =>
        simp [Shape.indices] at h3
        apply BitVec.eq_of_toNat_eq
        match hn : s.ncount, h3 with
        | 0, h3 => simp at h3
        | k+1, h3 => rw [List.range_succ_eq_map] at h3; simp at h3; simpa using h3.1
    · unfold CoversArena; rw [h3]

/-- The codes of a tree depend on the arena and the root alone. -/
theorem codes_congr {s t : State} {sh : Shape} (hs : TreeIs s sh) (hcap : s.ncount ≤ nodeCap) (en :
    t.nodes = s.nodes) (er : t.root = s.root) : t.codes = s.codes := by
  have ht : TreeIs t sh := ⟨hs.1, by rw [en]; exact hs.2.1, by rw [er]; exact hs.2.2.1, hs.2.2.2.congr en⟩
  have ecnt : t.ncount = s.ncount := by simp [State.ncount, en]
  rw [hs.codes hcap, ht.codes (by rw [ecnt]; exact hcap)]
  congr 1
  apply List.map_congr_left
  intro e he
  have : e.1 ∈ sh.leaves := by rw [← Shape.paths_fst sh []]; exact List.mem_map_of_mem he
  rw [node_congr en (hs.2.1.live _ (Shape.leaves_subset _ this))]

/-- Recording depends on the code table alone. -/
theorem foldl_record_congr {s t : State} (c : List (Byte × Bits)) (e : t.code = s.code) :
    (c.foldl State.recordCode t).code = (c.foldl State.recordCode s).code := by
  induction c generalizing s t with
  | nil => exact e
  | cons a c ih => exact ih (by simp [State.recordCode, State.setCode, e])

structure Quiet (s t : State) : Prop where
  tree : SameTree s t
  walk : t.walk = s.walk
  code : t.code = s.code
  ctvalid : t.ctvalid = s.ctvalid
  pacc : t.pacc = s.pacc
  paccn : t.paccn = s.paccn

/-- What keeps the tree components and the code table, and the packer, walk and error clauses, keeps the invariant. -/
theorem Inv.keep {s t : State} (h : Inv s) (e : SameTree s t) (ec : t.code = s.code) (ect : t.ctvalid = s.ctvalid)
    (hp : t.pacc.toNat < 2 ^ t.paccn.toNat) (hw0 : t.tvalid = false → t.walk = 0)
    (hw1 : t.tvalid = true → t.walk = t.root ∨ ∃ n, t.nodes[t.walk.toNat]? = some n ∧ n.kind = .internal)
    (he : t.err = .noError → t.errop = 0) : Inv t := by
  have e' := e
  obtain ⟨en, eh, er, ev, eo, es, ek, edc⟩ := e'
  have ecnt : t.ncount = s.ncount := by simp [State.ncount, en]
  exact {
    phase := h.phase.congr e
    arena := by rw [ecnt]; exact h.arena
    packer := hp
    noTree := fun hv => ⟨by rw [er]; exact (h.noTree (ev ▸ hv)).1, by rw [eo]; exact (h.noTree (ev ▸ hv)).2.1, hw0 hv⟩
    walk := hw1
    codesOfTree := by rw [ect, ev]; exact h.codesOfTree
    table := by
      rw [ect, ec]
      intro hct
      obtain ⟨c, h1, h2, h3⟩ := h.table hct
      obtain ⟨sh, hsh⟩ := h.treeIs (h.codesOfTree hct)
      refine ⟨c, (codes_congr hsh h.arena en er).trans h1, h2, h3.trans ?_⟩
      exact foldl_record_congr c rfl
    clearTable := by rw [ect, ec]; exact h.clearTable
    entries := fun a => by
      rw [State.codeOf_congr ec]; exact h.entries a
    noError := he }

/-- What writes none of the components that the invariant reads keeps it. -/
theorem Inv.quiet {s t : State} (h : Inv s) (q : Quiet s t) (he : t.err = .noError → t.errop = 0) : Inv t := by
  obtain ⟨e, ew, ec, ect, ep, epn⟩ := q
  have e' := e
  obtain ⟨en, eh, er, ev, eo, es, ek, edc⟩ := e'
  refine h.keep e ec ect ?_ ?_ ?_ he
  · rw [ep, epn]; exact h.packer
  · rw [ev, ew]; exact fun hv => (h.noTree hv).2.2
  · rw [ev, ew, er, en]; exact h.walk

/-- Raising an error keeps the invariant. -/
theorem Inv.raise {s : State} (h : Inv s) {c : ErrCode} (hc : c ≠ .noError) (op : Byte) : Inv
    { s with err := c, errop := op } :=
  h.quiet ⟨⟨rfl, rfl, rfl, rfl, rfl, rfl, rfl, rfl⟩, rfl, rfl, rfl, rfl, rfl⟩ fun e => absurd e hc

/-- With no node, heap, tree, codes or parse the invariant holds. -/
theorem inv_empty {s : State} (h1 : s.nodes = []) (h2 : s.heap = []) (h3 : s.root = 0) (h4 : s.tvalid = false) (h5 :
    s.torigin = .builder) (h6 : s.walk = 0)
   (h7 : s.dsStk = []) (h8 : s.dsCur = 0) (h9 : s.dsState = .idle ∨ s.dsState = .marker) (h10 : s.ctvalid = false)
       (h11 : s.code = Vector.replicate 256 CodeEntry.cleared)
   (h12 : s.pacc.toNat < 2^s.paccn.toNat) (h13 : s.err = .noError → s.errop = 0) : Inv s := by
  have hcnt : s.ncount = 0 := by simp [State.ncount, h1]
  exact {
    phase := by
      unfold PhaseHolds
      rcases h9 with h9 | h9 <;> rw [h9]
      · exact ⟨⟨[], by simp, by simp [h2], by simp [CoversArena, hcnt], by simp⟩, ⟨h7, h8⟩, by simp [HeapOrdered,
          h2], by simp [h2], by simp [h4, State.hsize, h2], by simp [h4]⟩
      · exact ⟨⟨.hole, trivial, trivial, by simp [Shape.frames, h7], by simp [Shape.indices, hcnt]⟩, h4, h2,
          by simp [h9], by simp [hcnt]⟩
    arena := by simp [hcnt]
    packer := h12
    noTree := fun _ => ⟨h3, h5, h6⟩
    walk := by simp [h4]
    codesOfTree := by simp [h10]
    table := by simp [h10]
    clearTable := fun _ => h11
    entries := fun a => by
      have : s.codeOf a = CodeEntry.cleared := by simp [State.codeOf, h11]
      rw [this]; simp [CodeEntry.cleared]
    noError := h13 }

/-- After a reset the invariant holds. -/
theorem Inv.applyReset (s : State) : Inv s.applyReset := by
  apply inv_empty <;> simp

/-- After `DESER_START` the invariant holds. -/
theorem Inv.deserStart {s : State} (h : Inv s) : Inv { s.invalidateTree with dsState := .marker } := by
  apply inv_empty <;> simp
  · exact h.packer
  · exact h.noError

/-- Without a tree there are no codes. -/
theorem Inv.noCodes {s : State} (h : Inv s) (hv : s.tvalid = false) : s.ctvalid = false
    ∧ s.code = Vector.replicate 256 CodeEntry.cleared := by
  have : s.ctvalid = false := by
    cases hc : s.ctvalid
    · rfl
    · have := h.codesOfTree hc; rw [hv] at this; cases this
  exact ⟨this, h.clearTable this⟩

end Sys2Proof.Machine
end

