-- ==== Sys2Proof/Laws/InvariantBuilder.lean ====
section
/-!
SUPPORT. The tree builder keeps the invariant (R155 to R157).
-/

namespace Sys2Proof.Machine

/-- A permutation of an image is the image of a permutation. -/
theorem perm_map_lift {α β : Type} {f : α → β} {l l' : List β} (h : l.Perm l') : ∀ ts : List α, ts.map f = l →
    ∃ ts' : List α, ts'.Perm ts ∧ ts'.map f = l' := by
  induction h with
  | nil => intro ts e; exact ⟨ts, .refl _, e⟩
  | cons x _ ih =>
    intro ts e
    match ts, e with
    | t :: ts, e =>
      simp at e
      obtain ⟨ts', h1, h2⟩ := ih ts e.2
      exact ⟨t :: ts', h1.cons t, by simp [e.1, h2]⟩
  | swap x y l =>
    intro ts e
    match ts, e with
    | a :: b :: ts, e =>
      simp at e
      exact ⟨b :: a :: ts, .swap a b ts, by simp [e]⟩
  | trans _ _ ih1 ih2 =>
    intro ts e
    obtain ⟨t1, h1, h2⟩ := ih1 ts e
    obtain ⟨t2, h3, h4⟩ := ih2 t1 h2
    exact ⟨t2, h3.trans h1, h4⟩

/-- Sums survive where the shape's entries do. -/
theorem Shape.Summed.mono {nodes nodes' : List Node} {t : Shape} (ha : t.InArena nodes) (hc : t.complete = true) (h :
    t.Summed nodes)
   (keep : ∀ i ∈ t.indices, nodes'[i.toNat]? = nodes[i.toNat]?) : t.Summed nodes' := by
  induction t with
  | hole => trivial
  | leaf i => trivial
  | node i l r ihl ihr =>
    simp only [Shape.complete, Bool.and_eq_true] at hc
    refine ⟨?_, ihl ha.2.1 hc.1 h.2.1 ?_, ihr ha.2.2 hc.2 h.2.2 ?_⟩
    · rw [keep i (by simp [Shape.indices]), keep l.top (by simp [Shape.indices, Shape.top_mem hc.1]), keep r.top
        (by simp [Shape.indices, Shape.top_mem hc.2])]
      exact h.1
    · exact fun x hx => keep x (by simp [Shape.indices, hx])
    · exact fun x hx => keep x (by simp [Shape.indices, hx])

/-- A shape's symbols depend on its entries alone. -/
theorem Shape.symbols_congr {nodes nodes' : List Node} {t : Shape} (keep : ∀ i ∈ t.indices,
    nodes'[i.toNat]? = nodes[i.toNat]?) : t.symbols nodes' = t.symbols nodes := by
  unfold Shape.symbols
  apply List.filterMap_congr
  intro i hi
  rw [keep i (Shape.leaves_subset t hi)]

/-- Distinct bytes are at most 256. -/
theorem nodup_bytes_length {l : List Byte} (h : l.Nodup) : l.length ≤ 256 := by
  have : (l.map BitVec.toNat).Nodup := h.map fun a b e => BitVec.eq_of_toNat_eq e
  have hsub : l.map BitVec.toNat ⊆ List.range 256 := by
    intro x hx
    rw [List.mem_map] at hx
    obtain ⟨a, -, rfl⟩ := hx
    exact List.mem_range.mpr a.isLt
  have := (List.subperm_of_subset this hsub).length_le
  simpa using this

/-- A shape has as many symbols as leaves. -/
theorem Shape.symbols_length {nodes : List Node} {t : Shape} (ha : t.InArena nodes) :
    (t.symbols nodes).length = t.leaves.length := by
  unfold Shape.symbols
  have hl := ha.live
  have : ∀ is : List NodeIdx, (∀ i ∈ is, i.toNat < nodes.length) → (is.filterMap fun i =>
      (nodes[i.toNat]?).map Node.sym).length = is.length := by
    intro is
    induction is with
    | nil => simp
    | cons a is ih =>
      intro h
      have := h a (by simp)
      rw [List.filterMap_cons]
      simp [this, ih (fun i hi => h i (by simp [hi]))]
  exact this _ fun i hi => hl i (Shape.leaves_subset t hi)

/-- The sizes of a forest of full trees. -/
theorem forest_count {nodes : List Node} (ts : List Shape) (h : ∀ t ∈ ts, t.complete = true ∧ t.InArena nodes) :
   (ts.flatMap Shape.indices).length + ts.length = 2 * (ts.flatMap (Shape.symbols nodes)).length := by
  induction ts with
  | nil => rfl
  | cons t ts ih =>
    have h1 := Shape.length_indices (h t (by simp)).1
    have h2 := Shape.symbols_length (h t (by simp)).2
    have h3 := ih fun t ht => h t (by simp [ht])
    simp only [List.flatMap_cons, List.length_append, List.length_cons]
    omega

/-- With two roots left there is room for a merge (R156). -/
theorem BuilderPhase.ncount_lt {s : State} (h : BuilderPhase s) (h2 : 2 ≤ s.hsize) : s.ncount < 511 := by
  obtain ⟨ts, f1, f2, f3, f4⟩ := h.forest
  have := forest_count ts fun t ht => ⟨(f1 t ht).1, (f1 t ht).2.1⟩
  have e1 := f3.length
  have e2 := nodup_bytes_length f4
  have e3 : ts.length = s.hsize := by unfold State.hsize; rw [← f2]; simp
  omega

/-- With no or several heap entries no tree is finished. -/
theorem finishTree_spec (s : State) (h1 : s.hsize ≠ 1) : s.finishTree = s := by
  unfold State.finishTree
  split
  · next r h => simp [State.hsize, h] at h1
  · rfl
  · rfl

/-- With one entry it is the root. -/
theorem finishTree_one {s : State} {r : NodeIdx} (h : s.heap = [r]) : s.finishTree = s.completeTree r .builder := by
  unfold State.finishTree; rw [h]

/-- The builder's forest before the tree is finished. -/
structure Forest (s : State) : Prop where
  forest : ∃ ts : List Shape,
    (∀ t ∈ ts, t.complete = true ∧ t.InArena s.nodes ∧ t.Summed s.nodes) ∧
      ts.map Shape.top = s.heap ∧ CoversArena s (ts.flatMap Shape.indices) ∧ (ts.flatMap
          (Shape.symbols s.nodes)).Nodup
  ordered : HeapOrdered s.key s.heap
  total : (s.heap.map s.key).sum < 2 ^ 64

/-- Finishing a forest gives the builder's phase. -/
theorem Forest.builder {s : State} (h : Forest s) (hne : s.heap ≠ []) (hv : s.tvalid = false) (hk : s.dsStk = []
    ∧ s.dsCur = 0) : BuilderPhase s.finishTree := by
  by_cases h1 : s.hsize = 1
  · match hh : s.heap with
    | [] => exact absurd hh hne
    | [r] =>
      rw [finishTree_one hh]
      exact ⟨h.forest, hk, h.ordered, h.total, by simp [State.hsize, hh], by intro _; exact ⟨hh, rfl⟩⟩
    | _ :: _ :: _ => simp [State.hsize, hh] at h1
  · rw [finishTree_spec s h1]
    exact ⟨h.forest, hk, h.ordered, h.total, by rw [hv]; simp [h1], by rw [hv]; simp⟩

/-- Finishing a forest gives the invariant. -/
theorem inv_builder {s : State} (h : Forest s) (hne : s.heap ≠ []) (hv : s.tvalid = false) (hk : s.dsStk = []
    ∧ s.dsCur = 0) (hs : s.dsState = .idle) (hcap : s.ncount ≤ nodeCap)
   (hroot : s.root = 0) (ho : s.torigin = .builder) (hw : s.walk = 0) (hct : s.ctvalid = false) (hcode :
       s.code = Vector.replicate 256 CodeEntry.cleared)
   (hpk : s.pacc.toNat < 2^s.paccn.toNat) (he : s.err = .noError → s.errop = 0) : Inv s.finishTree := by
  have hb := h.builder hne hv hk
  by_cases h1 : s.hsize = 1
  · match hh : s.heap with
    | [] => exact absurd hh hne
    | [r] =>
      rw [finishTree_one hh] at hb ⊢
      exact {
        phase := by unfold PhaseHolds; simp only [State.completeTree_dsState, hs]; exact hb
        arena := hcap
        packer := hpk
        noTree := by simp
        walk := fun _ => .inl rfl
        codesOfTree := by simp
        table := by simp [hct]
        clearTable := fun _ => hcode
        entries := fun a => by
          have : (s.completeTree r .builder).codeOf a = CodeEntry.cleared := by simp [State.codeOf, hcode]
          rw [this]; simp [CodeEntry.cleared]
        noError := he }
    | _ :: _ :: _ => simp [State.hsize, hh] at h1
  · rw [finishTree_spec s h1] at hb ⊢
    exact {
        phase := by unfold PhaseHolds; rw [hs]; exact hb
        arena := hcap
        packer := hpk
        noTree := fun _ => ⟨hroot, ho, hw⟩
        walk := by rw [hv]; simp
        codesOfTree := by simp [hct]
        table := by simp [hct]
        clearTable := fun _ => hcode
        entries := fun a => by
          have : s.codeOf a = CodeEntry.cleared := by simp [State.codeOf, hcode]
          rw [this]; simp [CodeEntry.cleared]
        noError := he }

/-- In state IDLE the builder's phase holds. -/
theorem Inv.builder {s : State} (h : Inv s) (hs : s.dsState = .idle) : BuilderPhase s := by
  have := h.phase
  unfold PhaseHolds at this
  rw [hs] at this; exact this

/-- With a heap entry the block is in state IDLE. -/
theorem Inv.idle_of_hsize {s : State} (h : Inv s) (h2 : s.hsize ≠ 0) : s.dsState = .idle := by
  have := h.phase
  unfold PhaseHolds at this
  unfold State.hsize at h2
  split at this
  · next e => exact e
  · rw [this.noHeap] at h2; simp at h2
  · rw [this.noHeap] at h2; simp at h2
  · rw [this.noHeap] at h2; simp at h2

/-- A merge of two or more entries completes, keeps the invariant and the total weight,
    and takes one entry off the heap (R156). -/
theorem Inv.merge {s : State} (h : Inv s) (h2 : 2 ≤ s.hsize) : ∃ t, s.merge = .next t ∧ Inv t ∧ t.hsize + 1 = s.hsize
    ∧ t.ncount = s.ncount + 1 ∧ (t.heap.map t.key).sum = (s.heap.map s.key).sum := by
  have hs := h.idle_of_hsize (by omega)
  have hb := h.builder hs
  have hlt := hb.ncount_lt h2
  have hv : s.tvalid = false := by
    cases hv : s.tvalid
    · rfl
    · have := hb.oneRoot.mp hv; omega
  obtain ⟨hr0, ho0, hw0⟩ := h.noTree hv
  obtain ⟨hct, hcode⟩ := h.noCodes hv
  have hlive := hb.heap_live
  obtain ⟨ts, f1, f2, f3, f4⟩ := hb.forest
  unfold State.merge
  match e1 : heapPop s.key s.heap with
  | none => rw [heapPop_eq_none] at e1; simp [State.hsize, e1] at h2
  | some (a, h1) =>
    obtain ⟨-, p1, l1⟩ := heapPop_spec e1
    obtain ⟨o1, -⟩ := heapPop_ordered hb.ordered e1
    simp only
    match e2 : heapPop s.key h1 with
    | none => rw [heapPop_eq_none] at e2; subst e2; simp at l1; simp [State.hsize] at h2; omega
    | some (b, hh2) =>
      obtain ⟨-, p2, l2⟩ := heapPop_spec e2
      obtain ⟨o2, -⟩ := heapPop_ordered o1 e2
      simp only
      rw [if_neg (by simp [nodeCap]; omega)]
      -- the forest
      have pall : (s.heap).Perm (a :: b :: hh2) := p1.symm.trans (p2.symm.cons a)
      obtain ⟨ts', q1, q2⟩ := perm_map_lift pall ts f2
      match ts', q1, q2 with
      | ta :: tb :: ts2, q1, q2 =>
      simp only [List.map_cons, List.cons.injEq] at q2
      obtain ⟨qa, qb, q2⟩ := q2
      have g1 : ∀ t ∈ ta :: tb :: ts2, t.complete = true ∧ t.InArena s.nodes ∧ t.Summed s.nodes := fun t ht => f1 t
          (q1.mem_iff.mp ht)
      have g3 : CoversArena s ((ta :: tb :: ts2).flatMap Shape.indices) := (List.Perm.map _
          (List.Perm.flatMap_right _ q1)).trans f3
      have g4 : ((ta :: tb :: ts2).flatMap (Shape.symbols s.nodes)).Nodup :=
          (List.Perm.flatMap_right _ q1).nodup_iff.mpr f4
      have hidx : s.nextIdx.toNat = s.ncount := State.nextIdx_toNat (by omega)
      generalize hnew : Node.mkInternal (s.weight a + s.weight b) a b = new
      generalize hu : ({ s with heap := hh2 } : State).alloc new = u
      have en : u.nodes = s.nodes ++ [new] := by rw [← hu]; rfl
      have ecnt : u.ncount = s.ncount + 1 := by simp [State.ncount, en]
      have hget : ∀ i : NodeIdx, i.toNat < s.ncount → u.nodes[i.toNat]? = s.nodes[i.toNat]? := by
        intro i hi; rw [en, List.getElem?_append_left hi]
      have hgetn : u.nodes[s.nextIdx.toNat]? = some new := by rw [en, hidx]; simp [State.ncount]
      have hkey : ∀ i : NodeIdx, i.toNat < s.ncount → u.key i = s.key i := by
        intro i hi
        have h1 := State.getElem?_of_live hi
        rw [← hget i hi] at h1
        simp [State.key, State.weight, State.node_of_getElem? h1]
      have hmem : ∀ i, i ∈ a :: b :: hh2 → i.toNat < s.ncount := fun i hi => hlive i (pall.mem_iff.mpr hi)
      have hsum : s.key a + (s.key b + (hh2.map s.key).sum) = (s.heap.map s.key).sum := by
        rw [(pall.map s.key).sum_eq]; simp
      have htot := hb.total
      have hkn : u.key s.nextIdx = s.key a + s.key b := by
        simp only [State.key, State.weight, State.node_of_getElem? hgetn]
        rw [← hnew]
        simp only [Node.mkInternal, State.key, State.weight] at *
        rw [BitVec.toNat_add, Nat.mod_eq_of_lt]
        omega
      have hu_heap : u.heap = hh2 := by rw [← hu]; rfl
      have hF : Forest (u.pushHeap s.nextIdx) := by
        have hpush : ((u.pushHeap s.nextIdx).heap).Perm (s.nextIdx :: hh2) := by
          simp only [State.pushHeap_heap, hu_heap]; exact heapPush_perm _ _
        refine ⟨?_, ?_, ?_⟩
        · have hnewmap : ((Shape.node s.nextIdx ta tb) :: ts2).map Shape.top = s.nextIdx :: hh2 := by simp [q2]
          obtain ⟨ts3, r1, r2⟩ := perm_map_lift hpush.symm _ hnewmap
          have keep : ∀ t ∈ ta :: tb :: ts2, ∀ i ∈ t.indices, u.nodes[i.toNat]? = s.nodes[i.toNat]? :=
            fun t ht i hi => hget i ((g1 t ht).2.1.live i hi)
          have old : ∀ t ∈ ta :: tb :: ts2, t.complete = true ∧ t.InArena u.nodes ∧ t.Summed u.nodes := by
            intro t ht
            refine ⟨(g1 t ht).1, ?_, (g1 t ht).2.2.mono (g1 t ht).2.1 (g1 t ht).1 (keep t ht)⟩
            rw [en]; exact (g1 t ht).2.1.append _
          refine ⟨ts3, ?_, r2, ?_, ?_⟩
          · intro t ht
            have ht := r1.mem_iff.mp ht
            simp only [List.mem_cons] at ht
            rcases ht with rfl | ht
            · have oa := old ta (by simp)
              have ob := old tb (by simp)
              refine ⟨by simp [Shape.complete, oa.1, ob.1], ⟨⟨new, hgetn, by rw [← hnew]; rfl, fun _ => ?_,
                  fun _ => ?_⟩, oa.2.1, ob.2.1⟩, ?_, oa.2.2, ob.2.2⟩
              · rw [← hnew]; exact qa.symm
              · rw [← hnew]; exact qb.symm
              · intro n nl nr e1 e2 e3
                simp only [State.pushHeap_nodes] at e1 e2 e3
                rw [hgetn] at e1; cases e1
                rw [qa] at e2; rw [qb] at e3
                have k1 := hkey a (hmem a (by simp))
                have k2 := hkey b (hmem b (by simp))
                have k3 : u.key a = nl.w.toNat := by simp [State.key, State.weight, State.node_of_getElem? e2]
                have k4 : u.key b = nr.w.toNat := by simp [State.key, State.weight, State.node_of_getElem? e3]
                have k5 : u.key s.nextIdx = new.w.toNat := by simp [State.key, State.weight,
                    State.node_of_getElem? hgetn]
                omega
            · exact old t (by simp [ht])
          · have : CoversArena u (((Shape.node s.nextIdx ta tb) :: ts2).flatMap Shape.indices) := by
              unfold CoversArena at *
              rw [ecnt, List.range_succ]
              simp only [List.flatMap_cons, Shape.indices, List.cons_append, List.map_cons, hidx] at g3 ⊢
              rw [List.append_assoc]
              exact (List.Perm.cons _ g3).trans (List.perm_append_singleton _ _).symm
            exact (List.Perm.map _ (List.Perm.flatMap_right _ r1)).trans this
          · refine (List.Perm.flatMap_right _ r1).nodup_iff.mpr ?_
            have e : ((Shape.node s.nextIdx ta tb) :: ts2).flatMap (Shape.symbols u.nodes) = (ta :: tb ::
                ts2).flatMap (Shape.symbols u.nodes) := by
              simp [Shape.symbols, Shape.leaves, List.filterMap_append]
            show (((Shape.node s.nextIdx ta tb) :: ts2).flatMap (Shape.symbols u.nodes)).Nodup
            rw [e]
            have : (ta :: tb :: ts2).flatMap (Shape.symbols u.nodes) = (ta :: tb :: ts2).flatMap
                (Shape.symbols s.nodes) := by
              apply List.flatMap_congr
              intro t ht
              exact Shape.symbols_congr (keep t ht)
            rw [this]; exact g4
        · show HeapOrdered u.key (heapPush u.key u.heap s.nextIdx)
          apply heapPush_ordered
          rw [hu_heap]
          exact o2.congr fun i hi => hkey i (hmem i (by simp [hi]))
        · show ((heapPush u.key u.heap s.nextIdx).map u.key).sum < _
          rw [((heapPush_perm u.heap s.nextIdx).map u.key).sum_eq]
          simp only [List.map_cons, List.sum_cons, hkn, hu_heap]
          have : hh2.map u.key = hh2.map s.key := List.map_congr_left fun i hi => hkey i (hmem i (by simp [hi]))
          rw [this]; omega
      have hfin : ∀ v : State, v.finishTree.heap = v.heap ∧ v.finishTree.nodes = v.nodes
          ∧ v.finishTree.draws = v.draws := by
        intro v; unfold State.finishTree; split <;> exact ⟨rfl, rfl, rfl⟩
      refine ⟨_, rfl, ?_, ?_, ?_, ?_⟩
      · apply inv_builder hF
        · intro e
          have := congrArg List.length e
          simp at this
        · rw [← hu]; exact hv
        · rw [← hu]; exact hb.noParse
        · rw [← hu]; exact hs
        · show u.ncount ≤ _; rw [ecnt]; simp [nodeCap]; omega
        · rw [← hu]; exact hr0
        · rw [← hu]; exact ho0
        · rw [← hu]; exact hw0
        · rw [← hu]; exact hct
        · rw [← hu]; exact hcode
        · rw [← hu]; exact h.packer
        · rw [← hu]; exact h.noError
      · simp only [State.hsize, (hfin _).1, State.pushHeap_heap, length_heapPush, hu_heap]
        omega
      · simp only [State.ncount, (hfin _).2.1, State.pushHeap_nodes]; rw [en]; simp
      · have ek : ∀ v : State, v.nodes = u.nodes → v.draws = u.draws → v.key = u.key := by
          intro v e1 e2; funext i; simp [State.key, State.weight, State.node, e1, e2]
        rw [ek _ (by rw [(hfin _).2.1]; rfl) (by rw [(hfin _).2.2]; rfl), (hfin _).1]
        show ((heapPush u.key u.heap s.nextIdx).map u.key).sum = _
        rw [((heapPush_perm u.heap s.nextIdx).map u.key).sum_eq]
        simp only [List.map_cons, List.sum_cons, hkn, hu_heap]
        have : hh2.map u.key = hh2.map s.key := List.map_congr_left fun i hi => hkey i (hmem i (by simp [hi]))
        rw [this]; omega

/-- So does the loop, down to one entry (R157). -/
theorem Inv.mergeAll {fuel : Nat} {s : State} (h : Inv s) (hf : s.hsize ≤ fuel + 1) : ∃ t, mergeAll fuel s = .next t
    ∧ Inv t ∧ (1 ≤ s.hsize → t.hsize = 1 ∧ t.ncount + 1 = s.ncount + s.hsize) ∧ (t.heap.map t.key).sum =
        (s.heap.map s.key).sum := by
  induction fuel generalizing s with
  | zero => exact ⟨s, rfl, h, fun h1 => by omega, rfl⟩
  | succ fuel ih =>
    unfold Machine.mergeAll
    split
    · next h2 =>
      obtain ⟨u, e, hu, hsz, hcn, hsum⟩ := h.merge h2
      rw [e, andThen_next]
      obtain ⟨t, e2, ht, hsz2, hsum2⟩ := ih hu (by omega)
      exact ⟨t, e2, ht, fun _ => by have := hsz2 (by omega); omega, hsum2.trans hsum⟩
    · next h2 => exact ⟨s, rfl, h, fun h1 => by omega, rfl⟩

/-- The leaves seeded so far (R155). -/
structure Seeded (s0 : State) (pre : List Byte) (s : State) : Prop where
  nodes : s.nodes = pre.map fun a => Node.mkLeaf a (s0.freqOf a)
  heap : (s.heap.map BitVec.toNat).Perm (List.range pre.length)
  ordered : HeapOrdered s.key s.heap
  rest : s = { s0.invalidateTree with nodes := s.nodes, heap := s.heap }

/-- One pass of the seeding loop. -/
theorem Seeded.step {s0 s : State} {pre : List Byte} (h : Seeded s0 pre s) (a : Byte) (hl : pre.length < 511) :
    Seeded s0 (pre ++ [a]) (s.seedLeaf a) := by
  have hf : s.freqOf a = s0.freqOf a := State.freqOf_congr (by rw [h.rest]; rfl) a
  have hcnt : s.ncount = pre.length := by simp [State.ncount, h.nodes]
  have hidx : s.nextIdx.toNat = pre.length := by rw [State.nextIdx_toNat (by omega), hcnt]
  have hlive : ∀ i ∈ s.heap, i.toNat < s.ncount := by
    intro i hi
    have := (h.heap.mem_iff (a := i.toNat)).mp (List.mem_map_of_mem hi)
    rw [hcnt]; simpa using this
  unfold State.seedLeaf
  refine ⟨?_, ?_, ?_, ?_⟩
  · simp [h.nodes, hf]
  · simp only [State.pushHeap_heap, State.alloc_heap]
    have := (heapPush_perm (key := (s.alloc (Node.mkLeaf a (s.freqOf a))).key) s.heap s.nextIdx).map BitVec.toNat
    refine this.trans ?_
    simp only [List.map_cons, hidx, List.length_append, List.length_singleton, List.range_succ]
    exact (List.Perm.cons _ h.heap).trans (List.perm_append_singleton _ _).symm
  · show HeapOrdered (s.alloc _).key (heapPush (s.alloc _).key s.heap s.nextIdx)
    apply heapPush_ordered
    refine h.ordered.congr fun i hi => ?_
    have h1 := State.getElem?_of_live (hlive i hi)
    have h2 : (s.alloc (Node.mkLeaf a (s.freqOf a))).nodes[i.toNat]? = some (s.node i) := by
      rw [State.alloc_nodes, List.getElem?_append_left (hlive i hi), h1]
    simp [State.key, State.weight, State.node_of_getElem? h2]
  · rw [h.rest]; rfl

/-- The seeding loop. -/
theorem Seeded.fold {s0 s : State} {pre : List Byte} (l : List Byte) (h : Seeded s0 pre s) (hl :
    pre.length + l.length ≤ 511) : Seeded s0 (pre ++ l) (l.foldl State.seedLeaf s) := by
  induction l generalizing pre s with
  | nil => simpa using h
  | cons a l ih =>
    simp only [List.length_cons] at hl
    have := ih (h.step a (by omega)) (by simp; omega)
    simpa using this

/-- The seeding of R155. -/
theorem seeded_seed (s : State) : Seeded s s.presentSymbols
    (s.presentSymbols.foldl State.seedLeaf s.invalidateTree) := by
  have h0 : Seeded s [] s.invalidateTree := ⟨rfl, by simp, by simp [HeapOrdered], rfl⟩
  have hl : s.presentSymbols.length ≤ 256 := by
    have := List.length_filter_le (fun a => decide (s.freqOf a ≠ 0)) allSymbols
    rw [length_allSymbols] at this; exact this
  have := Seeded.fold s.presentSymbols h0 (by simp; omega)
  simpa using this

/-- The symbols with a count are distinct. -/
theorem presentSymbols_nodup (s : State) : s.presentSymbols.Nodup := by
  unfold State.presentSymbols
  apply List.Nodup.filter
  exact allSymbols_sorted.imp (fun {a b} h e => by subst e; exact absurd h (by simp))

/-- Absent symbols add nothing. -/
theorem sum_filter_zero (s : State) (l : List Byte) : ((l.filter fun a => s.freqOf a ≠ 0).map fun a =>
    (s.freqOf a).toNat).sum = (l.map fun a => (s.freqOf a).toNat).sum := by
  induction l with
  | nil => rfl
  | cons a l ih =>
    rw [List.filter_cons]
    split
    · simp only [List.map_cons, List.sum_cons, ih]
    · next h => simp at h; simp only [List.map_cons, List.sum_cons, ih, h]; simp

/-- The total of the counts is that of the symbols with a count. -/
theorem freqTotal_eq_present (s : State) : (s.presentSymbols.map fun a =>
    (s.freqOf a).toNat).sum = s.freqTotal := sum_filter_zero s allSymbols

/-- The heap's weights add up to the counts seeded. -/
theorem Seeded.sum {s0 s : State} {pre : List Byte} (h : Seeded s0 pre s) (_hl : pre.length < 512) :
    (s.heap.map s.key).sum = (pre.map fun a => (s0.freqOf a).toNat).sum := by
  have e : s.heap.map s.key = (s.heap.map BitVec.toNat).map fun i => (((pre.map fun a => Node.mkLeaf a
      (s0.freqOf a))[i]?).map (fun n => n.w.toNat)).getD 0 := by
    rw [List.map_map]
    apply List.map_congr_left
    intro i hi
    have hlive : i.toNat < s.ncount := by
      have := (h.heap.mem_iff (a := i.toNat)).mp (List.mem_map_of_mem hi)
      simp [State.ncount, h.nodes]; simpa using this
    have h1 := State.getElem?_of_live hlive
    simp only [Function.comp]
    rw [← h.nodes, h1]; rfl
  rw [e, (h.heap.map _).sum_eq]
  congr 1
  apply List.ext_getElem
  · simp
  · intro i h1 h2
    simp at h2
    simp [h2, Node.mkLeaf]

/-- The leaves are a forest. -/
theorem Seeded.forest {s0 s : State} {pre : List Byte} (h : Seeded s0 pre s) (hl : pre.length < 512) (hnd :
    pre.Nodup) (htot : (pre.map fun a => (s0.freqOf a).toNat).sum < 2^64) : Forest s := by
  have hlive : ∀ i ∈ s.heap, i.toNat < pre.length := by
    intro i hi
    have := (h.heap.mem_iff (a := i.toNat)).mp (List.mem_map_of_mem hi)
    simpa using this
  have hind : (s.heap.map Shape.leaf).flatMap Shape.indices = s.heap := by
    induction s.heap with
    | nil => rfl
    | cons a l ih => simpa [Shape.indices] using ih
  refine ⟨⟨s.heap.map Shape.leaf, ?_, ?_, ?_, ?_⟩, h.ordered, ?_⟩
  · intro t ht
    rw [List.mem_map] at ht
    obtain ⟨i, hi, rfl⟩ := ht
    have := hlive i hi
    refine ⟨rfl, ⟨Node.mkLeaf pre[i.toNat] (s0.freqOf pre[i.toNat]), ?_, rfl⟩, trivial⟩
    · rw [h.nodes]; simp [this]
  · simp
    exact List.map_id' _
  · rw [hind]; unfold CoversArena State.ncount; rw [h.nodes, List.length_map]; exact h.heap
  · have e : (s.heap.map Shape.leaf).flatMap (Shape.symbols s.nodes) = s.heap.map fun i =>
      (pre[i.toNat]?).getD 0 := by
      have : ∀ l : List NodeIdx, (∀ i ∈ l, i.toNat < pre.length) → (l.map Shape.leaf).flatMap
          (Shape.symbols s.nodes) = l.map fun i => (pre[i.toNat]?).getD 0 := by
        intro l
        induction l with
        | nil => simp
        | cons a l ih =>
          intro hh
          have h1 := hh a (by simp)
          have := ih fun i hi => hh i (by simp [hi])
          simp only [List.map_cons, List.flatMap_cons, this]
          simp [Shape.symbols, Shape.leaves, h.nodes, h1, Node.mkLeaf]
      exact this _ hlive
    rw [e]
    have e2 : (s.heap.map fun i => (pre[i.toNat]?).getD 0) = (s.heap.map BitVec.toNat).map fun i =>
        (pre[i]?).getD 0 := by simp
    rw [e2, (h.heap.map _).nodup_iff]
    have e3 : (List.range pre.length).map (fun i => (pre[i]?).getD 0) = pre := by
      apply List.ext_getElem
      · simp
      · intro i h1 h2; simp [h2]
    rw [e3]; exact hnd
  · rw [h.sum hl]; exact htot

/-- What passing the checks of R155 says. -/
theorem seedError_none {s : State} (h : s.seedError = none) : s.presentSymbols.length ≠ 0 ∧ s.freqTotal ≤ 2^64-1 := by
  unfold State.seedError at h
  split at h
  · cases h
  · split at h
    · cases h
    · split at h
      · cases h
      · exact ⟨by assumption, by omega⟩

/-- A failed check is an error. -/
theorem seedError_ne {s : State} {c} (h : s.seedError = some c) : c ≠ .noError := by
  unfold State.seedError at h
  split at h
  · cases h; decide
  · split at h
    · cases h; decide
    · split at h
      · cases h; decide
      · cases h

/-- Finishing a tree keeps heap, arena and draws. -/
theorem finishTree_keep (v : State) : v.finishTree.heap = v.heap ∧ v.finishTree.nodes = v.nodes
    ∧ v.finishTree.draws = v.draws := by
  unfold State.finishTree; split <;> exact ⟨rfl, rfl, rfl⟩

/-- Seeding gives the invariant. -/
theorem seed_spec {s : State} (hp : s.pacc.toNat < 2^s.paccn.toNat) (he : s.err = .noError → s.errop = 0) (h :
    s.seedError = none) : Inv s.seed ∧ s.seed.hsize = s.presentSymbols.length
        ∧ s.seed.ncount = s.presentSymbols.length ∧ (s.seed.heap.map s.seed.key).sum = s.freqTotal := by
  obtain ⟨h1, h2⟩ := seedError_none h
  have h3 := presentSymbols_length s
  have hS := seeded_seed s
  have hF := hS.forest (by omega) (presentSymbols_nodup s) (by rw [freqTotal_eq_present]; omega)
  have hlen := hS.heap.length_eq
  simp at hlen
  unfold State.seed
  generalize hu : s.presentSymbols.foldl State.seedLeaf s.invalidateTree = u at *
  obtain ⟨k1, k2, k3⟩ := finishTree_keep u
  have hr := hS.rest
  have hcnt : u.ncount = s.presentSymbols.length := by simp [State.ncount, hS.nodes]
  refine ⟨?_, ?_, ?_, ?_⟩
  · apply inv_builder hF
    · intro e; rw [e] at hlen; simp at hlen; omega
    · rw [hr]; rfl
    · rw [hr]; exact ⟨rfl, rfl⟩
    · rw [hr]; rfl
    · rw [hcnt]; simp [nodeCap]; omega
    · rw [hr]; rfl
    · rw [hr]; rfl
    · rw [hr]; rfl
    · rw [hr]; rfl
    · rw [hr]; rfl
    · rw [hr]; exact hp
    · rw [hr]; exact he
  · simp [State.hsize, k1, hlen]
  · simp [State.ncount, k2]; exact hcnt
  · have : u.finishTree.key = u.key := by funext i; simp [State.key, State.weight, State.node, k2, k3]
    rw [this, k1, hS.sum (by omega), freqTotal_eq_present]

end Sys2Proof.Machine
end

