-- ==== Sys2Proof/Laws/InvariantCommands.lean ====
section
/-!
SUPPORT. The commands that build no tree keep the invariant: the packer, the walk, the code table, and those that write one register.
-/

namespace Sys2Proof.Machine

/-- The value of the accumulator after a shift. -/
theorem shiftIn_toNat (a : Byte) (c : Bool) (h : a.toNat < 128) : (shiftIn a c).toNat = 2 * a.toNat + c.toNat := by
  have e : shiftIn a c = a <<< 1 ||| (BitVec.ofBool c).setWidth 8 := rfl
  rw [e, BitVec.toNat_or, BitVec.toNat_shiftLeft, BitVec.toNat_setWidth, Nat.shiftLeft_eq, BitVec.toNat_ofBool]
  have hc : c.toNat < 2 := by cases c <;> decide
  rw [Nat.mod_eq_of_lt (by omega), Nat.mod_eq_of_lt (by omega), Nat.mul_comm a.toNat,
    ← Nat.two_pow_add_eq_or_of_lt (i := 1) (by omega)]

/-- Packing a bit keeps the packer's clause of the invariant and writes the packer and the output alone. -/
theorem packBit_spec (s : State) (c : Bool) (h : s.pacc.toNat < 2^s.paccn.toNat) :
   (s.packBit c).pacc.toNat < 2^(s.packBit c).paccn.toNat ∧ s.packBit c =
       { s with pacc := (s.packBit c).pacc, paccn := (s.packBit c).paccn, out := (s.packBit c).out, outcnt := (s.packBit c).outcnt } := by
  have hn := s.paccn.isLt
  unfold State.packBit
  split
  · simp [State.emit]
  · next hne =>
    refine ⟨?_, rfl⟩
    have h1 : (s.paccn + 1).toNat = s.paccn.toNat + 1 := by
      rw [BitVec.toNat_add]
      apply Nat.mod_eq_of_lt
      simp; omega
    show (shiftIn s.pacc c).toNat < 2^(s.paccn + 1).toNat
    have h2 : 2^s.paccn.toNat ≤ 2^6 := Nat.pow_le_pow_right (by decide) (by omega)
    rw [h1, shiftIn_toNat _ _ (by omega), Nat.pow_succ]
    have hc : c.toNat < 2 := by cases c <;> decide
    omega

/-- So does packing bits. -/
theorem packBits_spec (bits : Bits) (s : State) (h : s.pacc.toNat < 2^s.paccn.toNat) :
   (s.packBits bits).pacc.toNat < 2^(s.packBits bits).paccn.toNat ∧ s.packBits bits =
       { s with pacc := (s.packBits bits).pacc, paccn := (s.packBits bits).paccn, out := (s.packBits bits).out, outcnt := (s.packBits bits).outcnt } := by
  induction bits generalizing s with
  | nil => exact ⟨h, rfl⟩
  | cons c bits ih =>
    have h1 := packBit_spec s c h
    have h2 := ih _ h1.1
    refine ⟨h2.1, ?_⟩
    have e : s.packBits (c :: bits) = (s.packBit c).packBits bits := rfl
    rw [e]
    generalize (s.packBit c).packBits bits = u at *
    rw [h2.2, h1.2]

theorem Inv.packSym {s t : State} (h : Inv s) (a : Byte) (he : execPackSym a s = .next t) : Inv t := by
  rcases unlessSticky_eq_next he with ⟨-, rfl⟩ | ⟨hc, he⟩
  · exact h
  · split at he
    · cases he; exact h.raise (by decide) _
    · split at he
      · cases he; exact h.raise (by decide) _
      · cases he
        have := packBits_spec (s.codeOf a).bits s h.packer
        generalize s.packBits _ = t at *
        obtain ⟨h1, h2⟩ := this
        rw [h2]
        refine h.keep ⟨rfl, rfl, rfl, rfl, rfl, rfl, rfl, rfl⟩ rfl rfl h1 (fun hv =>
            (h.noTree hv).2.2) h.walk h.noError

theorem Inv.packFlush {s t : State} (h : Inv s) (he : execPackFlush s = .next t) : Inv t := by
  rcases unlessSticky_eq_next he with ⟨-, rfl⟩ | ⟨hc, he⟩
  · exact h
  · split at he <;> cases he <;>
    exact h.keep ⟨rfl, rfl, rfl, rfl, rfl, rfl, rfl, rfl⟩ rfl rfl (by simp) (fun hv =>
        (h.noTree hv).2.2) h.walk h.noError

/-- What one bit of the walk does. -/
theorem walkBit_spec (s : State) (c : Bool) :
   ((s.walkBit c).walk = s.walk ∨ (s.walkBit c).walk = s.root ∨ s.isLeaf (s.walkBit c).walk = false ∧
       (s.walkBit c).walk = s.child s.walk c) ∧ s.walkBit c =
           { s with walk := (s.walkBit c).walk, remain := (s.walkBit c).remain, out := (s.walkBit c).out, outcnt := (s.walkBit c).outcnt } := by
  unfold State.walkBit
  split
  · exact ⟨.inl rfl, rfl⟩
  · split
    · exact ⟨.inr (.inl rfl), rfl⟩
    · next h =>  exact ⟨.inr (.inr ⟨by simpa using h, rfl⟩), rfl⟩

/-- The child of an internal node of a tree is a node of the tree. -/
theorem Shape.child_mem {nodes : List Node} {t : Shape} (hc : t.complete = true) (ha : t.InArena nodes) {i : NodeIdx}
    {n : Node} (hi : i ∈ t.indices) (hn : nodes[i.toNat]? = some n) (hk : n.kind = .internal) :
   n.l ∈ t.indices ∧ n.r ∈ t.indices := by
  induction t with
  | hole => cases hi
  | leaf j =>
    simp [Shape.indices] at hi; subst hi
    obtain ⟨n', h1, h2⟩ := ha
    rw [h1] at hn; cases hn; rw [hk] at h2; cases h2
  | node j l r ihl ihr =>
    simp only [Shape.complete, Bool.and_eq_true] at hc
    obtain ⟨⟨n', h1, h2, h3, h4⟩, hal, har⟩ := ha
    simp only [Shape.indices, List.mem_cons, List.mem_append] at hi ⊢
    rcases hi with rfl | hi | hi
    · rw [h1] at hn; cases hn
      rw [h3 (Shape.complete_ne_hole hc.1), h4 (Shape.complete_ne_hole hc.2)]
      exact ⟨.inr (.inl (Shape.top_mem hc.1)), .inr (.inr (Shape.top_mem hc.2))⟩
    · have := ihl hc.1 hal hi
      exact ⟨.inr (.inl this.1), .inr (.inl this.2)⟩
    · have := ihr hc.2 har hi
      exact ⟨.inr (.inr this.1), .inr (.inr this.2)⟩

/-- R51 (c). -/
def WalkOk (s : State) : Prop := s.walk = s.root ∨ ∃ n, s.nodes[s.walk.toNat]? = some n ∧ n.kind = .internal

/-- Walking bits keeps R51 (c). -/
theorem walkBits_spec (bits : Bits) (s : State) {sh : Shape} (ht : TreeIs s sh) (hw : WalkOk s) (hr :
    s.isLeaf s.root = false) :
   WalkOk (s.walkBits bits) ∧ s.walkBits bits =
       { s with walk := (s.walkBits bits).walk, remain := (s.walkBits bits).remain, out := (s.walkBits bits).out, outcnt := (s.walkBits bits).outcnt } := by
  induction bits generalizing s with
  | nil => exact ⟨hw, rfl⟩
  | cons c bits ih =>
    have h1 := walkBit_spec s c
    have e : s.walkBits (c :: bits) = (s.walkBit c).walkBits bits := rfl
    have hroot : s.root.toNat < s.ncount := by rw [← ht.2.2.1]; exact ht.2.1.live _ (Shape.top_mem ht.1)
    have hw' : WalkOk (s.walkBit c) := by
      rw [h1.2]
      rcases h1.1 with h | h | ⟨hl, h⟩
      · unfold WalkOk; simp only; rw [h]; exact hw
      · exact .inl h
      · refine .inr ?_
        simp only
        have hwi : ∃ n, s.nodes[s.walk.toNat]? = some n ∧ n.kind = .internal := by
          rcases hw with hw | hw
          · rw [hw]
            refine ⟨_, State.getElem?_of_live hroot, ?_⟩
            unfold State.isLeaf at hr
            cases hk : (s.node s.root).kind <;> simp [hk] at hr ⊢
          · exact hw
        obtain ⟨n, hn, hk⟩ := hwi
        have hmem : s.walk ∈ sh.indices := by
          rw [ht.2.2.2.mem_iff]; exact (List.getElem?_eq_some_iff.mp hn).1
        have := Shape.child_mem ht.1 ht.2.1 hmem hn hk
        have hmem2 : s.child s.walk c ∈ sh.indices := by
          unfold State.child; rw [State.node_of_getElem? hn]; cases c <;> simp [this]
        rw [ht.2.2.2.mem_iff] at hmem2
        rw [h] at hl ⊢
        refine ⟨_, State.getElem?_of_live hmem2, ?_⟩
        unfold State.isLeaf at hl
        cases hk : (s.node (s.child s.walk c)).kind <;> simp [hk] at hl ⊢
    have htr : TreeIs (s.walkBit c) sh := by
      rw [h1.2]; exact ht
    have hrr : (s.walkBit c).isLeaf (s.walkBit c).root = false := by rw [h1.2]; exact hr
    have h2 := ih _ htr hw' hrr
    refine ⟨h2.1, ?_⟩
    rw [e]
    generalize (s.walkBit c).walkBits bits = u at *
    rw [h2.2, h1.2]

theorem Inv.unpackByte {s t : State} (h : Inv s) (b : Byte) (he : execUnpackByte b s = .next t) : Inv t := by
  rcases unlessSticky_eq_next he with ⟨-, rfl⟩ | ⟨hc, he⟩
  · exact h
  · split at he
    · cases he; exact h.raise (by decide) _
    · split at he
      · cases he; exact h
      · next hv hn =>
        have he := Host.Outcome.next.inj he
        have hv' : s.tvalid = true := by simpa using hv
        obtain ⟨sh, hsh⟩ := h.treeIs hv'
        have := walkBits_spec (byteBits b) s hsh (h.walk hv') (by simp at hn; exact hn.2)
        rw [he] at this
        obtain ⟨h1, h2⟩ := this
        have e1 : t.nodes = s.nodes := by rw [h2]
        have e2 : t.root = s.root := by rw [h2]
        rw [h2]
        refine h.keep ⟨rfl, rfl, rfl, rfl, rfl, rfl, rfl, rfl⟩ rfl rfl h.packer (fun hv => absurd hv
            (by simp [hv'])) ?_ h.noError
        intro _
        unfold WalkOk at h1; rw [e1, e2] at h1; exact h1

/-- Writing counts, `REMAIN`, the output or the host's side keeps the invariant. -/
theorem Inv.simple {s t : State} (h : Inv s) (e : t =
    { s with freq := t.freq, remain := t.remain, out := t.out, outcnt := t.outcnt, inbox := t.inbox, reads := t.reads, draws := t.draws }) : Inv t := by
  rw [e]
  exact h.keep ⟨rfl, rfl, rfl, rfl, rfl, rfl, rfl, rfl⟩ rfl rfl h.packer (fun hv =>
      (h.noTree hv).2.2) h.walk h.noError

/-- A recorded path has no bit above its length. -/
theorem ofPath_ok (p : Bits) (h : p.length ≤ 255) :
    (CodeEntry.ofPath p).cbits.toNat < 2^(CodeEntry.ofPath p).clen.toNat := by
  simp only [CodeEntry.ofPath, BitVec.toNat_ofNat]
  have := bitsValue_lt p
  rw [Nat.mod_eq_of_lt (show p.length < 2^8 by omega)]
  exact lt_of_le_of_lt (Nat.mod_le _ _) this

theorem Inv.codeBuild {s t : State} (h : Inv s) (he : execCodeBuild s = .next t) : Inv t := by
  rcases unlessSticky_eq_next he with ⟨-, rfl⟩ | ⟨hc, he⟩
  · exact h
  · split at he
    · cases he; exact h.raise (by decide) _
    · next hv =>
      have hv' : s.tvalid = true := by simpa using hv
      split at he
      · cases he
      · next c hcs =>
        split at he
        · cases he; exact h.raise (by decide) _
        · next hd =>
          have he := Host.Outcome.next.inj he
          obtain ⟨sh, hsh⟩ := h.treeIs hv'
          have hcodes := hsh.codes h.arena
          rw [hcs] at hcodes
          have hcl : ∀ e ∈ c, e.2.length ≤ 255 := by
            cases hcodes
            intro e he
            rw [List.mem_map] at he
            obtain ⟨x, hx, rfl⟩ := he
            have h1 := Shape.paths_length _ _ _ hx
            have h2 := hsh.height_le h.arena
            simp [maxLen] at h1 h2 ⊢; omega
          have hspec := foldl_record_spec c s.clearCodes
          have hent := foldl_record_entries c s.clearCodes
          unfold State.fillCodes at he
          have e2 : t = { s with code := (c.foldl State.recordCode s.clearCodes).code, ctvalid := true } := by
            rw [← he, hspec]; rfl
          have e1 : SameTree s t := by rw [e2]; exact ⟨rfl, rfl, rfl, rfl, rfl, rfl, rfl, rfl⟩
          have en : t.nodes = s.nodes := e1.1
          exact {
            phase := h.phase.congr e1
            arena := by have := h.arena; rw [e2]; exact this
            packer := by rw [e2]; exact h.packer
            noTree := by rw [e2]; simp [hv']
            walk := by rw [e2]; exact h.walk
            codesOfTree := by rw [e2]; simp [hv']
            table := by
              intro _
              refine ⟨c, ?_, by simpa using hd, ?_⟩
              · rw [codes_congr hsh h.arena en (by rw [e2]), hcs]
              · rw [e2]; exact foldl_record_congr c rfl
            clearTable := by rw [e2]; simp
            entries := fun a => by
              have e3 : t.codeOf a = (c.foldl State.recordCode s.clearCodes).codeOf a := State.codeOf_congr
                  (by rw [e2]) a
              rw [e3]
              rcases hent a with h1 | ⟨p, h1, h2⟩
              · rw [h1, State.codeOf_clearCodes]; simp [CodeEntry.cleared]
              · rw [h2]; exact ⟨by simp [CodeEntry.ofPath], ofPath_ok p (hcl _ h1)⟩
            noError := by rw [e2]; exact h.noError }

theorem Inv.freqClear {s t : State} (h : Inv s) (he : execFreqClear s = .next t) : Inv t := by
  rcases unlessSticky_eq_next he with ⟨-, rfl⟩ | ⟨hc, he⟩
  · exact h
  · cases he; exact h.simple rfl

theorem Inv.freqInc {s t : State} (h : Inv s) (a) (he : execFreqInc a s = .next t) : Inv t := by
  rcases unlessSticky_eq_next he with ⟨-, rfl⟩ | ⟨hc, he⟩
  · exact h
  · split at he
    · cases he; exact h.raise (by decide) _
    · cases he; exact h.simple rfl

theorem Inv.freqSetLo {s t : State} (h : Inv s) (a v) (he : execFreqSetLo a v s = .next t) : Inv t := by
  rcases unlessSticky_eq_next he with ⟨-, rfl⟩ | ⟨hc, he⟩
  · exact h
  · cases he; exact h.simple rfl

theorem Inv.freqSetHi {s t : State} (h : Inv s) (a v) (he : execFreqSetHi a v s = .next t) : Inv t := by
  rcases unlessSticky_eq_next he with ⟨-, rfl⟩ | ⟨hc, he⟩
  · exact h
  · cases he; exact h.simple rfl

theorem Inv.emitByte {s t : State} (h : Inv s) (a) (he : execEmitByte a s = .next t) : Inv t := by
  rcases unlessSticky_eq_next he with ⟨-, rfl⟩ | ⟨hc, he⟩
  · exact h
  · cases he; exact h.simple rfl

theorem Inv.emitAll {s : State} (h : Inv s) (bs) : Inv (s.emitAll bs) := by
  apply h.simple; rw [State.emitAll_eq]

theorem Inv.countEmit {s t : State} (h : Inv s) (he : execCountEmit s = .next t) : Inv t := by
  rcases unlessSticky_eq_next he with ⟨-, rfl⟩ | ⟨hc, he⟩
  · exact h
  · split at he
    · cases he; exact h.raise (by decide) _
    · split at he
      · cases he; exact h.raise (by decide) _
      · have he := Host.Outcome.next.inj he
        rw [← he]; exact h.emitAll _

theorem Inv.treeSer {s t : State} (h : Inv s) (he : execTreeSer s = .next t) : Inv t := by
  rcases unlessSticky_eq_next he with ⟨-, rfl⟩ | ⟨hc, he⟩
  · exact h
  · split at he
    · cases he; exact h.raise (by decide) _
    · split at he
      · cases he
      · have he := Host.Outcome.next.inj he
        rw [← he]; exact h.emitAll _

theorem Inv.deserEnd {s t : State} (h : Inv s) (he : execDeserEnd s = .next t) : Inv t := by
  rcases unlessSticky_eq_next he with ⟨-, rfl⟩ | ⟨hc, he⟩
  · exact h
  · split at he <;> cases he <;> first | exact h | exact h.raise (by decide) _

theorem Inv.unpackEnd {s t : State} (h : Inv s) (he : execUnpackEnd s = .next t) : Inv t := by
  rcases unlessSticky_eq_next he with ⟨-, rfl⟩ | ⟨hc, he⟩
  · exact h
  · split at he <;> cases he <;> first | exact h | exact h.raise (by decide) _

theorem Inv.unpackSym {s t : State} (h : Inv s) (he : execUnpackSym s = .next t) : Inv t := by
  rcases unlessSticky_eq_next he with ⟨-, rfl⟩ | ⟨hc, he⟩
  · exact h
  · split at he
    · cases he; exact h.raise (by decide) _
    · split at he
      · cases he; exact h.raise (by decide) _
      · split at he
        · cases he; exact h
        · cases he; exact h.simple rfl

theorem Inv.countShift {s t : State} (h : Inv s) (b) (he : execCountShift b s = .next t) : Inv t := by
  rcases unlessSticky_eq_next he with ⟨-, rfl⟩ | ⟨hc, he⟩
  · exact h
  · cases he; exact h.simple rfl

theorem Inv.unpackInit {s t : State} (h : Inv s) (he : execUnpackInit s = .next t) : Inv t := by
  rcases unlessSticky_eq_next he with ⟨-, rfl⟩ | ⟨hc, he⟩
  · exact h
  · cases he
    exact h.keep ⟨rfl, rfl, rfl, rfl, rfl, rfl, rfl, rfl⟩ rfl rfl h.packer (fun hv => (h.noTree hv).1)
        (fun _ => .inl rfl) h.noError

theorem Inv.clrerr {s t : State} (h : Inv s) (he : execClrerr s = .next t) : Inv t := by
  cases he
  exact h.keep ⟨rfl, rfl, rfl, rfl, rfl, rfl, rfl, rfl⟩ rfl rfl h.packer (fun hv => (h.noTree hv).2.2) h.walk
      (fun _ => rfl)

theorem Inv.deserStartE {s t : State} (h : Inv s) (he : execDeserStart s = .next t) : Inv t := by
  rcases unlessSticky_eq_next he with ⟨-, rfl⟩ | ⟨hc, he⟩
  · exact h
  · cases he; exact h.deserStart

end Sys2Proof.Machine
end

