-- ==== Sys2Proof/Laws/InvariantParse.lean ====
section
/-!
SUPPORT. The deserializer keeps the invariant (R213).
-/

namespace Sys2Proof.Machine

/-- In a parse state the parse phase holds. -/
theorem Inv.parse {s : State} (h : Inv s) (hs : s.dsState = .marker ∨ s.dsState = .sym) : ParsePhase s := by
  have := h.phase
  unfold PhaseHolds at this
  rcases hs with hs | hs <;> rw [hs] at this <;> exact this

theorem getElem?_modify_keep {nodes : List Node} {f : Node → Node} {k j : Nat} {n : Node} (hn : nodes[j]? = some n) :
   (nodes.modify k f)[j]? = some (if k = j then f n else n) := by
  rw [List.getElem?_modify, hn]; split <;> rfl

/-- A parse phase without a tree, with the rest clear, meets the invariant. -/
theorem inv_parse {t : State} (hp : ParsePhase t) (hs : t.dsState = .marker ∨ t.dsState = .sym) (hcap :
    t.ncount ≤ nodeCap)
   (hroot : t.root = 0) (ho : t.torigin = .builder) (hw : t.walk = 0) (hct : t.ctvalid = false) (hcode :
       t.code = Vector.replicate 256 CodeEntry.cleared)
   (hpk : t.pacc.toNat < 2^t.paccn.toNat) (he : t.err = .noError → t.errop = 0) : Inv t := {
    phase := by unfold PhaseHolds; rcases hs with hs | hs <;> rw [hs] <;> exact hp
    arena := hcap
    packer := hpk
    noTree := fun _ => ⟨hroot, ho, hw⟩
    walk := by rw [hp.noTree]; simp
    codesOfTree := by simp [hct]
    table := by simp [hct]
    clearTable := fun _ => hcode
    entries := fun a => by
      have : t.codeOf a = CodeEntry.cleared := by simp [State.codeOf, hcode]
      rw [this]; simp [CodeEntry.cleared]
    noError := he }

/-- A symbol byte keeps the invariant (R213). -/
theorem Inv.takeSymbol {s : State} (h : Inv s) (hs : s.dsState = .sym) (b : Byte) : Inv (s.takeSymbol b) := by
  have hp := h.parse (.inr hs)
  obtain ⟨hcur, n, hn, hk⟩ := hp.symbol hs
  obtain ⟨sh, h1, h2, h3, h4⟩ := hp.parsed
  have hv := hp.noTree
  obtain ⟨hr0, ho0, hw0⟩ := h.noTree hv
  obtain ⟨hct, hcode⟩ := h.noCodes hv
  have hcnt : (s.modifyNode s.dsCur fun n => { n with sym := b }).ncount = s.ncount := by simp [State.ncount]
  have ha : sh.InArena (s.modifyNode s.dsCur fun n => { n with sym := b }).nodes := by
    apply h2.mono
    intro i _ m hm
    refine ⟨_, getElem?_modify_keep hm, ?_⟩
    split <;> exact ⟨rfl, rfl, rfl⟩
  unfold State.takeSymbol
  split
  · next hstk =>
    have hne : sh ≠ .hole := by rintro rfl; simp [Shape.indices] at h4; omega
    have hcomp := Shape.complete_of_frames h1 hne (h3.trans hstk)
    exact {
      phase := ⟨⟨sh, hcomp, ha, by rw [h4]; congr 1; simp [State.ncount]⟩, ⟨rfl, rfl, rfl⟩, hp.noHeap, hstk⟩
      arena := by have := h.arena; simpa [State.ncount] using this
      packer := h.packer
      noTree := by simp
      walk := fun _ => .inl rfl
      codesOfTree := by simp
      table := by simp [hct]
      clearTable := fun _ => hcode
      entries := h.entries
      noError := h.noError }
  · next f rest hstk =>
    refine inv_parse ?_ (.inl rfl) ?_ hr0 ho0 hw0 hct hcode h.packer h.noError
    · refine ⟨⟨sh, h1, ha, h3, ?_⟩, hv, hp.noHeap, by simp, ?_⟩
      · rw [h4]; congr 1; simp [State.ncount]
      · intro _ e; simp [hstk] at e
    · have := h.arena; simpa [State.ncount] using this

/-- A marker byte fills the next hole of the parse (R213). -/
theorem takeMarker_shape {s : State} (h : Inv s) (hs : s.dsState = .marker) (hcap : s.ncount < 511) (b : Byte) :
   let x : Shape := if b = leafMark then .leaf s.nextIdx else .node s.nextIdx .hole .hole
   ∃ sh : Shape, sh.leftFilled ∧ sh.complete = false ∧ sh.frames = s.dsStk ∧ (sh.fill x).leftFilled ∧
       (sh.fill x).InArena ((s.alloc (Node.ofMarker b)).attach s.nextIdx).nodes ∧
           (sh.fill x).frames = x.frames ++ afterAttach s.dsStk ∧
     (sh.fill x).indices.map BitVec.toNat = List.range (s.ncount + 1) ∧ sh.indices.length = s.ncount := by
  intro x
  have hp := h.parse (.inl hs)
  obtain ⟨sh, h1, h2, h3, h4⟩ := hp.parsed
  have hidx : s.nextIdx.toNat = s.ncount := State.nextIdx_toNat (by omega)
  have hx : x ≠ .hole := by simp only [x]; split <;> simp
  have hxt : x.top = s.nextIdx := by simp only [x]; split <;> rfl
  have hxi : x.indices = [s.nextIdx] := by simp only [x]; split <;> rfl
  have hxl : x.leftFilled := by simp only [x]; split <;> simp [Shape.leftFilled]
  have hlen : sh.indices.length = s.ncount := by have := congrArg List.length h4; simpa using this
  have hc : sh.complete = false := by
    cases hc : sh.complete
    · rfl
    · have hf := Shape.frames_complete hc
      have h0 := hp.marker hs (h3.symm.trans hf)
      have := Shape.height_le hc
      omega
  have hnd : sh.indices.Nodup := List.Nodup.of_map BitVec.toNat (h4 ▸ List.nodup_range)
  have hlive : ∀ i ∈ sh.indices, i.toNat < s.ncount := h2.live
  have hstklive : ∀ f ∈ s.dsStk, f.node.toNat < s.ncount := fun f hf => hlive _ (Shape.frames_sub sh f (h3 ▸ hf))
  have halloc : ∀ (i : NodeIdx) n, s.nodes[i.toNat]? = some n → (s.alloc
      (Node.ofMarker b)).nodes[i.toNat]? = some n := by
    intro i n hn
    simp only [State.alloc_nodes]
    rw [List.getElem?_append_left (List.getElem?_eq_some_iff.mp hn).1, hn]
  have hnew : (s.alloc (Node.ofMarker b)).nodes[s.nextIdx.toNat]? = some (Node.ofMarker b) := by
    simp only [State.alloc_nodes]
    rw [hidx]; simp [State.ncount]
  -- nodes of attach
  have hxarena : ∀ nodes' : List Node, nodes'[s.nextIdx.toNat]? = some (Node.ofMarker b) → x.InArena nodes' := by
    intro nodes' hn'
    simp only [x]
    split
    · next hb => exact ⟨_, hn', by simp [Node.ofMarker, hb]⟩
    · next hb => exact ⟨⟨_, hn', by simp [Node.ofMarker, hb], fun e => absurd rfl e, fun e => absurd rfl e⟩, trivial,
        trivial⟩
  have hA : (sh.fill x).InArena ((s.alloc (Node.ofMarker b)).attach s.nextIdx).nodes := by
    unfold State.attach
    split
    · next hstk =>
      simp at hstk
      apply Shape.fill_inArena (hxarena _ hnew) h1 hc hnd h2
      · intro i hi _ n hn; exact ⟨n, halloc i n hn, rfl, rfl, rfl⟩
      · intro p hp'; rw [h3, hstk] at hp'; cases hp'
      · intro p hp'; rw [h3, hstk] at hp'; cases hp'
    · next p rest hstk =>
      simp at hstk
      have hpl := hstklive ⟨p, .left⟩ (by simp [hstk])
      simp at hpl
      apply Shape.fill_inArena (hxarena _ ?_) h1 hc hnd h2
      · intro i hi hi' n hn
        refine ⟨_, getElem?_modify_keep (halloc i n hn), ?_⟩
        rw [if_neg]; exact ⟨rfl, rfl, rfl⟩
        rw [h3, hstk] at hi'
        have := hi' ⟨p, .left⟩ rfl
        intro e; exact this (BitVec.eq_of_toNat_eq e)
      · intro q hq n hn
        rw [h3, hstk] at hq; cases hq
        refine ⟨_, getElem?_modify_keep (halloc p n hn), ?_⟩
        rw [if_pos rfl]; exact ⟨rfl, hxt.symm, rfl⟩
      · intro q hq n hn
        rw [h3, hstk] at hq; cases hq
      · show ((s.alloc (Node.ofMarker b)).nodes.modify p.toNat _)[s.nextIdx.toNat]? = _
        rw [getElem?_modify_keep hnew, if_neg (by rw [hidx]; omega)]
    · next p rest hstk =>
      simp at hstk
      have hpl := hstklive ⟨p, .right⟩ (by simp [hstk])
      simp at hpl
      apply Shape.fill_inArena (hxarena _ ?_) h1 hc hnd h2
      · intro i hi hi' n hn
        refine ⟨_, getElem?_modify_keep (halloc i n hn), ?_⟩
        rw [if_neg]; exact ⟨rfl, rfl, rfl⟩
        rw [h3, hstk] at hi'
        have := hi' ⟨p, .right⟩ rfl
        intro e; exact this (BitVec.eq_of_toNat_eq e)
      · intro q hq n hn
        rw [h3, hstk] at hq; cases hq
      · intro q hq n hn
        rw [h3, hstk] at hq; cases hq
        refine ⟨_, getElem?_modify_keep (halloc p n hn), ?_⟩
        rw [if_pos rfl]; exact ⟨rfl, rfl, hxt.symm⟩
      · show ((s.alloc (Node.ofMarker b)).nodes.modify p.toNat _)[s.nextIdx.toNat]? = _
        rw [getElem?_modify_keep hnew, if_neg (by rw [hidx]; omega)]
  refine ⟨sh, h1, hc, h3, Shape.fill_leftFilled hxl h1, hA, ?_, ?_, hlen⟩
  · rw [Shape.fill_frames hx h1 hc, h3]
  · rw [Shape.fill_indices h1 hc, List.map_append, h4, hxi]
    simp [hidx, List.range_succ]

/-- Attaching allocates nothing. -/
theorem ncount_attach (s : State) (n : NodeIdx) : (s.attach n).ncount = s.ncount := by
  unfold State.attach; split <;> simp [State.ncount]

/-- Attaching pushes nothing. -/
theorem afterAttach_length (l : List Frame) : (afterAttach l).length ≤ l.length := by
  match l with
  | [] => simp [afterAttach]
  | ⟨p, .left⟩ :: r => simp [afterAttach]
  | ⟨p, .right⟩ :: r => simp [afterAttach]

/-- A marker byte completes and keeps the invariant. -/
theorem Inv.takeMarker {s : State} (h : Inv s) (hs : s.dsState = .marker) (hcap : s.ncount < 511) (b : Byte) :
    ∃ t, s.takeMarker b = .next t ∧ Inv t := by
  obtain ⟨sh, h1, hc, h3, h4, h5, h6, h7, h8⟩ := takeMarker_shape h hs hcap b
  have hp := h.parse (.inl hs)
  have hv := hp.noTree
  obtain ⟨hr0, ho0, hw0⟩ := h.noTree hv
  obtain ⟨hct, hcode⟩ := h.noCodes hv
  have hidx : s.nextIdx.toNat = s.ncount := State.nextIdx_toNat (by omega)
  have ea := attach_eq (s.alloc (Node.ofMarker b)) s.nextIdx
  have hcnt : ((s.alloc (Node.ofMarker b)).attach s.nextIdx).ncount = s.ncount + 1 := by rw [ncount_attach]; simp
      [State.ncount]
  have hstk : ((s.alloc (Node.ofMarker b)).attach s.nextIdx).dsStk = afterAttach s.dsStk := by rw [ea]; rfl
  unfold State.takeMarker
  simp only
  split
  · next hb =>
    rw [if_pos hb] at h4 h5 h6 h7
    refine ⟨_, rfl, ?_⟩
    generalize hu : (s.alloc (Node.ofMarker b)).attach s.nextIdx = u at *
    have hmem : s.nextIdx ∈ (sh.fill (.leaf s.nextIdx)).indices := by rw [Shape.fill_indices h1 hc]; simp
        [Shape.indices]
    have hleaf : ∃ n, u.nodes[s.nextIdx.toNat]? = some n ∧ n.kind = .leaf := by
      -- extract from InArena
      have : ∀ t : Shape, t.leftFilled → t.complete = false → (t.fill (.leaf s.nextIdx)).InArena u.nodes → ∃ n,
          u.nodes[s.nextIdx.toNat]? = some n ∧ n.kind = .leaf := by
        intro t
        induction t with
        | hole => exact fun _ _ hh => hh
        | leaf i => intro _ hcc; cases hcc
        | node i l r ihl ihr =>
          intro hlf hcc hh
          simp only [Shape.fill] at hh
          split at hh
          · next hl => exact ihr hlf.2.2 (by simpa [Shape.complete, hl] using hcc) hh.2.2
          · next hl => exact ihl hlf.2.1 (by simpa using hl) hh.2.1
      exact this sh h1 hc h5
    refine inv_parse ?_ (.inr rfl) ?_ ?_ ?_ ?_ ?_ ?_ ?_ ?_
    · refine ⟨⟨sh.fill (.leaf s.nextIdx), h4, h5, ?_, ?_⟩, ?_, ?_, ?_, ?_⟩
      · rw [h6]; simp [Shape.frames, hstk]
      · show _ = List.range u.ncount; rw [hcnt]; exact h7
      · show u.tvalid = false; rw [ea]; exact hv
      · show u.heap = []; rw [ea]; exact hp.noHeap
      · intro _; exact ⟨by show s.nextIdx.toNat + 1 = u.ncount; rw [hcnt, hidx], hleaf⟩
      · simp
    · show u.ncount ≤ _; rw [hcnt]; simp [nodeCap]; omega
    · show u.root = 0; rw [ea]; exact hr0
    · show u.torigin = .builder; rw [ea]; exact ho0
    · show u.walk = 0; rw [ea]; exact hw0
    · show u.ctvalid = false; rw [ea]; exact hct
    · show u.code = _; rw [ea]; exact hcode
    · show u.pacc.toNat < 2^u.paccn.toNat; rw [ea]; exact h.packer
    · show u.err = .noError → u.errop = 0; rw [ea]; exact h.noError
  · next hb =>
    rw [if_neg hb] at h4 h5 h6 h7
    have hl := Shape.frames_length sh
    have hdepth : (afterAttach s.dsStk).length ≤ 510 := by
      have := afterAttach_length s.dsStk
      rw [h3] at hl; omega
    generalize hu : (s.alloc (Node.ofMarker b)).attach s.nextIdx = u at *
    rw [if_neg (by simp only [State.dsDepth, hstk, dsDepthCap]; omega)]
    refine ⟨_, rfl, ?_⟩
    have hms : u.dsState = .marker := by rw [ea]; exact hs
    refine inv_parse ?_ (.inl hms) ?_ ?_ ?_ ?_ ?_ ?_ ?_ ?_
    · refine ⟨⟨sh.fill (.node s.nextIdx .hole .hole), h4, h5, ?_, ?_⟩, ?_, ?_, ?_, ?_⟩
      · rw [h6]; simp [Shape.frames, hstk]
      · show _ = List.range u.ncount; rw [hcnt]; exact h7
      · show u.tvalid = false; rw [ea]; exact hv
      · show u.heap = []; rw [ea]; exact hp.noHeap
      · intro e; simp [hms] at e
      · simp
    · show u.ncount ≤ _; rw [hcnt]; simp [nodeCap]; omega
    · show u.root = 0; rw [ea]; exact hr0
    · show u.torigin = .builder; rw [ea]; exact ho0
    · show u.walk = 0; rw [ea]; exact hw0
    · show u.ctvalid = false; rw [ea]; exact hct
    · show u.code = _; rw [ea]; exact hcode
    · show u.pacc.toNat < 2^u.paccn.toNat; rw [ea]; exact h.packer
    · show u.err = .noError → u.errop = 0; rw [ea]; exact h.noError

/-- `DESER_BYTE` completes and keeps the invariant. -/
theorem Inv.deserByte_total {s : State} (h : Inv s) (b : Byte) : ∃ t, execDeserByte b s = .next t ∧ Inv t := by
  unfold execDeserByte
  by_cases he : s.err = .noError
  · rw [unlessSticky_clear he]
    split
    · exact ⟨_, rfl, h.raise (by decide) _⟩
    · exact ⟨_, rfl, h.raise (by decide) _⟩
    · next hs => exact ⟨_, rfl, h.takeSymbol hs b⟩
    · next hs =>
      split
      · exact ⟨_, rfl, h.raise (by decide) _⟩
      · split
        · exact ⟨_, rfl, h.raise (by decide) _⟩
        · next hn =>
          have := h.arena
          simp only [nodeCap] at *
          exact h.takeMarker hs (by omega) b
  · rw [unlessSticky_sticky he]; exact ⟨_, rfl, h⟩

end Sys2Proof.Machine
end

