-- ==== Sys2Proof/Laws/PerInstr.lean ====
section
/-!
SUPPORT. One lemma for each constructor of `Instr`: the word of a command is a word of its row of the opcode map,
`(w & mask) = match` (R107), whatever its operands are.
-/

namespace Sys2Proof.Laws

/-- A byte operand has no bit in the mask of format FB (R103). -/
theorem byte_and_maskFB (b : Byte) : b.setWidth 64 &&& (0xFFFFFFFFFFFFFF00 : Word) = 0 := by
  apply BitVec.eq_of_getLsbD_eq
  intro i hi
  rw [BitVec.getLsbD_and, BitVec.getLsbD_setWidth]
  by_cases h : i < 8
  · have : (0xFFFFFFFFFFFFFF00 : Word).getLsbD i = false := by interval_cases i <;> rfl
    rw [this]; simp
  · simp [BitVec.getLsbD_of_ge b i (by omega)]

/-- The two operands of format FW have no bit in its mask (R104). -/
theorem symValue_and_maskFW (s : Byte) (v : Half) :
    (s.setWidth 64 <<< 32 ||| v.setWidth 64) &&& (0xFFFFFF0000000000 : Word) = 0 := by
  apply BitVec.eq_of_getLsbD_eq
  intro i hi
  rw [BitVec.getLsbD_and, BitVec.getLsbD_or, BitVec.getLsbD_shiftLeft, BitVec.getLsbD_setWidth, BitVec.getLsbD_setWidth]
  by_cases h : i < 40
  · have : (0xFFFFFF0000000000 : Word).getLsbD i = false := by interval_cases i <;> rfl
    rw [this]; simp
  · simp [BitVec.getLsbD_of_ge s (i - 32) (by omega), BitVec.getLsbD_of_ge v i (by omega)]

end Sys2Proof.Laws

namespace Sys2Proof.Laws.MatchesItsRow

/-- The word of the command is a word of the command's row. -/
def Statement (i : Instr) : Prop := i.mnemonic.isWord (encode i) = true

/-- A row's match value has no bit outside its mask. -/
theorem match_and_mask (m : Mnemonic) : m.matchWord &&& m.format.mask = m.matchWord := by cases m <;> decide

/-- A word made of a row's match value and bits outside the row's mask is a word of the row. -/
theorem of_operandBits (m : Mnemonic) {x : Word} (hx : x &&& m.format.mask = 0) : m.isWord (m.matchWord ||| x) = true := by
  simp only [Mnemonic.isWord, decide_eq_true_eq]
  rw [BitVec.and_or_distrib_right, match_and_mask, hx]
  simp

theorem nop : Statement .nop := of_operandBits .NOP BitVec.zero_and
theorem reset : Statement .reset := of_operandBits .RESET BitVec.zero_and
theorem clrerr : Statement .clrerr := of_operandBits .CLRERR BitVec.zero_and
theorem freqClear : Statement .freqClear := of_operandBits .FREQ_CLEAR BitVec.zero_and
theorem freqInc (b : Byte) : Statement (.freqInc b) := of_operandBits .FREQ_INC (byte_and_maskFB b)
theorem freqSetLo (s : Byte) (v : Half) : Statement (.freqSetLo s v) :=
  of_operandBits .FREQ_SET_LO (symValue_and_maskFW s v)
theorem freqSetHi (s : Byte) (v : Half) : Statement (.freqSetHi s v) :=
  of_operandBits .FREQ_SET_HI (symValue_and_maskFW s v)
theorem treeSeed : Statement .treeSeed := of_operandBits .TREE_SEED BitVec.zero_and
theorem treeMerge : Statement .treeMerge := of_operandBits .TREE_MERGE BitVec.zero_and
theorem treeBuild : Statement .treeBuild := of_operandBits .TREE_BUILD BitVec.zero_and
theorem codeBuild : Statement .codeBuild := of_operandBits .CODE_BUILD BitVec.zero_and
theorem packSym (b : Byte) : Statement (.packSym b) := of_operandBits .PACK_SYM (byte_and_maskFB b)
theorem packFlush : Statement .packFlush := of_operandBits .PACK_FLUSH BitVec.zero_and
theorem unpackInit : Statement .unpackInit := of_operandBits .UNPACK_INIT BitVec.zero_and
theorem countShift (b : Byte) : Statement (.countShift b) := of_operandBits .COUNT_SHIFT (byte_and_maskFB b)
theorem unpackByte (b : Byte) : Statement (.unpackByte b) := of_operandBits .UNPACK_BYTE (byte_and_maskFB b)
theorem unpackSym : Statement .unpackSym := of_operandBits .UNPACK_SYM BitVec.zero_and
theorem unpackEnd : Statement .unpackEnd := of_operandBits .UNPACK_END BitVec.zero_and
theorem treeSer : Statement .treeSer := of_operandBits .TREE_SER BitVec.zero_and
theorem deserStart : Statement .deserStart := of_operandBits .DESER_START BitVec.zero_and
theorem deserByte (b : Byte) : Statement (.deserByte b) := of_operandBits .DESER_BYTE (byte_and_maskFB b)
theorem deserEnd : Statement .deserEnd := of_operandBits .DESER_END BitVec.zero_and
theorem emitByte (b : Byte) : Statement (.emitByte b) := of_operandBits .EMIT_BYTE (byte_and_maskFB b)
theorem countEmit : Statement .countEmit := of_operandBits .COUNT_EMIT BitVec.zero_and

end Sys2Proof.Laws.MatchesItsRow
end

