-- ==== Sys2Proof/Laws/Streams.lean ====
section
/-!
SUPPORT. The loops of the packer and of the decoder walk as bit streams (R180, R192), and sequences of commands.
-/

namespace Sys2Proof.Machine

/-- The low `n` bits of a byte, highest first. -/
def pend (a : Byte) (n : Nat) : Bits := (List.range n).reverse.map a.getLsbD

/-- A byte's bits are its low eight. -/
theorem byteBits_pend (b : Byte) : byteBits b = pend b 8 := by
  unfold byteBits pend; rfl

theorem shiftIn_zero (a : Byte) (c : Bool) : (shiftIn a c).getLsbD 0 = c := by
  cases c <;> simp [shiftIn]

theorem shiftIn_succ (a : Byte) (c : Bool) (i : Nat) (h : i + 1 < 8) : (shiftIn a c).getLsbD (i+1) = a.getLsbD i := by
  have e : a.getLsbD i = a[i] := BitVec.getLsbD_eq_getElem (by omega)
  rw [e]; cases c <;> simp [shiftIn, h]

/-- Shifting a bit in puts it after the pending ones (R180). -/
theorem pend_shiftIn (a : Byte) (c : Bool) (n : Nat) (h : n < 8) : pend (shiftIn a c) (n+1) = pend a n ++ [c] := by
  unfold pend
  rw [List.range_succ_eq_map, List.reverse_cons, List.map_append, List.map_singleton, shiftIn_zero,
      ← List.map_reverse, List.map_map]
  congr 1
  apply List.map_congr_left
  intro i hi
  simp at hi
  exact shiftIn_succ a c i (by omega)

theorem length_pend (a : Byte) (n : Nat) : (pend a n).length = n := by simp [pend]

theorem streamBits_append (a b : List Byte) : streamBits (a ++ b) = streamBits a ++ streamBits b := by simp
    [streamBits]

theorem length_streamBits (bs : List Byte) : (streamBits bs).length = 8 * bs.length := by
  induction bs with
  | nil => rfl
  | cons b bs ih =>
    have : streamBits (b :: bs) = byteBits b ++ streamBits bs := rfl
    rw [this, List.length_append, ih, byteBits_pend, length_pend]; simp; omega

theorem streamBits_single (b : Byte) : streamBits [b] = byteBits b := by simp [streamBits]

/-- What packing bits emits and leaves pending is what was pending and then the bits (R180). -/
theorem packBits_stream (l : Bits) (s : State) : ∃ bs, Emitted s (s.packBits l) bs ∧ streamBits bs ++
    (s.packBits l).pending = s.pending ++ l := by
  induction l generalizing s with
  | nil => exact ⟨[], Emitted.nil _, by simp [streamBits]; rfl⟩
  | cons c l ih =>
    have hn := s.paccn.isLt
    have e : s.packBits (c :: l) = (s.packBit c).packBits l := rfl
    rw [e]
    obtain ⟨bs, h1, h2⟩ := ih (s.packBit c)
    have : ∃ b0, Emitted s (s.packBit c) b0 ∧ streamBits b0 ++ (s.packBit c).pending = s.pending ++ [c] := by
      unfold State.packBit
      split
      · next h8 =>
        refine ⟨[_], ⟨rfl, rfl⟩, ?_⟩
        rw [streamBits_single, byteBits_pend]
        have : pend (shiftIn s.pacc c) 8 = pend s.pacc s.paccn.toNat ++ [c] := by
          have := pend_shiftIn s.pacc c s.paccn.toNat (by omega)
          rw [h8] at this; exact this
        rw [this]
        simp [State.pending, pend]
      · next h8 =>
        refine ⟨[], Emitted.nil _, ?_⟩
        have h3 : (s.paccn + 1).toNat = s.paccn.toNat + 1 := by
          rw [BitVec.toNat_add]
          apply Nat.mod_eq_of_lt
          simp; omega
        show [] ++ pend (shiftIn s.pacc c) (s.paccn + 1).toNat = pend s.pacc s.paccn.toNat ++ [c]
        rw [h3, pend_shiftIn _ _ _ (by omega)]; rfl
    obtain ⟨b0, e0, f0⟩ := this
    refine ⟨_, e0.trans h1, ?_⟩
    rw [streamBits_append, List.append_assoc, h2, ← List.append_assoc, f0]; simp

/-- With the count met, no bit does anything (R192). -/
theorem walkBits_done (l : Bits) (s : State) (h : s.remain = 0) : s.walkBits l = s := by
  unfold State.walkBits
  induction l with
  | nil => rfl
  | cons c l ih => rw [List.foldl_cons]; have : s.walkBit c = s := by unfold State.walkBit; rw [if_pos h]
                   rw [this]; exact ih

theorem walkBits_append (a b : Bits) (s : State) : s.walkBits (a ++ b) = (s.walkBits a).walkBits b := by
  unfold State.walkBits; rw [List.foldl_append]

/-- The bits of a leaf's path, walked from the root of its subtree, emit its symbol,
    take one from the count and go back to `ROOT`
(R192). -/
theorem descend (sub : Shape) : ∀ (s : State) (j : NodeIdx) (q : Bits),
    sub.complete = true → sub.InArena s.nodes → s.walk = sub.top → s.remain ≠ 0 →
    (∀ i, sub ≠ .leaf i) → (j, q) ∈ sub.paths [] → s.walkBits q = { s.emit
        (s.node j).sym with remain := s.remain - 1, walk := s.root } := by
  induction sub with
  | hole => intro s j q h; cases h
  | leaf i => intro s j q _ _ _ _ h; exact absurd rfl (h i)
  | node i l r ihl ihr =>
    intro s j q hc ha hw hr _ hm
    simp only [Shape.complete, Bool.and_eq_true] at hc
    obtain ⟨⟨n, hn, hk, hl, hrr⟩, hal, har⟩ := ha
    have hnode : s.node s.walk = n := by rw [hw]; exact State.node_of_getElem? hn
    rw [Shape.paths_node] at hm
    simp only [List.mem_append, List.mem_map] at hm
    have step : ∀ (c : Bool) (x : Shape) (q' : Bits), x.complete = true → x.InArena s.nodes → s.child s.walk c =
        x.top → (j, q') ∈ x.paths [] →
        (∀ (s : State) (j : NodeIdx) (q : Bits), x.complete = true → x.InArena s.nodes → s.walk = x.top → s.remain ≠
            0 →
    (∀ i, x ≠ .leaf i) → (j, q) ∈ x.paths [] → s.walkBits q =
        { s.emit (s.node j).sym with remain := s.remain - 1, walk := s.root }) →
        s.walkBits (c :: q') = { s.emit (s.node j).sym with remain := s.remain - 1, walk := s.root } := by
      intro c x q' hxc hxa hch hm ih
      have e : s.walkBits (c :: q') = (s.walkBit c).walkBits q' := rfl
      rw [e]
      cases x with
      | hole => cases hxc
      | leaf k =>
        simp [Shape.paths] at hm
        obtain ⟨rfl, rfl⟩ := hm
        obtain ⟨m, hm1, hm2⟩ := hxa
        have hch : s.child s.walk c = j := hch
        have : s.isLeaf (s.child s.walk c) = true := by rw [hch]; simp [State.isLeaf, State.node_of_getElem? hm1, hm2]
        unfold State.walkBit
        rw [if_neg hr, if_pos this, hch]; rfl
      | node k l' r' =>
        obtain ⟨⟨m, hm1, hm2, hm3⟩, hm4⟩ := hxa
        have hch : s.child s.walk c = k := hch
        have : s.isLeaf (s.child s.walk c) = false := by rw [hch]; simp [State.isLeaf, State.node_of_getElem? hm1,
            hm2]
        have e2 : s.walkBit c = { s with walk := k } := by
          unfold State.walkBit
          rw [if_neg hr, if_neg (by simp [this]), hch]
        rw [e2, ih { s with walk := k } j q' hxc ⟨⟨m, hm1, hm2, hm3⟩, hm4⟩ rfl hr (by simp) hm]
        rfl
    rcases hm with ⟨⟨j', q'⟩, hx, hxe⟩ | ⟨⟨j', q'⟩, hx, hxe⟩
    · cases hxe
      exact step false l q' hc.1 hal (by unfold State.child; rw [hnode, hl (Shape.complete_ne_hole hc.1)]; rfl) hx ihl
    · cases hxe
      exact step true r q' hc.2 har (by unfold State.child; rw [hnode, hrr (Shape.complete_ne_hole hc.2)]; rfl) hx ihr

/-- A sequence of commands cut in two. -/
theorem execAll_append (l1 l2 : List Instr) (s : State) : execAll (l1 ++ l2) s = andThen (execAll l1 s)
    (execAll l2) := by
  induction l1 generalizing s with
  | nil => rfl
  | cons i l ih =>
    show andThen (exec i s) _ = andThen (andThen (exec i s) _) _
    rcases exec i s with u | f | f
    · exact ih u
    · rfl
    · rfl

end Sys2Proof.Machine
end

