-- ==== Sys2Proof/Tests/Slice0.lean ====
section
/-!
SUPPORT. The model's own tests: ill-formed terms that the checks refuse, one written-out word for each command, one step of
each command on a small state, and states that meet the hypotheses of the statements in
Certificates/Slice0/Obligations.lean.

Expected values are those of spec/95_test_vectors.md (T-… and P…) or of the rule named; none is the model's own answer.
-/

namespace Sys2Proof.Tests

open Sys2Proof.Machine

-- One theorem after another: many kernel evaluations at once would start a thread each.
set_option Elab.async false

/-! ## Helpers -/

/-- The outcome is a next state with the property. -/
def gives (r : Result) (p : State → Bool) : Bool :=
  match r with
  | .next t => p t
  | .fault _ => false
  | .refused _ => false

/-- A test of an outcome, as a hypothesis of a statement. -/
theorem next_of_gives {r : Result} {p : State → Bool} (h : gives r p = true) : ∃ t, r = .next t ∧ p t = true := by
  cases r with
  | next t => exact ⟨t, rfl, h⟩
  | fault e => exact nomatch h
  | refused e => exact nomatch h

/-- The two states are the same, component by component. -/
def same (s t : State) : Bool :=
  s.freq.toList = t.freq.toList && s.nodes = t.nodes && s.root = t.root && s.tvalid = t.tvalid && s.torigin = t.torigin
    && s.heap = t.heap && s.code.toList = t.code.toList && s.ctvalid = t.ctvalid && s.pacc = t.pacc && s.paccn = t.paccn
    && s.remain = t.remain && s.walk = t.walk && s.dsState = t.dsState && s.dsStk = t.dsStk && s.dsCur = t.dsCur
    && s.err = t.err && s.errop = t.errop && s.outcnt = t.outcnt && s.out = t.out && s.inbox = t.inbox
    && s.reads = t.reads && s.draws = t.draws

/-- A leaf, an internal node. -/
def lf (a w : Nat) : Node := ⟨.leaf, BitVec.ofNat 8 a, BitVec.ofNat 64 w, 0, 0⟩
def nd (w l r : Nat) : Node := ⟨.internal, 0, BitVec.ofNat 64 w, BitVec.ofNat 9 l, BitVec.ofNat 9 r⟩

/-- Counts A = 2, B = 3, C = 4 (E2). -/
def counts : State := ((State.reset.setFreq 0x41 2).setFreq 0x42 3).setFreq 0x43 4

/-- After T-BLD-1. -/
def seeded : State := { counts with nodes := [lf 0x41 2, lf 0x42 3, lf 0x43 4], heap := [0, 1, 2] }

/-- After the first merge of T-BLD-2. -/
def merged : State := { counts with nodes := [lf 0x41 2, lf 0x42 3, lf 0x43 4, nd 5 0 1], heap := [2, 3] }

/-- After T-BLD-2: the tree of E2. -/
def built : State :=
  { counts with
    nodes := [lf 0x41 2, lf 0x42 3, lf 0x43 4, nd 5 0 1, nd 9 2 3], heap := [4], root := 4, tvalid := true, walk := 4 }

/-- After T-CODE-1. -/
def coded : State :=
  { ((built.setCode 0x41 ⟨true, 2, 2⟩).setCode 0x42 ⟨true, 2, 3⟩).setCode 0x43 ⟨true, 1, 0⟩ with ctvalid := true }

/-- The degenerate tree of 'A' with count 5 (E1). -/
def single : State := { State.reset.setFreq 0x41 5 with nodes := [lf 0x41 5], heap := [0], tvalid := true }

/-- After `DESER_START`. -/
def started : State := { State.reset with dsState := .marker }

/-- After `DESER_START` and 31: a leaf that awaits its symbol, at the root. -/
def rootLeaf : State := { State.reset with nodes := [lf 0 0], dsState := .sym }

/-- After `DESER_START` and 30 31 (T-DES-8): DS 2/1/1. -/
def innerLeaf : State :=
  { State.reset with nodes := [nd 0 1 0, lf 0 0], dsState := .sym, dsStk := [⟨0, .right⟩], dsCur := 1 }

/-- After `DESER_START` and 30 31 41 (T-DES-7): DS 1/1/1. -/
def halfway : State :=
  { State.reset with nodes := [nd 0 1 0, lf 0x41 0], dsState := .marker, dsStk := [⟨0, .right⟩], dsCur := 1 }

/-- After `DESER_START` and 30 31 41 31 `b`. -/
def parsedWith (b : Nat) : State :=
  { State.reset with
    nodes := [nd 0 1 2, lf 0x41 0, lf b 0], tvalid := true, torigin := .deserializer, dsState := .done, dsCur := 2 }

/-- An error is recorded: `EMPTY`, of `TREE_BUILD` (T-CTL-3). -/
def failed : State := { counts with err := .empty, errop := 0x22 }

/-! ## Well-formedness (R110, R111): each check refuses an ill-formed term -/

theorem test_wf_F0_operand : (AsmLine.mk .NOP [0]).wellFormed = false := by decide
theorem test_wf_FB_missing : (AsmLine.mk .FREQ_INC []).wellFormed = false := by decide
theorem test_wf_FB_extra : (AsmLine.mk .FREQ_INC [1, 2]).wellFormed = false := by decide
theorem test_wf_FB_range : (AsmLine.mk .FREQ_INC [256]).wellFormed = false := by decide
theorem test_wf_FW_none : (AsmLine.mk .FREQ_SET_LO []).wellFormed = false := by decide
theorem test_wf_FW_missing : (AsmLine.mk .FREQ_SET_LO [1]).wellFormed = false := by decide
theorem test_wf_FW_extra : (AsmLine.mk .FREQ_SET_LO [1, 2, 3]).wellFormed = false := by decide
theorem test_wf_FW_sym : (AsmLine.mk .FREQ_SET_LO [256, 0]).wellFormed = false := by decide
theorem test_wf_FW_imm32 : (AsmLine.mk .FREQ_SET_LO [0, 4294967296]).wellFormed = false := by decide
theorem test_wf_FW_largest : (AsmLine.mk .FREQ_SET_HI [255, 4294967295]).wellFormed = true := by decide
theorem test_wf_freqSet_sym : (Pseudo.freqSet 256 0).wellFormed = false := by decide
theorem test_wf_freqSet_value : (Pseudo.freqSet 0 18446744073709551616).wellFormed = false := by decide
theorem test_wf_countLoad : (Pseudo.countLoad 281474976710656).wellFormed = false := by decide
theorem test_wf_emitExt : (Pseudo.emitExt (List.replicate 256 0)).wellFormed = false := by decide +kernel
theorem test_wf_deserBytes : (Pseudo.deserBytes [0x30, 256]).wellFormed = false := by decide
theorem test_wf_unpackBytes : (Pseudo.unpackBytes [256]).wellFormed = false := by decide
theorem test_wf_word_opcode : wellFormedWord 0x0300000000000000 = false := by decide
theorem test_wf_word_reserved : wellFormedWord 0x1201000000000000 = false := by decide
theorem test_wf_word : wellFormedWord 0x130000FF00000001 = true := by decide
/-- An ill-formed line has no word (R110). -/
theorem test_assemble_range : assemble ⟨.EMIT_BYTE, [256]⟩ = none := by decide
/-- R111: `FREQ_SET s, v` and `COUNT_LOAD c`. -/
theorem test_expand_freqSet :
    expand (.freqSet 0x41 0x100000005) = some [.freqSetLo 0x41 5, .freqSetHi 0x41 1] := by decide
theorem test_expand_countLoad : expand (.countLoad 9) = some
    [.unpackInit, .countShift 0, .countShift 0, .countShift 0, .countShift 0, .countShift 0, .countShift 9] := by decide
/-- R110: decimal, hexadecimal and quoted operands, and comments. -/
theorem test_text_quoted : assembleText (asciiCodes "FREQ_SET_LO 'A', 5 ; A=5") = .word 0x1200004100000005 := by decide +kernel
theorem test_text_range : assembleText (asciiCodes "EMIT_BYTE 0x100") = .error := by decide +kernel
theorem test_text_comment : assembleText (asciiCodes "; nothing") = .empty := by decide +kernel

/-! ## Decoding: a word of each row, written out from R102 to R106 and spec/95_test_vectors.md -/

theorem test_decode_nop : decode 0x0000000000000000 = .command .nop := by decide
theorem test_decode_reset : decode 0x0100000000000000 = .command .reset := by decide
theorem test_decode_clrerr : decode 0x0200000000000000 = .command .clrerr := by decide
theorem test_decode_freqClear : decode 0x1000000000000000 = .command .freqClear := by decide
theorem test_decode_freqInc : decode 0x1100000000000041 = .command (.freqInc 0x41) := by decide
theorem test_decode_freqSetLo : decode 0x1200004100000005 = .command (.freqSetLo 0x41 5) := by decide
theorem test_decode_freqSetHi : decode 0x130000FF80000001 = .command (.freqSetHi 0xFF 0x80000001) := by decide
theorem test_decode_treeSeed : decode 0x2000000000000000 = .command .treeSeed := by decide
theorem test_decode_treeMerge : decode 0x2100000000000000 = .command .treeMerge := by decide
theorem test_decode_treeBuild : decode 0x2200000000000000 = .command .treeBuild := by decide
theorem test_decode_codeBuild : decode 0x3000000000000000 = .command .codeBuild := by decide
theorem test_decode_packSym : decode 0x4000000000000043 = .command (.packSym 0x43) := by decide
theorem test_decode_packFlush : decode 0x4100000000000000 = .command .packFlush := by decide
theorem test_decode_unpackInit : decode 0x5000000000000000 = .command .unpackInit := by decide
theorem test_decode_countShift : decode 0x5100000000000009 = .command (.countShift 9) := by decide
theorem test_decode_unpackByte : decode 0x52000000000000AF = .command (.unpackByte 0xAF) := by decide
theorem test_decode_unpackSym : decode 0x5300000000000000 = .command .unpackSym := by decide
theorem test_decode_unpackEnd : decode 0x5400000000000000 = .command .unpackEnd := by decide
theorem test_decode_treeSer : decode 0x6000000000000000 = .command .treeSer := by decide
theorem test_decode_deserStart : decode 0x6100000000000000 = .command .deserStart := by decide
theorem test_decode_deserByte : decode 0x6200000000000030 = .command (.deserByte 0x30) := by decide
theorem test_decode_deserEnd : decode 0x6300000000000000 = .command .deserEnd := by decide
theorem test_decode_emitByte : decode 0x70000000000000FF = .command (.emitByte 0xFF) := by decide
theorem test_decode_countEmit : decode 0x7100000000000000 = .command .countEmit := by decide
/-- T-DEC-4 to T-DEC-8: the words that are no command. -/
theorem test_decode_illegal :
    decode 0x0300000000000000 = .illegal (.unassignedOpcode 0x03) ∧ decode 0x0000000000000001 = .illegal (.reservedBits .F0) ∧
    decode 0x1100000000000141 = .illegal (.reservedBits .FB) ∧ decode 0xFF00000000000000 = .illegal (.unassignedOpcode 0xFF) ∧
    decode 0x1201000000000000 = .illegal (.reservedBits .FW) := by decide
theorem test_decodeTableWord : decodeTableWord 64 0x1200004100000005 = some (.freqSetLo 0x41 5) := by decide

/-! ## One step of each command -/

/-- The words of T-CTL-1 to T-CTL-8. -/
theorem test_nop_keeps : gives (runWord 0x0000000000000000 failed) (same failed) = true := by decide +kernel
theorem test_reset : gives (runWord 0x0100000000000000 { failed with outcnt := 3, out := [1, 2, 3] })
    (same { State.reset with out := [1, 2, 3] }) = true := by decide +kernel
theorem test_reset_word_inexact : gives (runWord 0x0100000000000001 failed) (same failed) = true := by decide +kernel
theorem test_clrerr : gives (runWord 0x0200000000000000 failed) (same counts) = true := by decide +kernel
/-- T-DEC-6, T-DEC-7. -/
theorem test_illegal_reserved : gives (runWord 0x1100000000000141 counts)
    (same { counts with err := .illegal, errop := 0x11 }) = true := by decide +kernel
theorem test_illegal_opcode : gives (runWord 0xFF00000000000000 counts)
    (same { counts with err := .illegal, errop := 0xFF }) = true := by decide +kernel

/-- T-FRQ-1 to T-FRQ-6. -/
theorem test_freqInc : gives (exec (.freqInc 0xFF) counts) (fun t => t.freqOf 0xFF = 1 ∧ t.freqOf 0x41 = 2) = true := by
  decide +kernel
theorem test_freqInc_overflow : gives (exec (.freqInc 0x41) (counts.setFreq 0x41 0xFFFFFFFFFFFFFFFF))
    (fun t => t.err.code = 0x06 ∧ t.errop = 0x11 ∧ t.freqOf 0x41 = 0xFFFFFFFFFFFFFFFF) = true := by decide +kernel
theorem test_freqSetLo : gives (exec (.freqSetLo 0x41 5) (counts.setFreq 0x41 0x0000000100000000))
    (fun t => t.freqOf 0x41 = 0x0000000100000005) = true := by decide +kernel
theorem test_freqSetHi : gives (exec (.freqSetHi 0x41 1) (counts.setFreq 0x41 5))
    (fun t => t.freqOf 0x41 = 0x0000000100000005) = true := by decide +kernel
theorem test_freqClear : gives (exec .freqClear coded) (fun t => t.freqOf 0x41 = 0 ∧ t.nodes = coded.nodes ∧ t.ctvalid) = true := by
  decide +kernel

/-- T-BLD-1, T-BLD-2. -/
theorem test_treeSeed : gives (exec .treeSeed counts) (same seeded) = true := by decide +kernel
theorem test_treeMerge : gives (exec .treeMerge seeded) (same merged) = true := by decide +kernel
theorem test_treeMerge_last : gives (exec .treeMerge merged) (same built) = true := by decide +kernel
theorem test_treeBuild : gives (exec .treeBuild counts) (same built) = true := by decide +kernel
/-- T-BLD-9, T-BLD-11, T-BLD-12. -/
theorem test_treeBuild_empty : gives (exec .treeBuild State.reset)
    (same { State.reset with err := .empty, errop := 0x22 }) = true := by decide +kernel
theorem test_treeSeed_overflow :
    gives (exec .treeSeed ((State.reset.setFreq 0x41 0xFFFFFFFFFFFFFFFF).setFreq 0x42 1))
      (fun t => t.err.code = 0x07 ∧ t.errop = 0x20 ∧ t.nodes = []) = true := by decide +kernel

/-- T-CODE-1, T-CODE-6. -/
theorem test_codeBuild : gives (exec .codeBuild built) (same coded) = true := by decide +kernel
theorem test_codeBuild_dupSym : gives (exec .codeBuild (parsedWith 0x41))
    (fun t => t.err.code = 0x09 ∧ t.errop = 0x30 ∧ t.ctvalid = false) = true := by decide +kernel

/-- T-PACK-1, T-PACK-2, T-PACK-6. -/
theorem test_packSym : gives (exec (.packSym 0x42) { coded with pacc := 0x2B, paccn := 6 })
    (fun t => t.out = [0xAF] ∧ t.pacc = 0 ∧ t.paccn = 0) = true := by decide +kernel
theorem test_packSym_noCode : gives (exec (.packSym 0x44) { coded with pacc := 0x2B, paccn := 6 })
    (fun t => t.err.code = 0x08 ∧ t.errop = 0x40 ∧ t.pacc = 0x2B ∧ t.paccn = 6) = true := by decide +kernel
theorem test_packFlush : gives (exec .packFlush { coded with pacc := 48, paccn := 6 })
    (fun t => t.out = [0xC0] ∧ t.pacc = 0 ∧ t.paccn = 0) = true := by decide +kernel

/-- T-UNP-1, T-UNP-2. -/
theorem test_unpackInit : gives (exec .unpackInit { built with remain := 7, walk := 3 })
    (fun t => t.remain = 0 ∧ t.walk = 4) = true := by decide +kernel
theorem test_countShift : gives (exec (.countShift 7) { built with remain := 0x010203040506 })
    (fun t => t.remain = 0x020304050607) = true := by decide +kernel
/-- T-UNP-3: AF with nine symbols left (the walk and the codes of the built tree are the same). -/
theorem test_unpackByte : gives (exec (.unpackByte 0xAF) { built with remain := 9 })
    (fun t => t.out = [0x41, 0x41, 0x42, 0x42] ∧ t.remain = 5 ∧ t.walk = 4) = true := by decide +kernel
/-- T-UNP-3: C0 from the middle of a code... the last two bits are not walked. -/
theorem test_unpackByte_stops : gives (exec (.unpackByte 0xC0) { built with remain := 5 })
    (fun t => t.out = [0x42, 0x43, 0x43, 0x43, 0x43] ∧ t.remain = 0 ∧ t.walk = 4) = true := by decide +kernel
/-- T-UNP-6, T-UNP-9. -/
theorem test_unpackSym : gives (exec .unpackSym { single with remain := 2 })
    (fun t => t.out = [0x41] ∧ t.remain = 1) = true := by decide +kernel
theorem test_unpackSym_state : gives (exec .unpackSym { built with remain := 2 })
    (fun t => t.err.code = 0x05 ∧ t.errop = 0x53) = true := by decide +kernel
/-- T-UNP-10, T-UNP-11. -/
theorem test_unpackEnd : gives (exec .unpackEnd { built with remain := 2 })
    (fun t => t.err.code = 0x03 ∧ t.errop = 0x54 ∧ t.remain = 2) = true := by decide +kernel
theorem test_unpackEnd_met : gives (exec .unpackEnd built) (same built) = true := by decide +kernel

/-- T-SER-1, T-SER-5. -/
theorem test_treeSer : gives (exec .treeSer built)
    (fun t => t.out = [0x30, 0x31, 0x43, 0x30, 0x31, 0x41, 0x31, 0x42] ∧ t.outcnt = 8) = true := by decide +kernel
theorem test_treeSer_state : gives (exec .treeSer seeded) (fun t => t.err.code = 0x05 ∧ t.errop = 0x60) = true := by
  decide +kernel
/-- R212, and T-DES-7's states. -/
theorem test_deserStart : gives (exec .deserStart { coded with freq := State.reset.freq }) (same started) = true := by decide +kernel
theorem test_deserByte_marker : gives (exec (.deserByte 0x31) { started with nodes := [nd 0 0 0], dsStk := [⟨0, .left⟩] })
    (same innerLeaf) = true := by decide +kernel
theorem test_deserByte_symbol : gives (exec (.deserByte 0x41) innerLeaf) (same halfway) = true := by decide +kernel
/-- T-DES-7, T-DES-9. -/
theorem test_deserEnd : gives (exec .deserEnd halfway) (fun t => t.err.code = 0x02 ∧ t.errop = 0x63 ∧ t.dsState = .marker) = true := by
  decide +kernel
theorem test_deserEnd_idle : gives (exec .deserEnd built) (fun t => t.err.code = 0x05 ∧ t.errop = 0x63) = true := by
  decide +kernel

/-- T-CNT-1, T-CNT-2, T-CNT-4. -/
theorem test_emitByte : gives (exec (.emitByte 3) built) (fun t => t.out = [3] ∧ t.outcnt = 1) = true := by decide +kernel
theorem test_countEmit : gives (exec .countEmit built) (fun t => t.out = [0, 0, 0, 0, 0, 9] ∧ t.outcnt = 6) = true := by
  decide +kernel
theorem test_countEmit_overflow :
    gives (exec .countEmit { single with nodes := [lf 0x41 281474976710656] })
      (fun t => t.err.code = 0x0A ∧ t.errop = 0x71 ∧ t.out = []) = true := by decide +kernel

/-- T-REG-2, T-REG-3, T-REG-5 to T-REG-8, on the state after T-CODE-1. -/
theorem test_regRead : coded.regRead 0x001 = 0x0000000000050000 ∧ coded.regRead 0x241 = 0x102 ∧ coded.regRead 0x508 = 3 ∧
    coded.regRead 0x804 = 0x0000000300020000 ∧ coded.regRead 0xA04 = 9 ∧ coded.regRead 0xC00 = 4 := by decide +kernel
/-- T-REG-14: `DS` and `DSSTK` half way through a parse (node 2, right). -/
theorem test_regRead_ds : ({ halfway with dsState := .sym, dsStk := [⟨2, .right⟩], dsCur := 3 } : State).regRead 0x008 = 0x300102 ∧
    ({ halfway with dsStk := [⟨2, .right⟩] } : State).regRead 0xE00 = 0x202 := by decide +kernel

/-- A step takes the host's next command, and `withFetchWord` makes a word the next one. -/
theorem test_step_withFetchWord : gives (step (State.reset.withFetchWord 64 0x70000000000000AB))
    (fun t => t.out = [0xAB] ∧ t.inbox = [] ∧ t.draws = 1) = true := by decide +kernel
theorem test_step_regRead : gives (step { built with inbox := [.regRead 0x002, .cmd 0] })
    (fun t => t.reads = [(0x002, 4)] ∧ t.inbox = [.cmd 0] ∧ t.draws = 0) = true := by decide +kernel
theorem test_step_hwReset : gives (step { failed with inbox := [.hwReset], out := [9] })
    (same { State.reset with out := [9], draws := 1 }) = true := by decide +kernel

/-! ## States of the invariant -/

/-- A state whose phase holds, with no code table, nothing pending, the walk at the root and no error. -/
theorem inv_plain {s : State} (ph : PhaseHolds s) (hn : s.ncount ≤ nodeCap)
    (hc : s.code = Vector.replicate 256 CodeEntry.cleared) (hp : s.pacc = 0 ∧ s.paccn = 0 ∧ s.ctvalid = false ∧ s.errop = 0)
    (hw : s.walk = s.root) (ht : s.tvalid = false → s.root = 0 ∧ s.torigin = .builder) : Inv s where
  phase := ph
  arena := hn
  packer := by rw [hp.1, hp.2.1]; decide
  noTree h := ⟨(ht h).1, (ht h).2, hw.trans (ht h).1⟩
  walk _ := .inl hw
  codesOfTree h := by rw [hp.2.2.1] at h; cases h
  table h := by rw [hp.2.2.1] at h; cases h
  clearTable _ := hc
  entries a := by
    have : s.codeOf a = CodeEntry.cleared := by simp [State.codeOf, hc]
    rw [this]
    exact ⟨fun _ => rfl, by decide⟩
  noError _ := hp.2.2.2

/-- A built tree of 'A' and 'B', once each (P4). -/
def pair : State :=
  { (State.reset.setFreq 0x41 1).setFreq 0x42 1 with
    nodes := [lf 0x41 1, lf 0x42 1, nd 2 0 1], heap := [2], root := 2, tvalid := true, walk := 2 }

theorem test_inv_seeded : Inv seeded := by
  refine inv_plain (s := seeded) ?_ (by decide) rfl (by decide) rfl (by decide)
  refine BuilderPhase.mk ⟨[.leaf 0, .leaf 1, .leaf 2], ?_, rfl, ?_, by decide⟩ ⟨rfl, rfl⟩ ?_ (by decide) (by decide) (by decide)
  · simp only [List.forall_mem_cons]
    exact ⟨⟨rfl, ⟨_, rfl, rfl⟩, trivial⟩, ⟨rfl, ⟨_, rfl, rfl⟩, trivial⟩, ⟨rfl, ⟨_, rfl, rfl⟩, trivial⟩, by simp⟩
  · exact List.Perm.refl _
  · intro j h0 h1
    have h1 : j < 3 := h1
    interval_cases j <;> decide

theorem test_inv_merged : Inv merged := by
  refine inv_plain (s := merged) ?_ (by decide) rfl (by decide) rfl (by decide)
  refine BuilderPhase.mk ⟨[.leaf 2, .node 3 (.leaf 0) (.leaf 1)], ?_, rfl, ?_, by decide⟩ ⟨rfl, rfl⟩ ?_ (by decide) (by decide)
    (by decide)
  · simp only [List.forall_mem_cons]
    refine ⟨⟨rfl, ⟨_, rfl, rfl⟩, trivial⟩,
      ⟨rfl, ⟨⟨_, rfl, rfl, fun _ => rfl, fun _ => rfl⟩, ⟨_, rfl, rfl⟩, ⟨_, rfl, rfl⟩⟩, ?_, trivial, trivial⟩, by simp⟩
    intro n nl nr h1 h2 h3
    cases h1; cases h2; cases h3
    rfl
  · show List.Perm _ _
    decide
  · intro j h0 h1
    have h1 : j < 2 := h1
    interval_cases j
    decide

theorem test_inv_pair : Inv pair := by
  refine inv_plain (s := pair) ?_ (by decide) rfl (by decide) rfl (by decide)
  refine BuilderPhase.mk ⟨[.node 2 (.leaf 0) (.leaf 1)], ?_, rfl, ?_, by decide⟩ ⟨rfl, rfl⟩ ?_ (by decide) (by decide)
    (by decide)
  · simp only [List.forall_mem_cons]
    refine ⟨⟨rfl, ⟨⟨_, rfl, rfl, fun _ => rfl, fun _ => rfl⟩, ⟨_, rfl, rfl⟩, ⟨_, rfl, rfl⟩⟩, ?_, trivial, trivial⟩, by simp⟩
    intro n nl nr h1 h2 h3
    cases h1; cases h2; cases h3
    rfl
  · show List.Perm _ _
    decide
  · intro j h0 h1
    have h1 : j < 1 := h1
    omega

theorem test_inv_built : Inv built := by
  refine inv_plain (s := built) ?_ (by decide) rfl (by decide) rfl (by decide)
  refine BuilderPhase.mk ⟨[.node 4 (.leaf 2) (.node 3 (.leaf 0) (.leaf 1))], ?_, rfl, ?_, by decide⟩ ⟨rfl, rfl⟩ ?_ (by decide)
    (by decide) (by decide)
  · simp only [List.forall_mem_cons]
    refine ⟨⟨rfl, ⟨⟨_, rfl, rfl, fun _ => rfl, fun _ => rfl⟩, ⟨_, rfl, rfl⟩, ⟨_, rfl, rfl, fun _ => rfl, fun _ => rfl⟩, ⟨_, rfl, rfl⟩,
      ⟨_, rfl, rfl⟩⟩, ?_, trivial, ?_, trivial, trivial⟩, by simp⟩
    all_goals (intro n nl nr h1 h2 h3; cases h1; cases h2; cases h3; rfl)
  · show List.Perm _ _
    decide
  · intro j h0 h1
    have h1 : j < 1 := h1
    omega

theorem test_inv_single : Inv single := by
  refine inv_plain (s := single) ?_ (by decide) rfl (by decide) rfl (by decide)
  refine BuilderPhase.mk ⟨[.leaf 0], ?_, rfl, ?_, by decide⟩ ⟨rfl, rfl⟩ ?_ (by decide) (by decide) (by decide)
  · simp only [List.forall_mem_cons]
    exact ⟨⟨rfl, ⟨_, rfl, rfl⟩, trivial⟩, by simp⟩
  · exact List.Perm.refl _
  · intro j h0 h1
    have h1 : j < 1 := h1
    omega

theorem test_inv_started : Inv started :=
  inv_plain (s := started) (ParsePhase.mk ⟨.hole, trivial, trivial, rfl, rfl⟩ rfl rfl (by decide) (by decide)) (by decide) rfl
    (by decide) rfl (by decide)

theorem test_inv_rootLeaf : Inv rootLeaf :=
  inv_plain (s := rootLeaf)
    (ParsePhase.mk ⟨.leaf 0, trivial, ⟨_, rfl, rfl⟩, rfl, rfl⟩ rfl rfl (fun _ => ⟨rfl, _, rfl, rfl⟩) (by decide)) (by decide) rfl
    (by decide) rfl (by decide)

theorem test_inv_innerLeaf : Inv innerLeaf :=
  inv_plain (s := innerLeaf)
    (ParsePhase.mk
      ⟨.node 0 (.leaf 1) .hole, ⟨fun _ => rfl, trivial, trivial⟩,
        ⟨⟨_, rfl, rfl, fun _ => rfl, fun h => absurd rfl h⟩, ⟨_, rfl, rfl⟩, trivial⟩, rfl, rfl⟩
      rfl rfl (fun _ => ⟨rfl, _, rfl, rfl⟩) (by decide))
    (by decide) rfl (by decide) rfl (by decide)

theorem test_inv_halfway : Inv halfway :=
  inv_plain (s := halfway)
    (ParsePhase.mk
      ⟨.node 0 (.leaf 1) .hole, ⟨fun _ => rfl, trivial, trivial⟩,
        ⟨⟨_, rfl, rfl, fun _ => rfl, fun h => absurd rfl h⟩, ⟨_, rfl, rfl⟩, trivial⟩, rfl, rfl⟩
      rfl rfl (by decide) (by decide))
    (by decide) rfl (by decide) rfl (by decide)

theorem test_inv_parsed (b : Nat) : Inv (parsedWith b) :=
  inv_plain (s := parsedWith b)
    (ParsedPhase.mk
      ⟨.node 0 (.leaf 1) (.leaf 2), rfl,
        ⟨⟨_, rfl, rfl, fun _ => rfl, fun _ => rfl⟩, ⟨_, rfl, rfl⟩, ⟨_, rfl, rfl⟩⟩, rfl⟩
      ⟨rfl, rfl, rfl⟩ rfl rfl)
    (by show 3 ≤ nodeCap; decide) rfl ⟨rfl, rfl, rfl, rfl⟩ rfl (fun h => nomatch h)

/-- After `DESER_START` and 511 bytes 30 (T-DES-10): DS 1/511/0, `NCOUNT` = 511. -/
def full : State :=
  { started with
    nodes := (List.range 511).map fun i => nd 0 (if i < 510 then i + 1 else 0) 0
    dsStk := ⟨510, .left⟩ :: (List.range 510).reverse.map fun i => ⟨BitVec.ofNat 9 i, .right⟩ }

/-- Its shape: a chain of left children. -/
def chain : Nat → Nat → Shape
  | 0, i => .node (BitVec.ofNat 9 i) .hole .hole
  | k + 1, i => .node (BitVec.ofNat 9 i) (chain k (i + 1)) .hole

theorem chain_ne_hole (k i : Nat) : chain k i ≠ .hole := by cases k <;> simp [chain]

theorem chain_top (k i : Nat) : (chain k i).top = BitVec.ofNat 9 i := by cases k <;> rfl

theorem chain_leftFilled (k i : Nat) : (chain k i).leftFilled := by
  induction k generalizing i with
  | zero => exact ⟨fun h => absurd rfl h, trivial, trivial⟩
  | succ k ih => exact ⟨fun h => absurd rfl h, ih _, trivial⟩

theorem chain_inArena (k i : Nat) (h : i + k = 510) : (chain k i).InArena full.nodes := by
  have hn : full.nodes[(BitVec.ofNat 9 i).toNat]? = some (nd 0 (if i < 510 then i + 1 else 0) 0) := by
    have : (BitVec.ofNat 9 i).toNat = i := by simp; omega
    rw [this]
    simp [full, show i < 511 by omega]
  induction k generalizing i with
  | zero => exact ⟨⟨_, hn, rfl, fun h => absurd rfl h, fun h => absurd rfl h⟩, trivial, trivial⟩
  | succ k ih =>
    refine ⟨⟨_, hn, rfl, fun _ => ?_, fun h => absurd rfl h⟩, ih (i + 1) (by omega) ?_, trivial⟩
    · rw [chain_top, if_pos (by omega)]
      rfl
    · have : (BitVec.ofNat 9 (i + 1)).toNat = i + 1 := by simp; omega
      rw [this]
      simp [full, show i + 1 < 511 by omega]

theorem chain_frames (k i : Nat) :
    (chain k i).frames = ⟨BitVec.ofNat 9 (i + k), .left⟩ :: (List.range' i k).reverse.map fun j => ⟨BitVec.ofNat 9 j, .right⟩ := by
  induction k generalizing i with
  | zero => rfl
  | succ k ih =>
    have e : (chain (k + 1) i).frames = (chain k (i + 1)).frames ++ [⟨BitVec.ofNat 9 i, .right⟩] := by
      have := chain_ne_hole k (i + 1)
      simp only [chain]
      cases h : chain k (i + 1) <;> first | exact absurd h this | rfl
    rw [e, ih, List.range'_succ, show i + 1 + k = i + (k + 1) by omega]
    simp

theorem chain_indices (k i : Nat) (h : i + k < 512) : (chain k i).indices.map BitVec.toNat = List.range' i (k + 1) := by
  induction k generalizing i with
  | zero => simp [chain, Shape.indices]; omega
  | succ k ih =>
    rw [List.range'_succ, ← ih (i + 1) (by omega)]
    simp [chain, Shape.indices]
    omega

theorem test_inv_full : Inv full := by
  have hn : full.ncount = 511 := by simp [full, State.ncount]
  refine inv_plain (s := full) ?_ (by rw [hn]; decide) rfl (by decide) rfl (by decide)
  exact ParsePhase.mk
    ⟨chain 510 0, chain_leftFilled _ _, chain_inArena _ _ rfl, by rw [chain_frames, ← List.range_eq_range']; rfl,
      by rw [chain_indices _ _ (by decide), hn, ← List.range_eq_range']⟩
    rfl rfl (fun h => nomatch h) (fun _ h => nomatch h)

/-! ## The trees of the states -/

theorem test_tree_built : TreeIs built (.node 4 (.leaf 2) (.node 3 (.leaf 0) (.leaf 1))) :=
  ⟨rfl, ⟨⟨_, rfl, rfl, fun _ => rfl, fun _ => rfl⟩, ⟨_, rfl, rfl⟩, ⟨_, rfl, rfl, fun _ => rfl, fun _ => rfl⟩, ⟨_, rfl, rfl⟩, ⟨_, rfl, rfl⟩⟩,
    rfl, show List.Perm _ _ by decide⟩

theorem test_tree_single : TreeIs single (.leaf 0) := ⟨rfl, ⟨_, rfl, rfl⟩, rfl, List.Perm.refl _⟩

theorem test_tree_parsed (b : Nat) : TreeIs (parsedWith b) (.node 0 (.leaf 1) (.leaf 2)) :=
  ⟨rfl, ⟨⟨_, rfl, rfl, fun _ => rfl, fun _ => rfl⟩, ⟨_, rfl, rfl⟩, ⟨_, rfl, rfl⟩⟩, rfl, show List.Perm _ _ from List.Perm.refl _⟩

/-! ## States and operands that meet the hypotheses of each statement, clause by clause, at the ends of the ranges -/

theorem test_witness_EncodeOfDecode : decode 0x130000FF80000001 = .command (.freqSetHi 0xFF 0x80000001) := by decide

theorem test_witness_DecodingFollowsTheMap :
    (∀ m : Mnemonic, m.opcode ≠ opField 0x7200000000000000) ∧
    (Mnemonic.NOP.opcode = opField 0x0000000000000001 ∧ reservedField .F0 0x0000000000000001 ≠ 0) ∧
    (Mnemonic.COUNT_EMIT.opcode = opField 0x7100000000000000 ∧ reservedField .F0 0x7100000000000000 = 0) := by
  refine ⟨fun m => ?_, by decide, by decide⟩
  cases m <;> decide

theorem test_witness_AssemblerNeverTruncates :
    (AsmLine.mk .FREQ_SET_LO [255, 4294967296]).wellFormed = false ∧
    (AsmLine.mk .FREQ_SET_LO [255, 4294967295]).wellFormed = true := by decide

/-- Of the statements whose one hypothesis is that no error is recorded. -/
theorem test_witness_noError : State.reset.err = .noError ∧ counts.err = .noError ∧ built.err = .noError := by decide

theorem test_witness_StepTakesTheNextAction :
    State.reset.inbox = [] ∧ decode 0x7100000000000000 = .command .countEmit ∧
    decode 0x7100000000000001 = .illegal (.reservedBits .F0) ∧
    ({ State.reset with inbox := [.cmd 0x7100000000000000] } : State).inbox = .cmd 0x7100000000000000 :: [] ∧
    ({ State.reset with inbox := [.cmd 0x7100000000000001] } : State).inbox = .cmd 0x7100000000000001 :: [] ∧
    ({ State.reset with inbox := [.regRead 0xFFF] } : State).inbox = .regRead 0xFFF :: [] ∧
    ({ State.reset with inbox := [.hwReset] } : State).inbox = .hwReset :: [] := by decide

theorem test_witness_IllegalWordRaises :
    decode 0xFF00000000000000 = .illegal (.unassignedOpcode 0xFF) ∧ counts.err = .noError ∧ failed.err ≠ .noError := by decide

theorem test_witness_StickyErrorIgnoresCommands :
    failed.err ≠ .noError ∧ (0x0200000000000001 : Word) ≠ 0x0000000000000000 ∧
    (0x0200000000000001 : Word) ≠ 0x0100000000000000 ∧ (0x0200000000000001 : Word) ≠ 0x0200000000000000 := by decide

/-- Live entries at both ends: node 0 and node 510, the heap's first, the stack's first and last. -/
theorem test_witness_RegisterMapReadsEveryRow :
    Inv built ∧ built.nodes[0]? = some (lf 0x41 2) ∧ built.heap[0]? = some 4 ∧
    Inv full ∧ full.nodes[510]? = some (nd 0 0 0) ∧
    full.dsStk.reverse[0]? = some ⟨0, .right⟩ ∧ full.dsStk.reverse[510]? = some ⟨510, .left⟩ :=
  ⟨test_inv_built, by decide, by decide, test_inv_full, by simp [full], by simp [full],
    by simp [full]⟩

theorem test_witness_NonLiveReadsAreFree :
    (built.ncount ≤ 5 ∧ (0x805 : RegIdx).toNat = 0x800 + 5) ∧ (built.ncount ≤ 510 ∧ (0xBFE : RegIdx).toNat = 0xA00 + 510) ∧
    (built.hsize ≤ 1 ∧ (0xC01 : RegIdx).toNat = 0xC00 + 1) ∧ (built.hsize ≤ 255 ∧ (0xCFF : RegIdx).toNat = 0xC00 + 255) ∧
    (built.dsDepth ≤ 0 ∧ (0xE00 : RegIdx).toNat = 0xE00 + 0) ∧ (built.dsDepth ≤ 510 ∧ (0xFFE : RegIdx).toNat = 0xE00 + 510) := by
  decide

theorem test_witness_ErrorsChangeOnlyTheErrorRegisters :
    ∃ t, runWord 0x2200000000000000 State.reset = .next t ∧ decide (t.err ≠ .noError) = true :=
  next_of_gives (p := fun t => decide (t.err ≠ .noError)) (by decide +kernel)

/-- A command that answers a next state, raising an error or not. -/
theorem test_witness_ErrorsComeFromTheirCommands :
    (∃ t, exec .countEmit { single with nodes := [lf 0x41 281474976710656] } = .next t ∧ decide (t.err = .countOvf) = true) ∧
    ∃ t, exec (.deserByte 0x32) started = .next t ∧ decide (t.err = .corruptHeader) = true :=
  ⟨next_of_gives (p := fun t => decide (t.err = .countOvf)) (by decide +kernel),
    next_of_gives (p := fun t => decide (t.err = .corruptHeader)) (by decide +kernel)⟩

theorem test_witness_FreqIncCountsOneOccurrence :
    ((counts.setFreq 0xFF 18446744073709551614).freqOf 0xFF).toNat < 2 ^ 64 - 1 ∧
    ((counts.setFreq 0xFF 18446744073709551615).freqOf 0xFF).toNat = 2 ^ 64 - 1 := by decide +kernel

theorem test_witness_FrequencyPassCountsInput :
    (∃ t, execAll (.reset :: [0x41, 0xFF, 0x41].map .freqInc) counts = .next t ∧ decide (t.err = .noError) = true) ∧
    ([] : List Byte).length < 2 ^ 64 :=
  ⟨next_of_gives (p := fun t => decide (t.err = .noError)) (by decide +kernel), by decide⟩

theorem test_witness_FrequenciesReachTheTreeOnlyBySeeding :
    (∃ t, exec (.freqInc 0x41) counts = .next t ∧ (t.freqOf 0x41 == 3) = true) ∧
    ∃ t, exec .countEmit built = .next t ∧ (t.out.length == 6) = true :=
  ⟨next_of_gives (p := fun t => t.freqOf 0x41 == 3) (by decide +kernel),
    next_of_gives (p := fun t => t.out.length == 6) (by decide +kernel)⟩

theorem test_witness_HeapPropertyIsKept : HeapOrdered seeded.key seeded.heap ∧ seeded.heap ≠ [] :=
  ⟨test_inv_seeded.phase.ordered, by decide⟩

/-- A total of 2^64, and of 2^64 − 1. -/
theorem test_witness_SeedChecksCounts :
    ((State.reset.setFreq 0x41 18446744073709551615).setFreq 0x42 1).freqTotal = 2 ^ 64 ∧
    ((State.reset.setFreq 0x41 18446744073709551614).setFreq 0x42 1).freqTotal = 2 ^ 64 - 1 ∧
    ((State.reset.setFreq 0x41 18446744073709551614).setFreq 0x42 1).freqOf 0x42 ≠ 0 := by
  rw [State.freqTotal_eq, State.freqTotal_eq]
  decide +kernel

theorem test_witness_SeedChecksCounts_empty : ∀ a, State.reset.freqOf a = 0 := by
  intro a
  simp [State.freqOf, State.reset]

/-- The third clause; SeedChecksCounts' witnesses meet the first two. -/
theorem test_witness_TreeSeedMakesTheLeaves :
    (counts.freqOf 0x41 ≠ 0 ∧ counts.freqTotal < 2 ^ 64) ∧ single.freqOf 0x41 ≠ 0 ∧ single.freqTotal < 2 ^ 64 := by
  rw [State.freqTotal_eq, State.freqTotal_eq]
  decide +kernel

theorem test_witness_TreeMergeJoinsTheTwoLightest :
    built.hsize < 2 ∧ (Inv merged ∧ 2 ≤ merged.hsize ∧ merged.hsize = 2) ∧ Inv seeded ∧ 2 ≤ seeded.hsize :=
  ⟨by decide, ⟨test_inv_merged, by decide, by decide⟩, test_inv_seeded, by decide⟩

theorem test_witness_TreeBuildIsSeedThenMerges :
    counts.seedError = none ∧ ∃ t, exec .treeSeed State.reset = .next t ∧ decide (t.err ≠ .noError) = true :=
  ⟨by decide +kernel, next_of_gives (p := fun t => decide (t.err ≠ .noError)) (by decide +kernel)⟩

theorem test_witness_TreeBuildLaysOutTheArena :
    2 < counts.presentSymbols.length ∧
    ∃ u, execAll (.treeSeed :: List.replicate 2 .treeMerge) counts = .next u ∧ (u.ncount == 5) = true :=
  ⟨by decide +kernel, next_of_gives (p := fun u => u.ncount == 5) (by decide +kernel)⟩

/-- Eight bits for each symbol are one prefix-free assignment. -/
theorem test_witness_BuiltCodesAreOptimal :
    (∃ t, execAll [.treeBuild, .codeBuild] counts = .next t ∧ decide (t.err = .noError) = true) ∧
    ∀ a b : Byte, a ≠ b → ¬ byteBits a <+: byteBits b := by
  refine ⟨next_of_gives (p := fun t => decide (t.err = .noError)) (by decide +kernel), fun a b hab h => hab ?_⟩
  have h : byteBits a = byteBits b := h.eq_of_length rfl
  simp only [byteBits, List.map_cons, List.map_nil, List.cons.injEq, and_true] at h
  obtain ⟨h7, h6, h5, h4, h3, h2, h1, h0⟩ := h
  apply BitVec.eq_of_getLsbD_eq
  intro i hi
  interval_cases i <;> assumption

theorem test_witness_CodeBuildRecordsThePaths :
    seeded.tvalid = false ∧
    (TreeIs (parsedWith 0x41) (.node 0 (.leaf 1) (.leaf 2)) ∧
      ¬ (((Shape.node 0 (.leaf 1) (.leaf 2)).paths []).map fun e => ((parsedWith 0x41).node e.1).sym).Nodup) ∧
    (TreeIs built (.node 4 (.leaf 2) (.node 3 (.leaf 0) (.leaf 1))) ∧
      (((Shape.node 4 (.leaf 2) (.node 3 (.leaf 0) (.leaf 1))).paths []).map fun e => (built.node e.1).sym).Nodup) :=
  ⟨rfl, ⟨test_tree_parsed _, by decide⟩, test_tree_built, by decide⟩

theorem test_witness_CodesArePrefixFree :
    Inv built ∧ ∃ t, exec .codeBuild built = .next t ∧
      decide (t.err = .noError ∧ (t.codeOf 0x41).cvalid = true ∧ (t.codeOf 0x42).cvalid = true) = true :=
  ⟨test_inv_built, next_of_gives
    (p := fun t => decide (t.err = .noError ∧ (t.codeOf 0x41).cvalid = true ∧ (t.codeOf 0x42).cvalid = true))
    (by decide +kernel)⟩

/-- A built tree and a parsed one of the same shape and symbols. -/
theorem test_witness_TableDependsOnShapeAndSymbols :
    Inv pair ∧ Inv (parsedWith 0x42) ∧ pair.serialized = (parsedWith 0x42).serialized ∧
    (∃ t, exec .codeBuild pair = .next t ∧ decide (t.err = .noError) = true) ∧
    ∃ t, exec .codeBuild (parsedWith 0x42) = .next t ∧ decide (t.err = .noError) = true :=
  ⟨test_inv_pair, test_inv_parsed _, by decide +kernel,
    next_of_gives (p := fun t => decide (t.err = .noError)) (by decide +kernel),
    next_of_gives (p := fun t => decide (t.err = .noError)) (by decide +kernel)⟩

theorem test_witness_PackSymAppendsTheCode :
    built.ctvalid = false ∧ (coded.ctvalid = true ∧ (coded.codeOf 0x44).cvalid = false) ∧
    (coded.codeOf 0x42).cvalid = true ∧ ((0x7F : Byte).toNat < 2 ^ (7 : BitVec 3).toNat) := by decide +kernel

theorem test_witness_PackFlushPadsTheLastByte :
    (coded.pacc.toNat < 2 ^ coded.paccn.toNat ∧ coded.paccn = 0) ∧
    ((0x7F : Byte).toNat < 2 ^ (7 : BitVec 3).toNat ∧ (7 : BitVec 3) ≠ 0) := by decide

theorem test_witness_PackingLaw :
    coded.ctvalid = true ∧ coded.paccn = 0 ∧ coded.pacc = 0 ∧
    ∀ a ∈ ([0x41, 0x42, 0x43] : List Byte), (coded.codeOf a).cvalid = true := by decide +kernel

theorem test_witness_UnpackByteWalksEightBits :
    seeded.tvalid = false ∧ (built.tvalid = true ∧ built.remain = 0) ∧ (single.tvalid = true ∧ (single.node single.root).kind = .leaf) ∧
    ({ built with remain := 9 } : State).remain ≠ 0 ∧ (built.node built.root).kind = .internal := by decide

theorem test_witness_UnpackByteStaysWithinTheCount : Inv ({ built with remain := 9 } : State) ∧ built.tvalid = true :=
  
  have p : BuilderPhase built := test_inv_built.phase
  ⟨{ test_inv_built with phase := BuilderPhase.mk p.forest p.noParse p.ordered p.total p.oneRoot p.present, table := fun h => nomatch (show false = true from h) }, rfl⟩

theorem test_witness_UnpackSymEmitsTheRootSymbol :
    (seeded.tvalid = false ∧ (built.node built.root).kind = .internal) ∧
    (single.tvalid = true ∧ (single.node single.root).kind = .leaf ∧ single.remain = 0) ∧
    ({ single with remain := 281474976710655 } : State).remain ≠ 0 := by decide

theorem test_witness_UnpackEndChecksTheCount :
    ({ built with remain := 1 } : State).remain ≠ 0 ∧ built.remain = 0 := by decide

/-- E2: the payload AF C0 is the codes of AABBBCCCC and two bits of padding; and a degenerate tree. -/
theorem test_witness_DecodingLaw :
    TreeIs ({ built with remain := 9 } : State) (.node 4 (.leaf 2) (.node 3 (.leaf 0) (.leaf 1))) ∧ built.walk = built.root ∧
    (∀ x ∈ ([(2, [false]), (0, [true, false]), (1, [true, true])] : List (NodeIdx × Bits)),
      x ∈ (Shape.node 4 (.leaf 2) (.node 3 (.leaf 0) (.leaf 1))).paths []) ∧
    streamBits [0xAF, 0xC0] =
      ([(0, [true, false]), (0, [true, false]), (1, [true, true]), (1, [true, true]), (1, [true, true]), (2, [false]), (2, [false]),
        (2, [false]), (2, [false])] : List (NodeIdx × Bits)).flatMap Prod.snd ++ [false, false] ∧
    TreeIs ({ single with remain := 5 } : State) (.leaf 0) ∧ single.walk = single.root :=
  ⟨test_tree_built, rfl, by decide, by decide, test_tree_single, rfl⟩

theorem test_witness_TreeSerEmitsPreOrder :
    seeded.tvalid = false ∧ built.tvalid = true ∧ built.ncount ≤ nodeCap ∧
    TreeIs built (.node 4 (.leaf 2) (.node 3 (.leaf 0) (.leaf 1))) := ⟨rfl, rfl, by decide, test_tree_built⟩

theorem test_witness_SerializedTreesArePrefixFree :
    (Shape.leaf 7).complete = true ∧ (Shape.leaf 0).complete = true ∧
    (Shape.leaf 7).bytes (fun _ => 0x30) ++ [] = (Shape.leaf 0).bytes fun _ => 0x30 := by decide

theorem test_witness_DeserByteParsesOneByte :
    (Inv seeded ∧ seeded.dsState = .idle) ∧ (Inv (parsedWith 0x42) ∧ (parsedWith 0x42).dsState = .done) ∧
    (Inv rootLeaf ∧ rootLeaf.dsState = .sym ∧ rootLeaf.dsStk = []) ∧
    (Inv innerLeaf ∧ innerLeaf.dsState = .sym ∧ innerLeaf.dsStk ≠ []) ∧
    (Inv halfway ∧ halfway.dsState = .marker ∧ halfway.ncount < 511 ∧ (0x32 : Byte) ≠ 0x31 ∧ (0x32 : Byte) ≠ 0x30) ∧
    (Inv full ∧ full.dsState = .marker ∧ full.ncount = 511) ∧ Inv started ∧ started.dsState = .marker ∧ started.ncount < 511 :=
  ⟨⟨test_inv_seeded, rfl⟩,
    ⟨test_inv_parsed _, rfl⟩, ⟨test_inv_rootLeaf, rfl, rfl⟩, ⟨test_inv_innerLeaf, rfl, by decide⟩,
    ⟨test_inv_halfway, rfl, by decide, by decide, by decide⟩, ⟨test_inv_full, rfl, by decide +kernel⟩, test_inv_started, rfl, by decide⟩

theorem test_witness_DeserEndChecksTheTree :
    built.dsState = .idle ∧ halfway.dsState = .marker ∧ innerLeaf.dsState = .sym ∧ (parsedWith 0x42).dsState = .done := by decide

/-- Of TreeRoundTrip, StackNeverOverflows, InvariantsOfTheState and EveryStepCompletes. -/
theorem test_witness_TreeRoundTrip : Inv built ∧ built.err = .noError ∧ built.tvalid = true := ⟨test_inv_built, rfl, rfl⟩

/-- A root of weight 2^48 and one of weight 2^48 − 1. -/
theorem test_witness_CountEmitWritesSixBytes :
    seeded.tvalid = false ∧ (parsedWith 0x42).torigin = .deserializer ∧
    2 ^ 48 - 1 < (({ single with nodes := [lf 0x41 281474976710656] } : State).weight 0).toNat ∧
    (({ single with nodes := [lf 0x41 281474976710655] } : State).weight 0).toNat ≤ 2 ^ 48 - 1 ∧
    single.tvalid = true ∧ single.torigin = .builder := by decide

theorem test_witness_EncodeSequenceEmitsAContainer :
    State.reset.err = .noError ∧ State.reset.paccn = 0 ∧ State.reset.pacc = 0 ∧
    (List.replicate 255 (0x74 : Byte)).length ≤ 255 ∧ ([0x41] : List Byte) ≠ [] ∧ ([0x41] : List Byte).length < 2 ^ 48 ∧
    2 ^ 48 ≤ (List.replicate (2 ^ 48) (0x41 : Byte)).length ∧ (List.replicate (2 ^ 48) (0x41 : Byte)).length < 2 ^ 64 := by
  refine ⟨rfl, rfl, rfl, by decide +kernel, by decide, by decide, ?_, ?_⟩
  · rw [List.length_replicate]
  · rw [List.length_replicate]; omega

theorem test_witness_RoundTrip :
    State.reset.paccn = 0 ∧ State.reset.pacc = 0 ∧ 1 ≤ ([0x41] : List Byte).length ∧ ([0x41] : List Byte).length ≤ 2 ^ 48 - 1 ∧
    Inv built ∧ built.err = .noError := ⟨rfl, rfl, by decide, by decide, test_inv_built, rfl⟩

/-- A step of each of the two kinds, from a state of the invariant. -/
theorem test_witness_EveryStepKeepsTheInvariant :
    Inv ({ seeded with inbox := [.cmd 0x2100000000000000] } : State) ∧
    ∃ t, step { seeded with inbox := [.cmd 0x2100000000000000] } = .next t ∧ (t.ncount == 4) = true :=
  have p : BuilderPhase seeded := test_inv_seeded.phase
  ⟨{ test_inv_seeded with phase := BuilderPhase.mk p.forest p.noParse p.ordered p.total p.oneRoot p.present, table := fun h => nomatch (show false = true from h) }, next_of_gives (p := fun t => t.ncount == 4) (by decide +kernel)⟩

theorem test_witness_NoRuleReadsANonLiveEntry :
    Inv seeded ∧ ∃ t, exec .treeMerge seeded = .next t ∧ (t.ncount == 4) = true :=
  ⟨test_inv_seeded, next_of_gives (p := fun t => t.ncount == 4) (by decide +kernel)⟩

theorem test_witness_OutputIsAppendOnly :
    (∃ t, exec .treeSer built = .next t ∧ (t.out.length == 8) = true) ∧
    ∃ t, exec .reset { built with outcnt := 4, out := [1, 2, 3, 4] } = .next t ∧ (t.outcnt == 0) = true :=
  ⟨next_of_gives (p := fun t => t.out.length == 8) (by decide +kernel),
    next_of_gives (p := fun t => t.outcnt == 0) (by decide +kernel)⟩

/-- A command that changes each component. -/
theorem test_witness_ComponentsAreWrittenByTheirCommands :
    (∃ t, exec .treeBuild counts = .next t ∧ decide (t.nodes ≠ counts.nodes ∧ t.heap ≠ counts.heap ∧ t.walk ≠ counts.walk) = true) ∧
    ∃ t, exec .clrerr failed = .next t ∧ decide (t.err ≠ failed.err) = true :=
  ⟨next_of_gives (p := fun t => decide (t.nodes ≠ counts.nodes ∧ t.heap ≠ counts.heap ∧ t.walk ≠ counts.walk)) (by decide +kernel),
    next_of_gives (p := fun t => decide (t.err ≠ failed.err)) (by decide +kernel)⟩

end Sys2Proof.Tests
end

/-!
# Reading back the fields of a command word (R101 to R107)
-/

namespace Sys2Proof

/-- A field placed at bit `lo` of a word is read back from there. -/
theorem extractLsb'_placed_self {n : Nat} (x : BitVec n) {lo : Nat} (h : lo + n ≤ 64) :
    (x.setWidth 64 <<< lo).extractLsb' lo n = x := by
  ext i hi
  simp [show lo + i < 64 by omega, BitVec.getLsbD_eq_getElem hi]

/-- Outside the bits of a placed field there are zeros. -/
theorem extractLsb'_placed_outside {n : Nat} (x : BitVec n) {lo pos k : Nat} (h : lo + n ≤ pos ∨ pos + k ≤ lo) :
    (x.setWidth 64 <<< lo).extractLsb' pos k = 0#k := by
  ext i hi
  simp only [BitVec.getElem_extractLsb', BitVec.getLsbD_shiftLeft, BitVec.getLsbD_setWidth, BitVec.getElem_zero]
  simp only [Bool.and_eq_false_iff, decide_eq_false_iff_not, Bool.not_eq_false', decide_eq_true_eq]
  by_cases hlo : pos + i < lo
  · exact .inl (.inr hlo)
  · exact .inr (.inr (BitVec.getLsbD_of_ge x _ (by omega)))

/-- A word with a row's opcode field and no reserved bit of its format decodes to the row's command (R107). -/
theorem decode_of_fields {w : Word} {m : Mnemonic} (ho : opField w = m.opcode) (hr : reservedField m.format w = 0) :
    decode w = .command (m.command w) := by
  have hm : Mnemonic.ofOpcode m.opcode = some m := by cases m <;> decide
  simp only [decode, ho, hm, hr, if_true]

/-- Below bit 56 a row's word has only the operand bits (R102 to R104). -/
theorem extractLsb'_matchWord_or (m : Mnemonic) (x : Word) {lo k : Nat} (h : lo + k ≤ 56) :
    (m.matchWord ||| x).extractLsb' lo k = x.extractLsb' lo k := by
  rw [BitVec.extractLsb'_or, Mnemonic.matchWord, extractLsb'_placed_outside _ (.inr h), BitVec.zero_or]

/-- Operand bits below bit 56 leave a row's opcode field alone (R101). -/
theorem opField_matchWord_or (m : Mnemonic) {x : Word} (hx : x.extractLsb' 56 8 = 0#8) :
    opField (m.matchWord ||| x) = m.opcode := by
  rw [opField, Mnemonic.matchWord, BitVec.extractLsb'_or, extractLsb'_placed_self _ (by decide), hx, BitVec.or_zero]

/-- The word of a row of format F0 decodes to the row's command (R102). -/
theorem decode_matchWord_F0 {m : Mnemonic} (hf : m.format = .F0) {i : Instr} (hi : ∀ w, m.command w = i) :
    decode (m.matchWord ||| 0) = .command i := by
  rw [← hi (m.matchWord ||| 0)]
  refine decode_of_fields (opField_matchWord_or m rfl) ?_
  rw [hf, reservedField, extractLsb'_matchWord_or m _ (by decide)]
  rfl

/-- A word of format FB, with byte operand `b`, decodes to the row's command on `b` (R103). -/
theorem decode_matchWord_FB {m : Mnemonic} (hf : m.format = .FB) (b : Byte) {i : Instr}
    (hi : ∀ w, imm8Field w = b → m.command w = i) : decode (m.matchWord ||| b.setWidth 64) = .command i := by
  have outside : ∀ pos k, 8 ≤ pos → (b.setWidth 64).extractLsb' pos k = 0#k := fun pos k h => by
    simpa using extractLsb'_placed_outside b (lo := 0) (.inl (by omega : 0 + 8 ≤ pos))
  rw [← hi (m.matchWord ||| b.setWidth 64)]
  · refine decode_of_fields (opField_matchWord_or m (outside _ _ (by decide))) ?_
    rw [hf, reservedField, extractLsb'_matchWord_or m _ (by decide), outside _ _ (by decide)]
    rfl
  · rw [imm8Field, extractLsb'_matchWord_or m _ (by decide)]
    simpa using extractLsb'_placed_self b (lo := 0) (by decide)

/-- A word of format FW, with symbol `a` and value `v`, decodes to the row's command on `a` and `v` (R104). -/
theorem decode_matchWord_FW {m : Mnemonic} (hf : m.format = .FW) (a : Byte) (v : Half) {i : Instr}
    (hi : ∀ w, symField w = a → imm32Field w = v → m.command w = i) :
    decode (m.matchWord ||| (a.setWidth 64 <<< 32 ||| v.setWidth 64)) = .command i := by
  have valueOutside : ∀ pos k, 32 ≤ pos → (v.setWidth 64).extractLsb' pos k = 0#k := fun pos k h => by
    simpa using extractLsb'_placed_outside v (lo := 0) (.inl (by omega : 0 + 32 ≤ pos))
  have outside : ∀ pos k, 40 ≤ pos → (a.setWidth 64 <<< 32 ||| v.setWidth 64).extractLsb' pos k = 0#k :=
    fun pos k h => by
      rw [BitVec.extractLsb'_or, extractLsb'_placed_outside a (.inl h), valueOutside _ _ (by omega), BitVec.or_zero]
  rw [← hi (m.matchWord ||| (a.setWidth 64 <<< 32 ||| v.setWidth 64))]
  · refine decode_of_fields (opField_matchWord_or m (outside _ _ (by decide))) ?_
    rw [hf, reservedField, extractLsb'_matchWord_or m _ (by decide), outside _ _ (by decide)]
    rfl
  · rw [symField, extractLsb'_matchWord_or m _ (by decide), BitVec.extractLsb'_or, valueOutside _ _ (by decide),
      extractLsb'_placed_self a (by decide), BitVec.or_zero]
  · rw [imm32Field, extractLsb'_matchWord_or m _ (by decide), BitVec.extractLsb'_or,
      extractLsb'_placed_outside a (.inr (by decide)), BitVec.zero_or]
    simpa using extractLsb'_placed_self v (lo := 0) (by decide)

/-- The word of a command decodes to it (R102 to R105, R107): by the format of its row. -/
theorem decode_encode (i : Instr) : decode (encode i) = .command i := by
  cases i with
  | freqInc b => exact decode_matchWord_FB (m := .FREQ_INC) rfl b fun _ => congrArg Instr.freqInc
  | packSym b => exact decode_matchWord_FB (m := .PACK_SYM) rfl b fun _ => congrArg Instr.packSym
  | countShift b => exact decode_matchWord_FB (m := .COUNT_SHIFT) rfl b fun _ => congrArg Instr.countShift
  | unpackByte b => exact decode_matchWord_FB (m := .UNPACK_BYTE) rfl b fun _ => congrArg Instr.unpackByte
  | deserByte b => exact decode_matchWord_FB (m := .DESER_BYTE) rfl b fun _ => congrArg Instr.deserByte
  | emitByte b => exact decode_matchWord_FB (m := .EMIT_BYTE) rfl b fun _ => congrArg Instr.emitByte
  | freqSetLo a v => exact decode_matchWord_FW (m := .FREQ_SET_LO) rfl a v fun _ => congrArg₂ Instr.freqSetLo
  | freqSetHi a v => exact decode_matchWord_FW (m := .FREQ_SET_HI) rfl a v fun _ => congrArg₂ Instr.freqSetHi
  | nop | reset | clrerr | freqClear | treeSeed | treeMerge | treeBuild | codeBuild | packFlush | unpackInit
  | unpackSym | unpackEnd | treeSer | deserStart | deserEnd | countEmit =>
    exact decode_matchWord_F0 rfl fun _ => rfl

end Sys2Proof

/-!
# A step takes the host's next action (O7)
-/

namespace Sys2Proof.Machine

theorem step_of_inbox_nil {s : State} (h : s.inbox = []) : step s = .next s := by
  rw [step, h]

theorem step_of_inbox_cons {s : State} {a : HostAction} {rest : List HostAction} (h : s.inbox = a :: rest) :
    step s = perform a rest s := by
  rw [step, h]

theorem runWord_of_command {w : Word} {i : Instr} (h : decode w = .command i) (s : State) : runWord w s = exec i s := by
  rw [runWord, h]

theorem runWord_of_illegal {w : Word} {why : IllegalReason} (h : decode w = .illegal why) (s : State) :
    runWord w s = illegalWord w s := by
  rw [runWord, h]

/-- A word put at the head of the queue is the host's next action, and the rest of the queue is as it was. -/
theorem step_withFetchWord (s : State) (w : Word) : step (s.withFetchWord 64 w.toNat) = runWord w (s.take s.inbox) := by
  have hw : BitVec.ofNat 64 (w.toNat % 2 ^ 64) = w := by
    rw [Nat.mod_eq_of_lt w.isLt, BitVec.ofNat_toNat, BitVec.setWidth_eq]
  rw [State.withFetchWord, hw]
  rfl

/-- Settles O7, by the head of the queue. -/
theorem stepTakesTheNextAction : Obligations.StepTakesTheNextAction := by
  intro s rest
  refine ⟨step_of_inbox_nil, fun w i h hd => ?_, fun w why h hd => ?_, fun idx => step_of_inbox_cons,
    step_of_inbox_cons, fun i => ?_⟩
  · exact (step_of_inbox_cons h).trans (runWord_of_command hd _)
  · exact (step_of_inbox_cons h).trans (runWord_of_illegal hd _)
  · rw [step_withFetchWord, runWord_of_command (decode_encode i)]

end Sys2Proof.Machine

/-!
# Lengths of codes of which none begins another

Weights and code lengths alone, without the block. A list of pairs is an assignment of a length to each weight. The lengths
of codes of which none begins another have a Kraft sum of at most 1. What every assignment with such a sum costs is bounded
from below, and the bound grows by `a + b` when the two least weights `a` and `b` are split out of one of weight `a + b`.
-/

namespace Sys2Proof.CodeLengths

/-- The total of weight times length. -/
def cost (ps : List (Nat × Nat)) : Nat := (ps.map fun p => p.1 * p.2).sum

/-- The Kraft sum of a list of lengths. -/
noncomputable def kraftSum (ls : List Nat) : ℝ := (ls.map fun l => (1 / 2 : ℝ) ^ l).sum

/-- Every assignment of lengths to these weights that meets Kraft's inequality costs at least `c`. -/
def CostsAtLeast (ws : List Nat) (c : Nat) : Prop :=
  ∀ ps : List (Nat × Nat), (ps.map Prod.fst).Perm ws → kraftSum (ps.map Prod.snd) ≤ 1 → c ≤ cost ps

@[simp] theorem cost_cons (w l : Nat) (ps : List (Nat × Nat)) : cost ((w, l) :: ps) = w * l + cost ps := by
  simp [cost]

@[simp] theorem kraftSum_cons (l : Nat) (ls : List Nat) : kraftSum (l :: ls) = (1 / 2) ^ l + kraftSum ls := by
  simp [kraftSum]

theorem cost_perm {ps qs : List (Nat × Nat)} (h : ps.Perm qs) : cost ps = cost qs := (h.map _).sum_eq

theorem kraftSum_perm {ls ms : List Nat} (h : ls.Perm ms) : kraftSum ls = kraftSum ms := (h.map _).sum_eq

theorem kraftSum_nonneg (ls : List Nat) : 0 ≤ kraftSum ls := by
  refine List.sum_nonneg fun x hx => ?_
  obtain ⟨l, -, rfl⟩ := List.mem_map.mp hx
  positivity

theorem CostsAtLeast.perm {ws vs : List Nat} {c : Nat} (h : CostsAtLeast ws c) (hp : ws.Perm vs) : CostsAtLeast vs c :=
  fun ps hps => h ps (hps.trans hp.symm)

/-- Nothing costs less than 0: the bound that Huffman's argument begins with. -/
theorem costsAtLeast_zero (ws : List Nat) : CostsAtLeast ws 0 := fun _ _ _ => Nat.zero_le _

/-! ## The exchange -/

/-- The least weight may be given the greatest length, by exchanges of lengths that do not raise the cost. -/
theorem exists_longest_first (w l : Nat) (ps : List (Nat × Nat)) (hw : ∀ v ∈ ps.map Prod.fst, w ≤ v) :
    ∃ m qs, qs.map Prod.fst = ps.map Prod.fst ∧ (m :: qs.map Prod.snd).Perm (l :: ps.map Prod.snd) ∧
      (∀ k ∈ qs.map Prod.snd, k ≤ m) ∧ cost ((w, m) :: qs) ≤ cost ((w, l) :: ps) := by
  induction ps with
  | nil => exact ⟨l, [], rfl, .refl _, by simp, le_refl _⟩
  | cons p ps ih =>
    obtain ⟨v, k⟩ := p
    obtain ⟨m, qs, hfst, hsnd, hmax, hcost⟩ := ih fun u hu => hw u (List.mem_cons_of_mem _ hu)
    have hv : w ≤ v := hw v List.mem_cons_self
    simp only [cost_cons] at hcost
    have hperm : (m :: k :: qs.map Prod.snd).Perm (l :: k :: ps.map Prod.snd) :=
      (List.Perm.swap k m _).trans ((hsnd.cons k).trans (List.Perm.swap l k _))
    by_cases hk : k ≤ m
    · refine ⟨m, (v, k) :: qs, by simp [hfst], hperm, by simpa [hk] using hmax, ?_⟩
      simp only [cost_cons]
      omega
    · have hmk : m ≤ k := by omega
      have exchange : w * k + v * m ≤ w * m + v * k := mul_add_mul_le_mul_add_mul hv hmk
      refine ⟨k, (v, m) :: qs, by simp [hfst], (List.Perm.swap m k _).trans hperm, ?_, ?_⟩
      · simp only [List.map_cons, List.mem_cons, forall_eq_or_imp]
        exact ⟨hmk, fun j hj => (hmax j hj).trans hmk⟩
      · simp only [cost_cons]
        omega

/-- The two least weights, in order, may be given the two greatest lengths. -/
theorem exists_two_longest_first {a b : Nat} (l k : Nat) (ps : List (Nat × Nat)) (hab : a ≤ b)
    (hb : ∀ v ∈ ps.map Prod.fst, b ≤ v) :
    ∃ m n qs, qs.map Prod.fst = ps.map Prod.fst ∧ (m :: n :: qs.map Prod.snd).Perm (l :: k :: ps.map Prod.snd) ∧
      n ≤ m ∧ (∀ j ∈ qs.map Prod.snd, j ≤ n) ∧ cost ((a, m) :: (b, n) :: qs) ≤ cost ((a, l) :: (b, k) :: ps) := by
  have ha : ∀ v ∈ ((b, k) :: ps).map Prod.fst, a ≤ v := List.forall_mem_cons.mpr ⟨hab, fun v hv => hab.trans (hb v hv)⟩
  obtain ⟨m, qs, hfst, hsnd, hmax, hcost⟩ := exists_longest_first a l ((b, k) :: ps) ha
  match qs, hfst with
  | (b', j) :: qs, hfst =>
    simp only [List.map_cons, List.cons.injEq] at hfst hsnd hmax
    obtain ⟨rfl, hqs⟩ := hfst
    obtain ⟨n, rs, hfst', hsnd', hmax', hcost'⟩ := exists_longest_first b' j qs (hqs ▸ hb)
    refine ⟨m, n, rs, hfst'.trans hqs, (hsnd'.cons m).trans hsnd, hmax n (hsnd'.mem_iff.mp List.mem_cons_self), hmax', ?_⟩
    simp only [cost_cons] at hcost hcost' ⊢
    omega

/-! ## The room that Kraft's inequality leaves -/

/-- A Kraft sum of lengths up to `n` is a multiple of `2⁻ⁿ`. -/
theorem kraftSum_eq_div (n : Nat) (ls : List Nat) (h : ∀ l ∈ ls, l ≤ n) : ∃ k : ℕ, kraftSum ls = k / 2 ^ n := by
  induction ls with
  | nil => exact ⟨0, by simp [kraftSum]⟩
  | cons l ls ih =>
    obtain ⟨k, hk⟩ := ih fun j hj => h j (List.mem_cons_of_mem _ hj)
    have hl : l ≤ n := h l List.mem_cons_self
    refine ⟨2 ^ (n - l) + k, ?_⟩
    rw [kraftSum_cons, hk, Nat.cast_add, add_div, Nat.cast_pow, Nat.cast_ofNat, pow_sub₀ _ two_ne_zero hl, one_div_pow]
    field_simp

/-- Lengths up to `n` whose Kraft sum is below 1 leave room for one more code of length `n`. -/
theorem kraftSum_add_le_one (n : Nat) (ls : List Nat) (h : ∀ l ∈ ls, l ≤ n) (hlt : kraftSum ls < 1) :
    (1 / 2) ^ n + kraftSum ls ≤ 1 := by
  obtain ⟨k, hk⟩ := kraftSum_eq_div n ls h
  rw [hk] at hlt ⊢
  have hpos : (0 : ℝ) < 2 ^ n := by positivity
  have hkn : k + 1 ≤ 2 ^ n := by
    rw [div_lt_one hpos] at hlt
    exact_mod_cast hlt
  rw [one_div_pow, ← add_div, div_le_one hpos]
  exact_mod_cast (Nat.add_comm 1 k).trans_le hkn

/-- The two greatest lengths `m ≥ n` may be replaced by one of length `n − 1`. -/
theorem kraftSum_merge {m n : Nat} {ls : List Nat} (hmn : n ≤ m) (hls : ∀ l ∈ ls, l ≤ n)
    (h : kraftSum (m :: n :: ls) ≤ 1) : 1 ≤ n ∧ kraftSum ((n - 1) :: ls) ≤ 1 := by
  have hm : (0 : ℝ) < (1 / 2) ^ m := by positivity
  rw [kraftSum_cons] at h
  have room := kraftSum_add_le_one n (n :: ls) (by simpa using hls) (by linarith)
  rw [kraftSum_cons] at room
  have hn : n ≠ 0 := by
    rintro rfl
    have := kraftSum_nonneg ls
    rw [pow_zero] at room
    linarith
  obtain ⟨k, rfl⟩ := Nat.exists_eq_succ_of_ne_zero hn
  refine ⟨by omega, ?_⟩
  rw [kraftSum_cons, Nat.succ_sub_one]
  rw [Nat.succ_eq_add_one, pow_succ] at room
  linarith

/-! ## The step of Huffman's argument -/

/-- Splitting the two least weights out of their sum costs one more bit for each of them. -/
theorem CostsAtLeast.split {a b c : Nat} {ws : List Nat} (h : CostsAtLeast ((a + b) :: ws) c) (hab : a ≤ b)
    (hb : ∀ w ∈ ws, b ≤ w) : CostsAtLeast (a :: b :: ws) (c + (a + b)) := by
  intro ps hps hk
  obtain ⟨ps', hp, hmap⟩ := Machine.perm_map_lift hps ps rfl
  match ps', hmap with
  | (a, l) :: (b, k) :: rest, hmap =>
    simp only [List.map_cons, List.cons.injEq] at hmap
    obtain ⟨rfl, rfl, rfl⟩ := hmap
    obtain ⟨m, n, qs, hfst, hsnd, hnm, hmax, hcost⟩ :=
      exists_two_longest_first l k rest hab hb
    have hkraft : kraftSum (m :: n :: qs.map Prod.snd) ≤ 1 := by
      rwa [kraftSum_perm (hsnd.trans (hp.map Prod.snd))]
    obtain ⟨hn, hmerged⟩ := kraftSum_merge hnm hmax hkraft
    have hc := h ((a + b, n - 1) :: qs) (by rw [List.map_cons, hfst]) hmerged
    have hlong : a * n ≤ a * m := Nat.mul_le_mul_left a hnm
    have hmul : (a + b) * (n - 1) + (a + b) = a * n + b * n := by
      rw [← Nat.mul_succ, Nat.succ_eq_add_one, Nat.sub_add_cancel hn, Nat.add_mul]
    rw [← cost_perm hp]
    simp only [cost_cons] at hc hcost ⊢
    omega

/-! ## Prefix-free codes meet Kraft's inequality -/

/-- Words of which none begins another, and none is empty, can be told apart in any concatenation. -/
theorem uniquelyDecodable_of_prefixFree {S : Set (List Bool)} (hnil : [] ∉ S)
    (hpre : ∀ u ∈ S, ∀ v ∈ S, u <+: v → u = v) : InformationTheory.UniquelyDecodable S := by
  intro L₁
  induction L₁ with
  | nil =>
    intro L₂ _ h₂ e
    cases L₂ with
    | nil => rfl
    | cons v L₂ =>
      have hv : v = [] := (List.append_eq_nil_iff.mp e.symm).1
      exact absurd (hv ▸ h₂ v List.mem_cons_self) hnil
  | cons u L₁ ih =>
    intro L₂ h₁ h₂ e
    have hu := h₁ u List.mem_cons_self
    cases L₂ with
    | nil => exact absurd ((List.append_eq_nil_iff.mp e).1 ▸ hu) hnil
    | cons v L₂ =>
      have hv := h₂ v List.mem_cons_self
      rw [List.flatten_cons, List.flatten_cons] at e
      have huv : u = v := by
        rcases List.prefix_or_prefix_of_prefix ⟨_, rfl⟩ ⟨_, e.symm⟩ with h | h
        · exact hpre u hu v hv h
        · exact (hpre v hv u hu h).symm
      subst huv
      rw [ih L₂ (fun w hw => h₁ w (List.mem_cons_of_mem _ hw)) (fun w hw => h₂ w (List.mem_cons_of_mem _ hw))
        (List.append_cancel_left e)]

/-- Kraft's inequality for a list of codes of which none begins another. -/
theorem kraftSum_le_one {cs : List (List Bool)} (hnd : cs.Nodup) (hpre : ∀ u ∈ cs, ∀ v ∈ cs, u <+: v → u = v) :
    kraftSum (cs.map List.length) ≤ 1 := by
  by_cases hnil : [] ∈ cs
  · have hall : ∀ v ∈ cs, v = [] := fun v hv => (hpre [] hnil v hv List.nil_prefix).symm
    rw [List.eq_replicate_of_mem hall] at hnd ⊢
    have hlen : cs.length ≤ 1 := List.nodup_replicate.mp hnd
    simpa [kraftSum] using hlen
  · have h := InformationTheory.kraft_mcmillan_inequality (S := cs.toFinset)
      (uniquelyDecodable_of_prefixFree (by simpa using hnil) (by simpa using hpre))
    rw [Fintype.card_bool, List.sum_toFinset _ hnd] at h
    simpa [kraftSum, Function.comp_def] using h

end Sys2Proof.CodeLengths

/-!
# What a merge does (R156)
-/

namespace Sys2Proof.Machine

/-- The state in which a merge leaves the heap `h`, with `a` and `b` joined under a new node, before `TC` (R156). -/
def State.joined (s : State) (a b : NodeIdx) (h : List NodeIdx) : State :=
  (({ s with heap := h } : State).alloc (Node.mkInternal (s.weight a + s.weight b) a b)).pushHeap s.nextIdx

/-- A merge completes exactly when there are two entries to pop and an arena entry to allocate. -/
theorem merge_eq_next_iff {s t : State} : s.merge = .next t ↔ ∃ a b h1 h2, heapPop s.key s.heap = some (a, h1) ∧
    heapPop s.key h1 = some (b, h2) ∧ s.ncount < nodeCap ∧ t = (s.joined a b h2).finishTree := by
  unfold State.merge
  constructor
  · intro h
    split at h
    · cases h
    · next a h1 e1 =>
      split at h
      · cases h
      · next b h2 e2 =>
        split at h
        · cases h
        · next hn => exact ⟨a, b, h1, h2, e1, e2, by omega, (Host.Outcome.next.inj h).symm⟩
  · rintro ⟨a, b, h1, h2, e1, e2, hn, rfl⟩
    simp only [e1, e2, if_neg (show ¬ nodeCap ≤ s.ncount by omega)]
    rfl

theorem finishTree_key (s : State) : s.finishTree.key = s.key := by
  obtain ⟨-, hnodes, hdraws⟩ := finishTree_keep s
  funext i
  simp only [State.key, State.weight, State.node, hnodes, hdraws]

/-- Allocation keeps the weight of a live entry. -/
theorem key_alloc_live {s : State} (n : Node) {i : NodeIdx} (hi : i.toNat < s.ncount) : (s.alloc n).key i = s.key i := by
  have h : (s.alloc n).nodes[i.toNat]? = some (s.node i) := by
    rw [State.alloc_nodes, List.getElem?_append_left hi, State.getElem?_of_live hi]
  simp only [State.key, State.weight, State.node_of_getElem? h]

/-- The new entry has its own weight. -/
theorem key_alloc_nextIdx {s : State} (n : Node) (h : s.ncount < 512) : (s.alloc n).key s.nextIdx = n.w.toNat := by
  have hn : (s.alloc n).nodes[s.nextIdx.toNat]? = some n := by
    rw [State.nextIdx_toNat h, State.alloc_nodes, State.ncount, List.getElem?_concat_length]
  simp only [State.key, State.weight, State.node_of_getElem? hn]

theorem joined_heap_perm (s : State) (a b : NodeIdx) (h : List NodeIdx) : (s.joined a b h).heap.Perm (s.nextIdx :: h) :=
  heapPush_perm h s.nextIdx

theorem joined_key_live {s : State} (a b : NodeIdx) (h : List NodeIdx) {i : NodeIdx} (hi : i.toNat < s.ncount) :
    (s.joined a b h).key i = s.key i :=
  key_alloc_live (s := { s with heap := h }) _ hi

theorem joined_key_nextIdx {s : State} (a b : NodeIdx) (h : List NodeIdx) (hn : s.ncount < nodeCap) :
    (s.joined a b h).key s.nextIdx = (s.weight a + s.weight b).toNat :=
  key_alloc_nextIdx (s := { s with heap := h }) _ (Nat.lt_succ_of_lt hn)

/-- A merge joins the two lightest entries `a` and `b` under one new node, of their exact joint weight (R154, R156). -/
theorem Inv.merge_joins {s t : State} (h : Inv s) (ht : s.merge = .next t) : ∃ a b rest w, s.heap.Perm (a :: b :: rest) ∧
    s.key a ≤ s.key b ∧ (∀ m ∈ rest, s.key b ≤ s.key m) ∧ w.toNat = s.key a + s.key b ∧
    t.nodes = s.nodes ++ [Node.mkInternal w a b] ∧
    (t.heap.map t.key).Perm ((s.key a + s.key b) :: rest.map s.key) := by
  obtain ⟨a, b, h1, rest, e1, e2, hn, rfl⟩ := merge_eq_next_iff.mp ht
  obtain ⟨-, p1, l1⟩ := heapPop_spec e1
  obtain ⟨-, p2, l2⟩ := heapPop_spec e2
  have hb : BuilderPhase s := h.builder (h.idle_of_hsize (by unfold State.hsize; omega))
  have hperm : s.heap.Perm (a :: b :: rest) := p1.symm.trans (p2.symm.cons a)
  obtain ⟨o1, mina⟩ := heapPop_ordered hb.ordered e1
  obtain ⟨-, minb⟩ := heapPop_ordered o1 e2
  have hlive : ∀ m ∈ rest, m.toNat < s.ncount := fun m hm => hb.heap_live m (hperm.mem_iff.mpr (by simp [hm]))
  have hsum : (s.weight a + s.weight b).toNat = s.key a + s.key b := by
    have htotal := hb.total
    rw [(hperm.map s.key).sum_eq, List.map_cons, List.map_cons, List.sum_cons, List.sum_cons] at htotal
    exact BitVec.toNat_add_of_lt (show s.key a + s.key b < 2 ^ 64 by omega)
  refine ⟨a, b, rest, s.weight a + s.weight b, hperm, mina b (hperm.mem_iff.mpr (by simp)),
    fun m hm => minb m (p2.mem_iff.mp (by simp [hm])), hsum, (finishTree_keep _).2.1, ?_⟩
  rw [finishTree_key, (finishTree_keep _).1]
  refine ((joined_heap_perm s a b rest).map _).trans (.of_eq ?_)
  rw [List.map_cons, joined_key_nextIdx a b rest hn, hsum]
  exact congrArg _ (List.map_congr_left fun m hm => joined_key_live a b rest (hlive m hm))

/-!
# The tree builder reads neither the packer nor `ERROP`

From any state `TREE_BUILD` does what it does with the packer empty and `ERROP` at 0, where the invariant holds after it.
-/

/-- The state with an empty packer and `ERROP` at 0. -/
def State.scrubbed (s : State) : State := { s with pacc := 0, paccn := 0, errop := 0 }

theorem finishTree_scrubbed (s : State) : s.scrubbed.finishTree = s.finishTree.scrubbed := by
  by_cases h : s.hsize = 1
  · obtain ⟨r, hr⟩ := List.length_eq_one_iff.mp h
    rw [finishTree_one hr, finishTree_one (s := s.scrubbed) hr]
    rfl
  · rw [finishTree_spec s h, finishTree_spec s.scrubbed h]

theorem seed_scrubbed (s : State) : s.scrubbed.seed = s.seed.scrubbed := by
  have fold : ∀ (l : List Byte) (u : State), l.foldl State.seedLeaf u.scrubbed = (l.foldl State.seedLeaf u).scrubbed := by
    intro l
    induction l with
    | nil => exact fun _ => rfl
    | cons a l ih => exact fun u => ih (u.seedLeaf a)
  rw [State.seed, State.seed, ← finishTree_scrubbed, ← fold]
  rfl

theorem merge_scrubbed {s t : State} (h : s.merge = .next t) : s.scrubbed.merge = .next t.scrubbed := by
  obtain ⟨a, b, h1, h2, e1, e2, hn, rfl⟩ := merge_eq_next_iff.mp h
  exact merge_eq_next_iff.mpr ⟨a, b, h1, h2, e1, e2, hn, (finishTree_scrubbed _).symm⟩

theorem mergeAll_scrubbed {fuel : Nat} {s t : State} (h : mergeAll fuel s = .next t) :
    mergeAll fuel s.scrubbed = .next t.scrubbed := by
  induction fuel generalizing s with
  | zero => cases h; rfl
  | succ fuel ih =>
    rw [mergeAll] at h ⊢
    rw [show s.scrubbed.hsize = s.hsize from rfl]
    split at h
    · next h2 =>
      obtain ⟨u, hu, ht⟩ := andThen_eq_next h
      rw [if_pos h2, merge_scrubbed hu, andThen_next, ih ht]
    · next h2 =>
      rw [if_neg h2]
      cases h
      rfl

end Sys2Proof.Machine

/-!
# What the builder's tree costs

The code bits of a tree, each leaf counted by its weight, are the total weight of its internal nodes.
-/

namespace Sys2Proof.Machine

/-- The leaf entries of an arena. -/
def leafNodes (nodes : List Node) : List Node := nodes.filter fun n => n.kind = .leaf

/-- The total weight of the internal entries of an arena. -/
def internalWeight (nodes : List Node) : Nat := ((nodes.filter fun n => n.kind ≠ .leaf).map fun n => n.w.toNat).sum

/-- The weights of a list of entries. -/
def weights (nodes : List Node) : List Nat := nodes.map fun n => n.w.toNat

/-- The entries that a covering list of indices names are those of the arena. -/
theorem CoversArena.map_node {s : State} {is : List NodeIdx} (h : CoversArena s is) : (is.map s.node).Perm s.nodes := by
  have entry : ∀ i ∈ is, s.node i = s.nodes.getD i.toNat default := fun i hi => by
    have hlive : i.toNat < s.nodes.length := (h.mem_iff i).mp hi
    rw [State.node, List.getD_eq_getElem?_getD, List.getElem?_eq_getElem hlive]
    rfl
  have hall : (List.range s.ncount).map (fun i => s.nodes.getD i default) = s.nodes := by
    refine List.ext_getElem (by simp [State.ncount]) fun i h1 h2 => ?_
    simp [h2]
  calc (is.map s.node) = (is.map BitVec.toNat).map fun i => s.nodes.getD i default := by
        rw [List.map_map]; exact List.map_congr_left entry
    _ |>.Perm ((List.range s.ncount).map fun i => s.nodes.getD i default) := h.map _
    _ = s.nodes := hall

/-- The leaves of a full tree are its indices that name leaf entries, in the same order. -/
theorem Shape.leaves_eq_filter {s : State} {t : Shape} (hc : t.complete = true) (ha : t.InArena s.nodes) :
    t.leaves = t.indices.filter fun i => (s.node i).kind = .leaf := by
  induction t with
  | hole => exact nomatch hc
  | leaf i =>
    obtain ⟨n, hn, hk⟩ := ha
    simp [Shape.leaves, Shape.indices, State.node_of_getElem? hn, hk]
  | node i l r ihl ihr =>
    simp only [Shape.complete, Bool.and_eq_true] at hc
    obtain ⟨⟨n, hn, hk, -⟩, hal, har⟩ := ha
    simp [Shape.leaves, Shape.indices, State.node_of_getElem? hn, hk, ihl hc.1 hal, ihr hc.2 har]

/-- The weight of an internal node is that of its two children, where weights are sums (R51 (b)). -/
theorem Shape.Summed.key_node {s : State} {i : NodeIdx} {l r : Shape} (hs : (Shape.node i l r).Summed s.nodes)
    (ha : (Shape.node i l r).InArena s.nodes) (hc : (Shape.node i l r).complete = true) :
    s.key i = s.key l.top + s.key r.top := by
  simp only [Shape.complete, Bool.and_eq_true] at hc
  obtain ⟨⟨n, hn, -⟩, hal, har⟩ := ha
  have hl := State.getElem?_of_live (hal.live _ (Shape.top_mem hc.1))
  have hr := State.getElem?_of_live (har.live _ (Shape.top_mem hc.2))
  have hsum := hs.1 n _ _ hn hl hr
  rwa [← State.node_of_getElem? hn] at hsum

/-- The total weight of a full tree's leaves is its root's. -/
theorem Shape.sum_leaves {s : State} {t : Shape} (hc : t.complete = true) (ha : t.InArena s.nodes)
    (hs : t.Summed s.nodes) : (t.leaves.map s.key).sum = s.key t.top := by
  induction t with
  | hole => exact nomatch hc
  | leaf i => simp [Shape.leaves]
  | node i l r ihl ihr =>
    have hkey := hs.key_node ha hc
    simp only [Shape.complete, Bool.and_eq_true] at hc
    rw [Shape.leaves, List.map_append, List.sum_append, ihl hc.1 ha.2.1 hs.2.1, ihr hc.2 ha.2.2 hs.2.2, Shape.top_node,
      hkey]

/-- The code bits of a shape's leaves, each counted by its weight. -/
def Shape.codeBits (s : State) (t : Shape) : Nat := ((t.paths []).map fun e => s.key e.1 * e.2.length).sum

/-- One more edge above a shape is one more bit for each leaf. -/
theorem Shape.codeBits_below (s : State) (t : Shape) (c : Bool) :
    (((t.paths []).map fun e => (e.1, c :: e.2)).map fun e => s.key e.1 * e.2.length).sum =
      t.codeBits s + (t.leaves.map s.key).sum := by
  rw [Shape.codeBits, ← Shape.paths_fst t [], List.map_map, List.map_map, ← List.sum_map_add]
  rfl

/-- The code bits of a full tree are the total weight of its internal nodes. -/
theorem Shape.codeBits_eq {s : State} {t : Shape} (hc : t.complete = true) (ha : t.InArena s.nodes)
    (hs : t.Summed s.nodes) :
    t.codeBits s = ((t.indices.filter fun i => (s.node i).kind ≠ .leaf).map s.key).sum := by
  induction t with
  | hole => exact nomatch hc
  | leaf i =>
    obtain ⟨n, hn, hk⟩ := ha
    simp [Shape.codeBits, Shape.paths, Shape.indices, State.node_of_getElem? hn, hk]
  | node i l r ihl ihr =>
    have hkey := hs.key_node ha hc
    simp only [Shape.complete, Bool.and_eq_true] at hc
    obtain ⟨⟨n, hn, hk, -⟩, hal, har⟩ := ha
    obtain ⟨-, hsl, hsr⟩ := hs
    have hbits : (Shape.node i l r).codeBits s =
        (l.codeBits s + (l.leaves.map s.key).sum) + (r.codeBits s + (r.leaves.map s.key).sum) := by
      rw [Shape.codeBits, Shape.paths_node, List.map_append, List.sum_append, Shape.codeBits_below,
        Shape.codeBits_below]
    have hinner : (Shape.node i l r).indices.filter (fun i => (s.node i).kind ≠ .leaf) =
        i :: (l.indices.filter (fun i => (s.node i).kind ≠ .leaf) ++
          r.indices.filter (fun i => (s.node i).kind ≠ .leaf)) := by
      simp [Shape.indices, State.node_of_getElem? hn, hk]
    rw [hbits, hinner, ihl hc.1 hal hsl, ihr hc.2 har hsr, Shape.sum_leaves hc.1 hal hsl, Shape.sum_leaves hc.2 har hsr,
      List.map_cons, List.sum_cons, List.map_append, List.sum_append, hkey]
    omega

/-- The code bits of the present tree are the total weight of the arena's internal entries. -/
theorem TreeIs.codeBits {s : State} {t : Shape} (h : TreeIs s t) (hs : t.Summed s.nodes) :
    t.codeBits s = internalWeight s.nodes := by
  obtain ⟨hc, ha, -, hcov⟩ := h
  have hperm := (hcov.map_node.filter fun n => n.kind ≠ .leaf).map fun n => n.w.toNat
  rw [Shape.codeBits_eq hc ha hs, internalWeight, ← hperm.sum_eq, List.filter_map, List.map_map]
  rfl

/-- The leaves of the present tree are the arena's leaf entries. -/
theorem TreeIs.leaves_perm {s : State} {t : Shape} (h : TreeIs s t) : (t.leaves.map s.node).Perm (leafNodes s.nodes) := by
  obtain ⟨hc, ha, -, hcov⟩ := h
  have hperm := hcov.map_node.filter fun n => n.kind = .leaf
  rwa [List.filter_map, Function.comp_def, ← Shape.leaves_eq_filter hc ha] at hperm

/-!
# Huffman's argument along the merge loop (R155 to R157)
-/

open CodeLengths

/-- What the builder has shown at a point of its loop: with `leaves` at the bottom of its forest, whatever the weights now
in the heap cost at least, the leaves cost at least that and the weights of the nodes already joined. -/
structure OptimalSoFar (leaves : List Node) (s : State) : Prop where
  leafNodes_eq : leafNodes s.nodes = leaves
  bound : ∀ c, CostsAtLeast (s.heap.map s.key) c → CostsAtLeast (weights leaves) (c + internalWeight s.nodes)

theorem leafNodes_append_internal (nodes : List Node) (w : Word) (a b : NodeIdx) :
    leafNodes (nodes ++ [Node.mkInternal w a b]) = leafNodes nodes := by
  simp [leafNodes, Node.mkInternal]

theorem internalWeight_append_internal (nodes : List Node) (w : Word) (a b : NodeIdx) :
    internalWeight (nodes ++ [Node.mkInternal w a b]) = internalWeight nodes + w.toNat := by
  simp [internalWeight, Node.mkInternal]

/-- A merge keeps it. -/
theorem OptimalSoFar.merge {leaves : List Node} {s t : State} (ho : OptimalSoFar leaves s) (h : Inv s)
    (ht : s.merge = .next t) : OptimalSoFar leaves t := by
  obtain ⟨a, b, rest, w, hperm, hab, hb, hw, hnodes, hheap⟩ := h.merge_joins ht
  refine ⟨by rw [hnodes, leafNodes_append_internal, ho.leafNodes_eq], fun c hc => ?_⟩
  have hsplit : CostsAtLeast (s.heap.map s.key) (c + (s.key a + s.key b)) :=
    ((hc.perm hheap).split hab (by simpa using hb)).perm (hperm.map s.key).symm
  rw [hnodes, internalWeight_append_internal, hw, Nat.add_comm (internalWeight _), ← Nat.add_assoc]
  exact ho.bound _ hsplit

/-- So does the loop. -/
theorem OptimalSoFar.mergeAll {leaves : List Node} {fuel : Nat} {s t : State} (ho : OptimalSoFar leaves s) (h : Inv s)
    (ht : mergeAll fuel s = .next t) : OptimalSoFar leaves t := by
  induction fuel generalizing s with
  | zero => cases ht; exact ho
  | succ fuel ih =>
    rw [Machine.mergeAll] at ht
    split at ht
    · next h2 =>
      obtain ⟨u, hu, hut⟩ := andThen_eq_next ht
      obtain ⟨u', hu', hinv, -⟩ := h.merge h2
      rw [hu] at hu'
      cases hu'
      exact ih (ho.merge h hu) hinv hut
    · cases ht
      exact ho

/-- The leaf entries that a seed makes (R153, R155). -/
def State.seedLeaves (s : State) : List Node := s.presentSymbols.map fun a => Node.mkLeaf a (s.freqOf a)

theorem leafNodes_seedLeaves (s : State) : leafNodes s.seedLeaves = s.seedLeaves := by
  simp [leafNodes, State.seedLeaves, Node.mkLeaf]

theorem internalWeight_seedLeaves (s : State) : internalWeight s.seedLeaves = 0 := by
  simp [internalWeight, State.seedLeaves, Node.mkLeaf, List.filter_map, Function.comp_def]

/-- The heap holds the leaves seeded so far, each once. -/
theorem Seeded.weights_perm {s0 s : State} {pre : List Byte} (h : Seeded s0 pre s) :
    (s.heap.map s.key).Perm (weights s.nodes) := by
  have hcov : CoversArena s s.heap := by
    rw [CoversArena, State.ncount, h.nodes, List.length_map]
    exact h.heap
  have hperm := hcov.map_node.map fun n => n.w.toNat
  rwa [List.map_map] at hperm

/-- A seed begins with the leaves alone. -/
theorem optimalSoFar_seed (s : State) : OptimalSoFar s.seedLeaves s.seed := by
  have hS := seeded_seed s
  have hnodes : s.seed.nodes = s.seedLeaves := (finishTree_keep _).2.1.trans hS.nodes
  have hheap : (s.seed.heap.map s.seed.key).Perm (weights s.seedLeaves) := by
    rw [State.seed, finishTree_key, (finishTree_keep _).1, State.seedLeaves, ← hS.nodes]
    exact hS.weights_perm
  refine ⟨by rw [hnodes, leafNodes_seedLeaves], fun c hc => ?_⟩
  rw [hnodes, internalWeight_seedLeaves]
  exact hc.perm hheap

/-- The builder's phase with a tree present: one full tree, whose weights are sums. -/
theorem BuilderPhase.exists_tree {s : State} (h : BuilderPhase s) (hv : s.tvalid = true) :
    ∃ t, TreeIs s t ∧ t.Summed s.nodes := by
  obtain ⟨ts, hts, htop, hcov, -⟩ := h.forest
  rw [(h.present hv).1, List.map_eq_singleton_iff] at htop
  obtain ⟨t, rfl, htop⟩ := htop
  obtain ⟨hc, ha, hs⟩ := hts t List.mem_cons_self
  exact ⟨t, ⟨hc, ha, htop, by simpa using hcov⟩, hs⟩

/-- What `TREE_BUILD` leaves behind, from any state (R157): one full tree, whose weights are sums, of which Huffman's argument
holds. -/
theorem treeBuild_optimal {s t : State} (hs : s.err = .noError) (h : exec .treeBuild s = .next t) (ht : t.err = .noError) :
    t.ncount ≤ nodeCap ∧ OptimalSoFar s.seedLeaves t ∧ ∃ sh, TreeIs t sh ∧ sh.Summed t.nodes := by
  rw [exec, execTreeBuild, unlessSticky_clear hs] at h
  split at h
  · next c hc =>
    cases h
    exact absurd ht (seedError_ne hc)
  · next hseed =>
    have hrun := mergeAll_scrubbed h
    rw [← seed_scrubbed] at hrun
    obtain ⟨hinv, hsize, -⟩ := seed_spec (s := s.scrubbed) (Nat.zero_lt_one) (fun _ => rfl) hseed
    have hpos : 1 ≤ s.scrubbed.seed.hsize := hsize ▸ Nat.pos_of_ne_zero (seedError_none hseed).1
    obtain ⟨t', e, hinv', hone, -⟩ := hinv.mergeAll (fuel := s.seed.hsize) (by rw [seed_scrubbed]; exact Nat.le_succ _)
    rw [hrun] at e
    cases e
    have hbuilder := hinv'.builder (hinv'.idle_of_hsize (by have := (hone hpos).1; omega))
    have hopt := (optimalSoFar_seed s.scrubbed).mergeAll hinv hrun
    exact ⟨hinv'.arena, ⟨hopt.leafNodes_eq, hopt.bound⟩,
      hbuilder.exists_tree (hbuilder.oneRoot.mpr (hone hpos).1)⟩

/-!
# The codes of a built tree are optimal (R2, R159)
-/

/-- What `CODE_BUILD` without an error does (R170). -/
theorem codeBuild_fillCodes {s t : State} (hs : s.err = .noError) (h : exec .codeBuild s = .next t) (ht : t.err = .noError) :
    ∃ c, s.codes = some c ∧ (c.map Prod.fst).Nodup ∧ t = s.fillCodes c := by
  rw [exec, execCodeBuild, unlessSticky_clear hs] at h
  split at h
  · cases h
    exact nomatch ht
  · split at h
    · cases h
    · next c hc =>
      split at h
      · cases h
        exact nomatch ht
      · next hd => exact ⟨c, hc, by simpa [hasDuplicate] using hd, (Host.Outcome.next.inj h).symm⟩

/-- After `CODE_BUILD` the code of a leaf's symbol is as long as the leaf's path (R170, R172). -/
theorem codeBuild_clen {s t : State} {sh : Shape} (hs : s.err = .noError) (h : exec .codeBuild s = .next t)
    (ht : t.err = .noError) (hsh : TreeIs s sh) (hn : s.ncount ≤ nodeCap) :
    ∀ e ∈ sh.paths [], (t.codeOf (s.node e.1).sym).clen.toNat = e.2.length := by
  intro e he
  obtain ⟨c, hc, hnd, rfl⟩ := codeBuild_fillCodes hs h ht
  rw [hsh.codes hn] at hc
  cases hc
  have hrec := foldl_record_mem _ s.clearCodes hnd (List.mem_map_of_mem (f := fun e => ((s.node e.1).sym, e.2)) he)
  have hlen : e.2.length < 2 ^ 8 := by
    have hpath := Shape.paths_length sh [] e he
    have hheight := hsh.height_le hn
    simp only [List.length_nil, maxLen] at hpath hheight
    omega
  have hcode : (s.fillCodes ((sh.paths []).map fun e => ((s.node e.1).sym, e.2))).codeOf (s.node e.1).sym =
      CodeEntry.ofPath e.2 := hrec
  rw [hcode, CodeEntry.ofPath, BitVec.toNat_ofNat, Nat.mod_eq_of_lt hlen]

/-- Symbols without an occurrence add nothing to a sum weighted by the counts. -/
theorem sum_allSymbols_eq_present (s : State) (f : Byte → Nat) :
    (allSymbols.map fun a => (s.freqOf a).toNat * f a).sum = (s.presentSymbols.map fun a => (s.freqOf a).toNat * f a).sum := by
  rw [State.presentSymbols]
  induction allSymbols with
  | nil => rfl
  | cons a l ih =>
    by_cases ha : s.freqOf a = 0
    · rw [List.filter_cons_of_neg (by simpa using ha), List.map_cons, List.sum_cons, ih, ha]
      simp
    · rw [List.filter_cons_of_pos (by simpa using ha), List.map_cons, List.sum_cons, ih, List.map_cons, List.sum_cons]

/-- The bits of the input under the table of a built tree are the total weight of the arena's internal entries. -/
theorem blockBits_eq {s u t : State} {sh : Shape} (hleaves : leafNodes u.nodes = s.seedLeaves) (hsh : TreeIs u sh)
    (hsum : sh.Summed u.nodes) (hcode : ∀ e ∈ sh.paths [], (t.codeOf (u.node e.1).sym).clen.toNat = e.2.length) :
    (allSymbols.map fun a => (s.freqOf a).toNat * (t.codeOf a).clen.toNat).sum = internalWeight u.nodes := by
  have hperm := (hsh.leaves_perm.map fun n => n.w.toNat * (t.codeOf n.sym).clen.toNat).sum_eq
  rw [hleaves, State.seedLeaves, List.map_map, List.map_map] at hperm
  rw [sum_allSymbols_eq_present s fun a => (t.codeOf a).clen.toNat, ← hsh.codeBits hsum, Shape.codeBits]
  refine hperm.symm.trans ?_
  rw [← Shape.paths_fst sh [], List.map_map]
  refine congrArg List.sum (List.map_congr_left fun e he => ?_)
  exact congrArg (u.key e.1 * ·) (hcode e he)

/-- The code lengths of an assignment in which no symbol's code begins another's meet Kraft's inequality. -/
theorem kraftSum_prefixFree {s : State} {c : Byte → Bits}
    (hc : ∀ a b, s.freqOf a ≠ 0 → s.freqOf b ≠ 0 → a ≠ b → ¬ c a <+: c b) :
    kraftSum (s.presentSymbols.map fun a => (c a).length) ≤ 1 := by
  have hpresent : ∀ a ∈ s.presentSymbols, s.freqOf a ≠ 0 := fun a ha => by
    simpa using (List.mem_filter.mp ha).2
  have hinj : ∀ a ∈ s.presentSymbols, ∀ b ∈ s.presentSymbols, c a <+: c b → a = b := fun a ha b hb h =>
    by_contra fun hab => hc a b (hpresent a ha) (hpresent b hb) hab h
  have hnd : (s.presentSymbols.map c).Nodup :=
    (presentSymbols_nodup s).map_on fun a ha b hb e => hinj a ha b hb (e ▸ List.prefix_rfl)
  have hpre : ∀ u ∈ s.presentSymbols.map c, ∀ v ∈ s.presentSymbols.map c, u <+: v → u = v := by
    simp only [List.mem_map]
    rintro _ ⟨a, ha, rfl⟩ _ ⟨b, hb, rfl⟩ h
    rw [hinj a ha b hb h]
  simpa [Function.comp_def] using kraftSum_le_one hnd hpre

/-- Settles O28, by Huffman's argument: the code bits of the built tree are the weights of its internal nodes, and each merge
adds one of these to what every assignment of code lengths must cost. -/
theorem builtCodesAreOptimal : Obligations.BuiltCodesAreOptimal := by
  intro s t hs hrun ht c hc
  obtain ⟨u, hbuild, hrest⟩ := andThen_eq_next hrun
  obtain ⟨t', hcodes, hlast⟩ := andThen_eq_next hrest
  cases hlast
  have hu : u.err = .noError := by
    rcases unlessSticky_eq_next hcodes with ⟨-, rfl⟩ | ⟨hu, -⟩
    · exact ht
    · exact hu
  obtain ⟨hcap, hopt, sh, hsh, hsum⟩ := treeBuild_optimal hs hbuild hu
  rw [blockBits_eq hopt.leafNodes_eq hsh hsum (codeBuild_clen hu hcodes ht hsh hcap)]
  have hbound := hopt.bound 0 (costsAtLeast_zero _) (s.presentSymbols.map fun a => ((s.freqOf a).toNat, (c a).length))
  rw [Nat.zero_add, List.map_map, List.map_map, cost, List.map_map] at hbound
  rw [sum_allSymbols_eq_present s fun a => (c a).length]
  refine hbound (.of_eq ?_) (kraftSum_prefixFree hc)
  rw [weights, State.seedLeaves, List.map_map]
  rfl

end Sys2Proof.Machine

/-!
# Every step keeps the invariant (O52, O53)
-/

namespace Sys2Proof.Machine

theorem Inv.treeSeed {s t : State} (h : Inv s) (ht : execTreeSeed s = .next t) : Inv t := by
  rcases unlessSticky_eq_next ht with ⟨-, rfl⟩ | ⟨-, ht⟩
  · exact h
  · split at ht
    · next c hc => cases ht; exact h.raise (seedError_ne hc) _
    · next hc => cases ht; exact (seed_spec h.packer h.noError hc).1

theorem Inv.treeMerge {s t : State} (h : Inv s) (ht : execTreeMerge s = .next t) : Inv t := by
  rcases unlessSticky_eq_next ht with ⟨-, rfl⟩ | ⟨-, ht⟩
  · exact h
  · split at ht
    · cases ht; exact h.raise (by decide) _
    · next h2 =>
      obtain ⟨u, hu, hinv, -⟩ := h.merge (by omega)
      cases hu.symm.trans ht
      exact hinv

theorem Inv.treeBuild {s t : State} (h : Inv s) (ht : execTreeBuild s = .next t) : Inv t := by
  rcases unlessSticky_eq_next ht with ⟨-, rfl⟩ | ⟨-, ht⟩
  · exact h
  · split at ht
    · next c hc => cases ht; exact h.raise (seedError_ne hc) _
    · next hc =>
      obtain ⟨u, hu, hinv, -⟩ := (seed_spec h.packer h.noError hc).1.mergeAll (Nat.le_succ _)
      cases hu.symm.trans ht
      exact hinv

theorem Inv.deserByte {s t : State} (h : Inv s) (b : Byte) (ht : execDeserByte b s = .next t) : Inv t := by
  obtain ⟨u, hu, hinv⟩ := h.deserByte_total b
  cases hu.symm.trans ht
  exact hinv

/-- Every command keeps the invariant. -/
theorem Inv.of_exec {i : Instr} {s t : State} (h : Inv s) (ht : exec i s = .next t) : Inv t := by
  cases i with
  | nop => cases ht; exact h
  | reset => cases ht; exact .applyReset s
  | clrerr => exact h.clrerr ht
  | freqClear => exact h.freqClear ht
  | freqInc a => exact h.freqInc a ht
  | freqSetLo a v => exact h.freqSetLo a v ht
  | freqSetHi a v => exact h.freqSetHi a v ht
  | treeSeed => exact h.treeSeed ht
  | treeMerge => exact h.treeMerge ht
  | treeBuild => exact h.treeBuild ht
  | codeBuild => exact h.codeBuild ht
  | packSym a => exact h.packSym a ht
  | packFlush => exact h.packFlush ht
  | unpackInit => exact h.unpackInit ht
  | countShift b => exact h.countShift b ht
  | unpackByte b => exact h.unpackByte b ht
  | unpackSym => exact h.unpackSym ht
  | unpackEnd => exact h.unpackEnd ht
  | treeSer => exact h.treeSer ht
  | deserStart => exact h.deserStartE ht
  | deserByte b => exact h.deserByte b ht
  | deserEnd => exact h.deserEnd ht
  | emitByte b => exact h.emitByte b ht
  | countEmit => exact h.countEmit ht

theorem Inv.of_illegalWord {w : Word} {s t : State} (h : Inv s) (ht : illegalWord w s = .next t) : Inv t := by
  rcases unlessSticky_eq_next ht with ⟨-, rfl⟩ | ⟨-, ht⟩
  · exact h
  · cases ht; exact h.raise (by decide) _

/-- Every command word keeps the invariant, legal or not. -/
theorem Inv.of_runWord {w : Word} {s t : State} (h : Inv s) (ht : runWord w s = .next t) : Inv t := by
  cases hd : decode w with
  | command i => exact h.of_exec (runWord_of_command hd s ▸ ht)
  | illegal why => exact h.of_illegalWord (runWord_of_illegal hd s ▸ ht)

/-- The host's side of the ports is no part of the invariant. -/
theorem Inv.take {s : State} (h : Inv s) (rest : List HostAction) : Inv (s.take rest) := h.simple rfl

/-- Every host action keeps the invariant. -/
theorem Inv.of_perform {a : HostAction} {rest : List HostAction} {s t : State} (h : Inv s)
    (ht : perform a rest s = .next t) : Inv t := by
  cases a with
  | cmd w => exact (h.take rest).of_runWord ht
  | regRead idx => cases ht; exact h.simple rfl
  | hwReset => cases ht; exact .applyReset _

/-- Settles O53, by the host action that the step takes. -/
theorem everyStepKeepsTheInvariant : Obligations.EveryStepKeepsTheInvariant := by
  intro s t h ht
  cases hi : s.inbox with
  | nil =>
    cases (step_of_inbox_nil hi).symm.trans ht
    exact h
  | cons a rest => exact h.of_perform ((step_of_inbox_cons hi).symm.trans ht)

/-- Settles O52: the state after reset is what a reset of it leaves. -/
theorem resetMeetsTheInvariant : Obligations.ResetMeetsTheInvariant := Inv.applyReset State.reset

end Sys2Proof.Machine

/-!
# What a command writes (O57, O58)
-/

namespace Sys2Proof.Machine

theorem Emitted.of_eq {s t : State} (ho : t.out = s.out) (hc : t.outcnt = s.outcnt) : Emitted s t [] := by
  simp [Emitted, ho, hc]

/-- Of the commands that write without an error, all but `RESET` only append to `OUT`, and count what they append. -/
theorem Wrote.emitted {i : Instr} {s t : State} (hi : i ≠ .reset) (h : Wrote i s t) : ∃ bs, Emitted s t bs := by
  cases i with
  | reset => exact absurd rfl hi
  | packSym | packFlush | unpackByte | unpackSym | treeSer | emitByte | countEmit => exact h.1
  | nop | clrerr | freqClear | freqInc | freqSetLo | freqSetHi | treeSeed | treeMerge | treeBuild | codeBuild
  | unpackInit | countShift | unpackEnd | deserStart | deserByte | deserEnd =>
    exact ⟨[], by rw [h]; exact .of_eq rfl rfl⟩

/-- Settles O57, by the three things that a command can do. -/
theorem outputIsAppendOnly : Obligations.OutputIsAppendOnly := by
  intro i s t h
  by_cases hi : i = .reset
  · subst hi
    cases h
    exact ⟨[], by simp⟩
  · have hemit : ∃ bs, Emitted s t bs := by
      rcases exec_cases h with ⟨-, -, rfl⟩ | ⟨-, c, -, rfl⟩ | ⟨-, hw⟩
      · exact ⟨[], .nil _⟩
      · exact ⟨[], .of_eq rfl rfl⟩
      · exact hw.emitted hi
    obtain ⟨bs, hout, hcnt⟩ := hemit
    exact ⟨bs, hout, fun _ => hcnt, fun e => absurd e hi⟩

/-- Settles O58: a command that was ignored or raised an error wrote no component but the error registers, and one that ran
wrote those of its frame. -/
theorem componentsAreWrittenByTheirCommands : Obligations.ComponentsAreWrittenByTheirCommands := by
  intro i s t hi h
  rcases exec_cases h with ⟨-, -, rfl⟩ | ⟨he, c, -, rfl⟩ | ⟨-, hw⟩
  · simp
  · simp [he]
  · cases i with
    | reset => exact absurd rfl hi
    | packSym | packFlush | unpackByte | unpackSym | treeSer | emitByte | countEmit => rw [hw.2]; simp
    | nop | clrerr | freqClear | freqInc | freqSetLo | freqSetHi | treeSeed | treeMerge | treeBuild | codeBuild
    | unpackInit | countShift | unpackEnd | deserStart | deserByte | deserEnd => rw [hw]; simp

end Sys2Proof.Machine

/-!
# The invariants of R51 follow from the inductive one (O55)
-/

namespace Sys2Proof.Machine

/-! ## The heap and the stack, phase by phase -/

/-- The phase in which a heap entry, or a tree of the builder, is present. -/
theorem Inv.builder_or_noHeap {s : State} (h : Inv s) : BuilderPhase s ∨ s.heap = [] := by
  by_cases hz : s.hsize = 0
  · exact .inr (List.eq_nil_of_length_eq_zero hz)
  · exact .inl (h.builder (h.idle_of_hsize hz))

/-- There are no more heap entries than live nodes, nor more than symbols: each is the root of a full tree. -/
theorem BuilderPhase.hsize_le {s : State} (h : BuilderPhase s) : s.hsize ≤ s.ncount ∧ s.hsize ≤ 256 := by
  obtain ⟨ts, hts, htop, hcov, hnd⟩ := h.forest
  have hlen : ts.length ≤ (ts.flatMap Shape.indices).length := by
    rw [List.length_flatMap, ← List.length_map (f := List.length ∘ Shape.indices)]
    refine List.length_le_sum_of_one_le _ fun n hn => ?_
    obtain ⟨t, ht, rfl⟩ := List.mem_map.mp hn
    exact List.length_pos_of_mem (Shape.top_mem (hts t ht).1)
  have hcount := forest_count ts fun t ht => ⟨(hts t ht).1, (hts t ht).2.1⟩
  have hsymbols := nodup_bytes_length hnd
  have hroots : ts.length = s.hsize := by rw [State.hsize, ← htop, List.length_map]
  rw [← hcov.length]
  omega

theorem Inv.hsize_le {s : State} (h : Inv s) : s.hsize ≤ s.ncount ∧ s.hsize ≤ 256 := by
  rcases h.builder_or_noHeap with hb | hn
  · exact hb.hsize_le
  · simp [State.hsize, hn]

theorem Inv.heap_live {s : State} (h : Inv s) : ∀ n ∈ s.heap, n.toNat < s.ncount := by
  rcases h.builder_or_noHeap with hb | hn
  · exact hb.heap_live
  · simp [hn]

/-- A parse's frames are those of the shape under construction, so each names a live internal node (R51 (f)). -/
theorem ParsePhase.frames {s : State} (h : ParsePhase s) :
    s.dsDepth ≤ s.ncount ∧ ∀ f ∈ s.dsStk, ∃ n, s.nodes[f.node.toNat]? = some n ∧ n.kind = .internal := by
  obtain ⟨t, -, ha, hf, hi⟩ := h.parsed
  have hlen := t.frames_length
  rw [hf, ← List.length_map (f := BitVec.toNat), hi, List.length_range] at hlen
  exact ⟨hlen, fun f hm => (Shape.frames_mem ha f (hf ▸ hm)).2⟩

/-- There are no more frames than live nodes (R214). -/
theorem Inv.dsDepth_le {s : State} (h : Inv s) : s.dsDepth ≤ s.ncount := by
  have hp := h.phase
  unfold PhaseHolds at hp
  split at hp
  · simp [State.dsDepth, hp.noParse]
  · exact hp.frames.1
  · exact hp.frames.1
  · simp [State.dsDepth, hp.noFrames]

/-! ## The shape of the present tree -/

/-- The arena holds at most one full tree under a given root. -/
theorem Shape.eq_of_top_eq {nodes : List Node} {t u : Shape} (ht : t.complete = true) (hta : t.InArena nodes)
    (hu : u.complete = true) (hua : u.InArena nodes) (htop : t.top = u.top) : t = u := by
  induction t generalizing u with
  | hole => exact nomatch ht
  | leaf i =>
    obtain ⟨n, hn, hk⟩ := hta
    cases u with
    | hole => exact nomatch hu
    | leaf j => exact congrArg Shape.leaf htop
    | node j l r =>
      obtain ⟨⟨m, hm, hk', -⟩, -⟩ := hua
      cases (show i = j from htop)
      cases hn.symm.trans hm
      exact nomatch hk.symm.trans hk'
  | node i l r ihl ihr =>
    obtain ⟨⟨n, hn, hk, hl, hr⟩, hal, har⟩ := hta
    simp only [Shape.complete, Bool.and_eq_true] at ht
    cases u with
    | hole => exact nomatch hu
    | leaf j =>
      obtain ⟨m, hm, hk'⟩ := hua
      cases (show i = j from htop)
      cases hn.symm.trans hm
      exact nomatch hk.symm.trans hk'
    | node j l' r' =>
      obtain ⟨⟨m, hm, -, hl', hr'⟩, hal', har'⟩ := hua
      simp only [Shape.complete, Bool.and_eq_true] at hu
      cases (show i = j from htop)
      cases hn.symm.trans hm
      rw [ihl ht.1 hal hu.1 hal' ((hl (complete_ne_hole ht.1)).symm.trans (hl' (complete_ne_hole hu.1))),
        ihr ht.2 har hu.2 har' ((hr (complete_ne_hole ht.2)).symm.trans (hr' (complete_ne_hole hu.2)))]

theorem TreeIs.unique {s : State} {t u : Shape} (ht : TreeIs s t) (hu : TreeIs s u) : t = u := by
  obtain ⟨htc, hta, httop, -⟩ := ht
  obtain ⟨huc, hua, hutop, -⟩ := hu
  exact Shape.eq_of_top_eq htc hta huc hua (httop.trans hutop.symm)

/-- A tree of the builder is present in the builder's phase alone. -/
theorem Inv.builder_of_origin {s : State} (h : Inv s) (hv : s.tvalid = true) (ho : s.torigin = .builder) :
    BuilderPhase s := by
  have hp := h.phase
  unfold PhaseHolds at hp
  split at hp
  · exact hp
  · exact nomatch hp.noTree.symm.trans hv
  · exact nomatch hp.noTree.symm.trans hv
  · exact nomatch hp.present.2.1.symm.trans ho

/-- The builder's tree has weights that are sums and leaves of distinct symbols (R51 (b)). -/
theorem BuilderPhase.weights {s : State} (h : BuilderPhase s) (hv : s.tvalid = true) {t : Shape} (ht : TreeIs s t) :
    t.Summed s.nodes ∧ (t.symbols s.nodes).Nodup := by
  obtain ⟨ts, hts, htop, hcov, hnd⟩ := h.forest
  rw [(h.present hv).1, List.map_eq_singleton_iff] at htop
  obtain ⟨u, rfl, htop⟩ := htop
  obtain ⟨hc, ha, hs⟩ := hts u List.mem_cons_self
  cases ht.unique ⟨hc, ha, htop, by simpa using hcov⟩
  exact ⟨hs, by simpa using hnd⟩

/-- With a tree, the walk is at its root or at an internal node of it (R51 (c)). -/
theorem Inv.walk_mem {s : State} (h : Inv s) (hv : s.tvalid = true) :
    s.walk = s.root ∨ ∃ t, TreeIs s t ∧ s.walk ∈ t.indices ∧ s.isLeaf s.walk = false := by
  rcases h.walk hv with hw | ⟨n, hn, hk⟩
  · exact .inl hw
  · obtain ⟨t, ht⟩ := h.treeIs hv
    have hlive : s.walk.toNat < s.ncount := (List.getElem?_eq_some_iff.mp hn).1
    exact .inr ⟨t, ht, (ht.2.2.2.mem_iff _).mpr hlive, by simp [State.isLeaf, State.node_of_getElem? hn, hk]⟩

/-- Settles O55, clause by clause. -/
theorem invariantsOfTheState : Obligations.InvariantsOfTheState := fun _ h =>
  { tree := h.treeIs
    weights := fun hv ho _ ht => (h.builder_of_origin hv ho).weights hv ht
    walk := h.walk_mem
    packer := h.packer
    heap := ⟨h.hsize_le.1, h.heap_live⟩
    frames := fun hs => (h.parse hs).frames.2 }

end Sys2Proof.Machine

/-!
# The register map (O10, O11, O12)
-/

namespace Sys2Proof.Machine

/-! ## The fields of a register -/

theorem toNat_placed_zero {n : Nat} (v : BitVec n) (hn : n ≤ 64) : (placed v 0).toNat = v.toNat := by
  simp [placed, Nat.mod_eq_of_lt (lt_of_lt_of_le v.isLt (Nat.pow_le_pow_right (by decide) hn))]

/-- The word of a row whose bits are one number. -/
theorem toNat_placed_ofNat {w n : Nat} (hw : w ≤ 64) (h : n < 2 ^ w) : (placed (BitVec.ofNat w n) 0).toNat = n := by
  rw [toNat_placed_zero _ hw, BitVec.toNat_ofNat, Nat.mod_eq_of_lt h]

/-- A field joined to a word of value `m` below it adds its value at its place. -/
theorem toNat_or_placed {n m : Nat} {x : Word} (v : BitVec n) (lo : Nat) (hx : x.toNat = m)
    (h : m < 2 ^ lo ∧ lo + n ≤ 64) : (x ||| placed v lo).toNat = m + v.toNat * 2 ^ lo := by
  have hv : v.toNat * 2 ^ lo < 2 ^ 64 :=
    calc v.toNat * 2 ^ lo < 2 ^ n * 2 ^ lo := Nat.mul_lt_mul_of_pos_right v.isLt (Nat.two_pow_pos lo)
      _ = 2 ^ (lo + n) := by rw [← Nat.pow_add, Nat.add_comm]
      _ ≤ 2 ^ 64 := Nat.pow_le_pow_right (by decide) h.2
  have hp : (placed v lo).toNat = v.toNat * 2 ^ lo := by
    have hn : v.toNat < 2 ^ 64 := lt_of_le_of_lt (Nat.le_mul_of_pos_right _ (Nat.two_pow_pos lo)) hv
    rw [placed, BitVec.toNat_shiftLeft, BitVec.toNat_setWidth, Nat.mod_eq_of_lt hn, Nat.shiftLeft_eq, Nat.mod_eq_of_lt hv]
  rw [BitVec.toNat_or, hx, hp, Nat.or_comm, Nat.mul_comm, ← Nat.two_pow_add_eq_or_of_lt h.1, Nat.add_comm]

/-- `STATUS`, field by field (R53, R55). -/
theorem toNat_statusWord (s : State) : s.statusWord.toNat =
    s.err.code.toNat + s.errop.toNat * 2 ^ 8 + s.tvalid.toNat * 2 ^ 16 + s.torigin.bit.toNat * 2 ^ 17
      + s.ctvalid.toNat * 2 ^ 18 + s.degen.toNat * 2 ^ 19 + s.dsState.value.toNat * 2 ^ 20 + s.irq.toNat * 2 ^ 22 := by
  have h := toNat_placed_zero s.err.code (by decide)
  have h := toNat_or_placed s.errop 8 h (by omega)
  have h := toNat_or_placed (.ofBool s.tvalid) 16 h (by omega)
  have h := toNat_or_placed (.ofBool s.torigin.bit) 17 h (by omega)
  have h := toNat_or_placed (.ofBool s.ctvalid) 18 h (by omega)
  have h := toNat_or_placed (.ofBool s.degen) 19 h (by omega)
  have h := toNat_or_placed s.dsState.value 20 h (by omega)
  have h := toNat_or_placed (.ofBool s.irq) 22 h (by omega)
  simp only [BitVec.toNat_ofBool] at h
  exact h

/-- `STATUS` with `DEGEN` and `irq` written out (R45, R46, R53). -/
theorem toNat_statusWord_flags (s : State) : s.statusWord.toNat =
    s.err.code.toNat + s.errop.toNat * 2 ^ 8 + s.tvalid.toNat * 2 ^ 16 + s.torigin.bit.toNat * 2 ^ 17
      + s.ctvalid.toNat * 2 ^ 18 + (if s.tvalid = true ∧ (s.node s.root).kind = .leaf then 1 else 0) * 2 ^ 19
      + s.dsState.value.toNat * 2 ^ 20 + (if s.err = .noError then 0 else 1) * 2 ^ 22 := by
  have hdegen : s.degen.toNat = if s.tvalid = true ∧ (s.node s.root).kind = .leaf then 1 else 0 := by
    simp only [State.degen, State.isLeaf, Bool.toNat, Bool.cond_eq_ite, Bool.and_eq_true, decide_eq_true_eq]
  have hirq : s.irq.toNat = if s.err = .noError then 0 else 1 := by
    by_cases he : s.err = .noError <;> simp [State.irq, he]
  rw [toNat_statusWord, hdegen, hirq]

theorem toNat_packWord (s : State) : s.packWord.toNat = s.pacc.toNat + s.paccn.toNat * 2 ^ 8 :=
  toNat_or_placed s.paccn 8 (toNat_placed_zero s.pacc (by decide)) (by omega)

theorem toNat_dsWord {s : State} (h : s.dsDepth < 2 ^ 10) :
    s.dsWord.toNat = s.dsState.value.toNat + s.dsDepth * 2 ^ 8 + s.dsCur.toNat * 2 ^ 20 := by
  have hd := toNat_placed_zero s.dsState.value (by decide)
  have hd := toNat_or_placed (BitVec.ofNat 10 s.dsDepth) 8 hd (by omega)
  have hd := toNat_or_placed s.dsCur 20 hd (by omega)
  rwa [BitVec.toNat_ofNat, Nat.mod_eq_of_lt h] at hd

theorem CodeEntry.toNat_metaWord (e : CodeEntry) : e.metaWord.toNat = e.clen.toNat + e.cvalid.toNat * 2 ^ 8 := by
  have h := toNat_or_placed (.ofBool e.cvalid) 8 (toNat_placed_zero e.clen (by decide)) (by omega)
  rwa [BitVec.toNat_ofBool] at h

theorem CodeEntry.toNat_bitsWord (e : CodeEntry) (k : Nat) :
    (e.bitsWord k).toNat = e.cbits.toNat / 2 ^ (64 * k) % 2 ^ 64 := by
  rw [CodeEntry.bitsWord, BitVec.extractLsb'_toNat, BitVec.toNat_setWidth, Nat.shiftRight_eq_div_pow,
    Nat.mod_eq_of_lt (show e.cbits.toNat < 2 ^ 256 from lt_trans e.cbits.isLt (by decide))]

theorem Node.toNat_word (n : Node) :
    n.word.toNat = n.kind.bit.toNat + n.sym.toNat * 2 ^ 8 + n.l.toNat * 2 ^ 16 + n.r.toNat * 2 ^ 32 := by
  have h : (bitWord n.kind.bit).toNat = n.kind.bit.toNat := by cases n.kind <;> rfl
  have hk : n.kind.bit.toNat < 2 := Bool.toNat_lt _
  have h := toNat_or_placed n.sym 8 h (by omega)
  have h := toNat_or_placed n.l 16 h (by omega)
  exact toNat_or_placed n.r 32 h (by omega)

theorem Frame.toNat_word (f : Frame) : f.word.toNat = f.node.toNat + f.side.bit.toNat * 2 ^ 9 := by
  have h := toNat_or_placed (.ofBool f.side.bit) 9 (toNat_placed_zero f.node (by decide)) (by omega)
  rwa [BitVec.toNat_ofBool] at h

/-! ## The rows that have an index for each entry -/

theorem toNat_ofNat_regIdx {n : Nat} (h : n < 2 ^ 12) : (BitVec.ofNat 12 n).toNat = n := by
  rw [BitVec.toNat_ofNat, Nat.mod_eq_of_lt h]

section
variable (s : State) {idx : RegIdx} {k : Nat}

theorem regRead_freq {a : Byte} (h : idx.toNat = 0x100 + a.toNat) : s.regRead idx = s.freqOf a := by
  simp (disch := omega) only [State.regRead, h, if_neg, if_pos, Nat.add_sub_cancel_left, BitVec.ofNat_toNat,
    BitVec.setWidth_eq]

theorem regRead_codeMeta {a : Byte} (h : idx.toNat = 0x200 + a.toNat) : s.regRead idx = (s.codeOf a).metaWord := by
  simp (disch := omega) only [State.regRead, h, if_neg, if_pos, Nat.add_sub_cancel_left, BitVec.ofNat_toNat,
    BitVec.setWidth_eq]

theorem regRead_codeBits {a : Byte} (hk : k < 4) (h : idx.toNat = 0x400 + 4 * a.toNat + k) :
    s.regRead idx = (s.codeOf a).bitsWord k := by
  have hq : (0x400 + 4 * a.toNat + k - 0x400) / 4 = a.toNat := by omega
  have hr : (0x400 + 4 * a.toNat + k - 0x400) % 4 = k := by omega
  simp (disch := omega) only [State.regRead, h, if_neg, if_pos, hq, hr, BitVec.ofNat_toNat, BitVec.setWidth_eq]

theorem regRead_node (hk : k < 511) (h : idx.toNat = 0x800 + k) :
    s.regRead idx = s.liveOnly idx (s.nodes[k]?.map Node.word) := by
  simp (disch := omega) only [State.regRead, h, if_neg, if_pos, Nat.add_sub_cancel_left]

theorem regRead_weight (hk : k < 511) (h : idx.toNat = 0xA00 + k) :
    s.regRead idx = s.liveOnly idx (s.nodes[k]?.map Node.w) := by
  simp (disch := omega) only [State.regRead, h, if_neg, if_pos, Nat.add_sub_cancel_left]

theorem regRead_heap (hk : k < 256) (h : idx.toNat = 0xC00 + k) :
    s.regRead idx = s.liveOnly idx (s.heap[k]?.map fun n => placed n 0) := by
  simp (disch := omega) only [State.regRead, h, if_neg, if_pos, Nat.add_sub_cancel_left]

theorem regRead_frame (hk : k < 511) (h : idx.toNat = 0xE00 + k) :
    s.regRead idx = s.liveOnly idx ((s.frame? k).map Frame.word) := by
  simp (disch := omega) only [State.regRead, h, if_neg, if_pos, Nat.add_sub_cancel_left]

/-- An index in no row reads as 0 (R53). -/
theorem regRead_unused (h : (0x00A ≤ idx.toNat ∧ idx.toNat ≤ 0x0FF) ∨ (0x300 ≤ idx.toNat ∧ idx.toNat ≤ 0x3FF) ∨
    idx.toNat = 0x9FF ∨ idx.toNat = 0xBFF ∨ (0xD00 ≤ idx.toNat ∧ idx.toNat ≤ 0xDFF) ∨ idx.toNat = 0xFFF) :
    s.regRead idx = 0 := by
  rcases h with h | h | h | h | h | h <;> simp (disch := omega) only [State.regRead, if_neg, if_pos]

end

/-! ## The obligations on the port -/

/-- A served read is on the host's side of the ports alone. -/
theorem sameBlock_serve (s : State) (rest : List HostAction) (idx : RegIdx) (v : Word) :
    SameBlock s (s.serve rest idx v) := by
  simp [SameBlock]

/-- The map reads neither the host's pending actions nor the values served before. -/
theorem regRead_serve (s : State) (rest : List HostAction) (idx : RegIdx) (v : Word) (j : RegIdx) :
    (s.serve rest idx v).regRead j = s.regRead j := rfl

/-- Settles O10: the step serves the read. -/
theorem regReadChangesNothing : Obligations.RegReadChangesNothing := fun s idx rest h =>
  ⟨_, step_of_inbox_cons h, rfl, sameBlock_serve s rest idx _, regRead_serve s rest idx _⟩

theorem State.frame?_eq_none {s : State} {k : Nat} (h : s.dsDepth ≤ k) : s.frame? k = none :=
  List.getElem?_eq_none (by rw [List.length_reverse]; exact h)

/-- Settles O12, row by row: a list has no entry at or above its length. -/
theorem nonLiveReadsAreFree : Obligations.NonLiveReadsAreFree := by
  intro s idx
  refine ⟨fun k hk hn hi => ?_, fun k hk hn hi => ?_, fun k hk hn hi => ?_, fun k hk hn hi => ?_⟩
  · rw [regRead_node s hk hi, List.getElem?_eq_none hn]; rfl
  · rw [regRead_weight s hk hi, List.getElem?_eq_none hn]; rfl
  · rw [regRead_heap s hk hi, List.getElem?_eq_none hn]; rfl
  · rw [regRead_frame s hk hi, State.frame?_eq_none hn]; rfl

/-- Settles O11, row by row: the invariant bounds the counters by the widths of their fields. -/
theorem registerMapReadsEveryRow : Obligations.RegisterMapReadsEveryRow := by
  intro s h
  have harena : s.nodes.length ≤ 511 := h.arena
  have hheap : s.heap.length ≤ 256 := h.hsize_le.2
  have hstack : s.dsStk.length ≤ 511 := h.dsDepth_le.trans h.arena
  refine ⟨rfl, toNat_statusWord_flags s, toNat_placed_zero s.root (by decide),
    toNat_placed_ofNat (by decide) (lt_of_le_of_lt h.arena (by decide)),
    toNat_placed_ofNat (by decide) (lt_of_le_of_lt h.hsize_le.2 (by decide)),
    toNat_packWord s, toNat_placed_zero s.remain (by decide), toNat_placed_zero s.walk (by decide),
    toNat_dsWord (lt_of_le_of_lt hstack (by decide)), rfl, fun a => ?freq, fun a => ?codeMeta, fun a k hk => ?codeBits,
    fun k n hn => ?node, fun k n hn => ?weight, fun k n hn => ?heap, fun k f hf => ?frame, fun _ => regRead_unused s⟩
  case freq => exact regRead_freq s (toNat_ofNat_regIdx (by omega))
  case codeMeta => rw [regRead_codeMeta s (toNat_ofNat_regIdx (by omega)), CodeEntry.toNat_metaWord]
  case codeBits => rw [regRead_codeBits s hk (toNat_ofNat_regIdx (by omega)), CodeEntry.toNat_bitsWord]
  case node =>
    have hk := (List.getElem?_eq_some_iff.mp hn).1
    rw [regRead_node s (by omega) (toNat_ofNat_regIdx (by omega)), hn]
    exact n.toNat_word
  case weight =>
    have hk := (List.getElem?_eq_some_iff.mp hn).1
    rw [regRead_weight s (by omega) (toNat_ofNat_regIdx (by omega)), hn]
    rfl
  case heap =>
    have hk := (List.getElem?_eq_some_iff.mp hn).1
    rw [regRead_heap s (by omega) (toNat_ofNat_regIdx (by omega)), hn]
    exact toNat_placed_zero n (by decide)
  case frame =>
    have hk := (List.getElem?_eq_some_iff.mp hf).1
    rw [List.length_reverse] at hk
    rw [regRead_frame s (by omega) (toNat_ofNat_regIdx (by omega)), State.frame?, hf]
    exact f.toNat_word

end Sys2Proof.Machine

/-!
# What a run of the walk emits (O37)
-/

namespace Sys2Proof.Machine

/-- What walking at most `n` bits emitted: at most one byte for each bit, each counted, each the symbol of a live leaf. -/
structure WalkEmitted (s t : State) (n : Nat) (bs : List Byte) : Prop where
  emitted : Emitted s t bs
  length_le : bs.length ≤ n
  count : t.remain.toNat + bs.length = s.remain.toNat
  leaves : ∀ x ∈ bs, ∃ m ∈ s.nodes, m.kind = .leaf ∧ m.sym = x

theorem WalkEmitted.nil (s : State) (n : Nat) : WalkEmitted s s n [] := ⟨.nil s, Nat.zero_le n, rfl, nofun⟩

theorem WalkEmitted.trans {s t u : State} {n m : Nat} {a b : List Byte} (hn : t.nodes = s.nodes) (ha : WalkEmitted s t n a)
    (hb : WalkEmitted t u m b) : WalkEmitted s u (m + n) (a ++ b) where
  emitted := ha.emitted.trans hb.emitted
  length_le := by rw [List.length_append, Nat.add_comm]; exact Nat.add_le_add hb.length_le ha.length_le
  count := by rw [List.length_append, Nat.add_comm a.length, ← Nat.add_assoc, hb.count, ha.count]
  leaves := fun x hx => (List.mem_append.mp hx).elim (ha.leaves x) fun h => hn ▸ hb.leaves x h

theorem isLeaf_of_getElem? {s : State} {i : NodeIdx} {n : Node} (hn : s.nodes[i.toNat]? = some n) (hk : n.kind = .leaf) :
    s.isLeaf i = true := by
  simp [State.isLeaf, State.node_of_getElem? hn, hk]

theorem TreeIs.root_live {s : State} {sh : Shape} (h : TreeIs s sh) : s.root.toNat < s.ncount := by
  obtain ⟨hc, ha, htop, -⟩ := h
  exact htop ▸ ha.live _ (Shape.top_mem hc)

/-- Below an internal root the walk stands at an internal node (R51 (c)). -/
theorem WalkOk.internal {s : State} {sh : Shape} (hw : WalkOk s) (ht : TreeIs s sh) (hr : s.isLeaf s.root = false) :
    ∃ n, s.nodes[s.walk.toNat]? = some n ∧ n.kind = .internal := by
  rcases hw with hw | hw
  · have hroot := State.getElem?_of_live ht.root_live
    refine hw ▸ ⟨_, hroot, ?_⟩
    cases hk : (s.node s.root).kind with
    | internal => rfl
    | leaf => exact nomatch (isLeaf_of_getElem? hroot hk).symm.trans hr
  · exact hw

/-- So the next edge leads to a live node. -/
theorem WalkOk.child_live {s : State} {sh : Shape} (hw : WalkOk s) (ht : TreeIs s sh) (hr : s.isLeaf s.root = false)
    (c : Bool) : (s.child s.walk c).toNat < s.ncount := by
  obtain ⟨n, hn, hk⟩ := hw.internal ht hr
  obtain ⟨hc, ha, -, hcov⟩ := ht
  have hmem := Shape.child_mem hc ha ((hcov.mem_iff _).mpr (List.getElem?_eq_some_iff.mp hn).1) hn hk
  rw [← hcov.mem_iff, State.child, State.node_of_getElem? hn]
  cases c
  · exact hmem.1
  · exact hmem.2

/-- One bit of the walk emits at most the symbol of the leaf it leads to. -/
theorem walkBit_emits {s : State} {c : Bool} (hlive : (s.child s.walk c).toNat < s.ncount) :
    ∃ bs, WalkEmitted s (s.walkBit c) 1 bs := by
  unfold State.walkBit
  split
  · exact ⟨[], .nil s 1⟩
  · next hremain =>
    split
    · next hleaf =>
      have hpos : 0 < s.remain.toNat := Nat.pos_of_ne_zero fun e => hremain (BitVec.eq_of_toNat_eq e)
      have hdec : (s.remain - 1).toNat + 1 = s.remain.toNat := by
        have := s.remain.isLt
        bv_omega
      refine ⟨[(s.node (s.child s.walk c)).sym], ⟨rfl, rfl⟩, Nat.le_refl 1, hdec, fun x hx => ?_⟩
      exact ⟨s.node (s.child s.walk c), List.mem_of_getElem? (State.getElem?_of_live hlive), of_decide_eq_true hleaf,
        (List.mem_singleton.mp hx).symm⟩
    · exact ⟨[], .of_eq rfl rfl, Nat.zero_le 1, rfl, nofun⟩

/-- One bit of a walk below an internal root keeps the tree, its root's kind and R51 (c). -/
theorem WalkOk.walkBit {s : State} {sh : Shape} (hw : WalkOk s) (ht : TreeIs s sh) (hr : s.isLeaf s.root = false)
    (c : Bool) : TreeIs (s.walkBit c) sh ∧ WalkOk (s.walkBit c) ∧ (s.walkBit c).isLeaf (s.walkBit c).root = false := by
  have hframe := (walkBit_spec s c).2
  refine ⟨?_, (walkBits_spec [c] s ht hw hr).1, ?_⟩ <;> rw [hframe]
  · exact ht
  · exact hr

/-- Each bit of a walk below an internal root emits at most one symbol. -/
theorem walkBits_emits (bits : Bits) {s : State} {sh : Shape} (ht : TreeIs s sh) (hw : WalkOk s)
    (hr : s.isLeaf s.root = false) : ∃ bs, WalkEmitted s (s.walkBits bits) bits.length bs := by
  induction bits generalizing s with
  | nil => exact ⟨[], .nil s 0⟩
  | cons c bits ih =>
    obtain ⟨a, ha⟩ := walkBit_emits (hw.child_live ht hr c)
    obtain ⟨ht', hw', hr'⟩ := hw.walkBit ht hr c
    obtain ⟨b, hb⟩ := ih ht' hw' hr'
    exact ⟨a ++ b, ha.trans (by rw [(walkBit_spec s c).2]) hb⟩

theorem exec_unpackByte {s : State} (he : s.err = .noError) (hv : s.tvalid = true) (b : Byte) : exec (.unpackByte b) s =
    if s.remain = 0 ∨ s.isLeaf s.root = true then .next s else .next (s.walkBits (byteBits b)) :=
  (unlessSticky_clear he _).trans (if_neg (by simp [hv]))

/-- Settles O37: the byte is ignored, or its eight bits are walked. -/
theorem unpackByteStaysWithinTheCount : Obligations.UnpackByteStaysWithinTheCount := by
  intro b s h he hv
  obtain ⟨sh, ht⟩ := h.treeIs hv
  by_cases hquiet : s.remain = 0 ∨ s.isLeaf s.root = true
  · refine ⟨s, [], ?_, by simp, Nat.zero_le 8, rfl, nofun, h.walk hv⟩
    rw [exec_unpackByte he hv, if_pos hquiet]
  · have hr : s.isLeaf s.root = false := by simpa using fun hleaf => hquiet (.inr hleaf)
    obtain ⟨hw, hframe⟩ := walkBits_spec (byteBits b) s ht (h.walk hv) hr
    obtain ⟨bs, hbs⟩ := walkBits_emits (byteBits b) ht (h.walk hv) hr
    obtain ⟨hout, hcnt⟩ := hbs.emitted
    refine ⟨s.walkBits (byteBits b), bs, ?_, ?_, hbs.length_le, hbs.count, hbs.leaves, hw⟩
    · rw [exec_unpackByte he hv, if_neg hquiet]
    · rw [← hout, ← hcnt]
      exact hframe

end Sys2Proof.Machine

/-!
# No command reads a non-live entry (O56)

`redraw` gives the free values anew. Each operation of the commands commutes with it, where the entries it reads are live.
-/

namespace Sys2Proof.Machine

/-- The state with the free values drawn anew. -/
def State.redraw (s : State) (d : Nat) : State := { s with draws := d }

section
variable (s : State) (d : Nat)

@[simp] theorem State.redraw_root : (s.redraw d).root = s.root := rfl
@[simp] theorem State.redraw_tvalid : (s.redraw d).tvalid = s.tvalid := rfl
@[simp] theorem State.redraw_walk : (s.redraw d).walk = s.walk := rfl
@[simp] theorem State.redraw_dsState : (s.redraw d).dsState = s.dsState := rfl
@[simp] theorem State.redraw_dsStk : (s.redraw d).dsStk = s.dsStk := rfl
@[simp] theorem State.redraw_hsize : (s.redraw d).hsize = s.hsize := rfl
@[simp] theorem State.redraw_nextIdx : (s.redraw d).nextIdx = s.nextIdx := rfl
@[simp] theorem State.redraw_seedError : (s.redraw d).seedError = s.seedError := rfl

end

/-- A live entry is no free value. -/
theorem node_redraw {s : State} {i : NodeIdx} (d : Nat) (hi : i.toNat < s.ncount) : (s.redraw d).node i = s.node i :=
  node_congr (s := s) (t := s.redraw d) rfl hi

theorem key_redraw {s : State} {i : NodeIdx} (d : Nat) (hi : i.toNat < s.ncount) : (s.redraw d).key i = s.key i :=
  key_congr (s := s) (t := s.redraw d) rfl hi

theorem weight_redraw {s : State} {i : NodeIdx} (d : Nat) (hi : i.toNat < s.ncount) :
    (s.redraw d).weight i = s.weight i :=
  congrArg Node.w (node_redraw d hi)

theorem isLeaf_redraw {s : State} {i : NodeIdx} (d : Nat) (hi : i.toNat < s.ncount) :
    (s.redraw d).isLeaf i = s.isLeaf i := by
  rw [State.isLeaf, State.isLeaf, node_redraw d hi]

/-- An outcome with the free values drawn anew. -/
def redrawn (d : Nat) : Result → Result
  | .next t => .next (t.redraw d)
  | .fault e => .fault e
  | .refused e => .refused e

/-! ## Outcomes -/

theorem unlessSticky_redraw {s : State} {d : Nat} {r r' : Result} (h : s.err = .noError → r' = redrawn d r) :
    unlessSticky (s.redraw d) r' = redrawn d (unlessSticky s r) := by
  by_cases he : s.err = .noError
  · rw [unlessSticky_clear he, unlessSticky_clear (s := s.redraw d) he, h he]
  · rw [unlessSticky_sticky he, unlessSticky_sticky (s := s.redraw d) he, redrawn]

theorem ite_redrawn {d : Nat} {c : Prop} [Decidable c] {a b a' b' : Result} (ha : c → a' = redrawn d a)
    (hb : ¬ c → b' = redrawn d b) : (if c then a' else b') = redrawn d (if c then a else b) := by
  split
  · next h => exact ha h
  · next h => exact hb h

/-! ## Operations that read no arena entry -/

section
variable (s : State) (d : Nat)

theorem finishTree_redraw : (s.redraw d).finishTree = s.finishTree.redraw d := by
  by_cases h : s.hsize = 1
  · obtain ⟨r, hr⟩ := List.length_eq_one_iff.mp h
    rw [finishTree_one hr, finishTree_one (s := s.redraw d) hr]
    rfl
  · rw [finishTree_spec s h, finishTree_spec (s.redraw d) h]

theorem emitAll_redraw (bs : List Byte) : (s.redraw d).emitAll bs = (s.emitAll bs).redraw d :=
  List.foldl_hom (State.redraw · d) fun _ _ => rfl

theorem packBits_redraw (bits : Bits) : (s.redraw d).packBits bits = (s.packBits bits).redraw d :=
  List.foldl_hom (State.redraw · d) fun u c => by
    rw [State.packBit, State.packBit, apply_ite (State.redraw · d)]
    rfl

theorem fillCodes_redraw (c : List (Byte × Bits)) : (s.redraw d).fillCodes c = (s.fillCodes c).redraw d := by
  have h : c.foldl State.recordCode (s.clearCodes.redraw d) = (c.foldl State.recordCode s.clearCodes).redraw d :=
    List.foldl_hom (State.redraw · d) fun _ _ => rfl
  exact congrArg (fun u => { u with ctvalid := true }) h

theorem takeSymbol_redraw (b : Byte) : (s.redraw d).takeSymbol b = (s.takeSymbol b).redraw d := by
  unfold State.takeSymbol
  rw [State.redraw_dsStk]
  split <;> rfl

theorem attach_redraw (n : NodeIdx) : (s.redraw d).attach n = (s.attach n).redraw d := by
  unfold State.attach
  rw [State.redraw_dsStk]
  split <;> rfl

theorem takeMarker_redraw (b : Byte) : (s.redraw d).takeMarker b = redrawn d (s.takeMarker b) := by
  have h : ((s.redraw d).alloc (Node.ofMarker b)).attach s.nextIdx =
      ((s.alloc (Node.ofMarker b)).attach s.nextIdx).redraw d := attach_redraw (s.alloc (Node.ofMarker b)) d s.nextIdx
  simp only [State.takeMarker, State.redraw_nextIdx, h]
  exact ite_redrawn (fun _ => rfl) fun _ => ite_redrawn (fun _ => rfl) fun _ => rfl

end

/-! ## The tree builder, whose heap entries are live -/

theorem pushHeap_redraw {s : State} {n : NodeIdx} (d : Nat) (hn : n.toNat < s.ncount)
    (hh : ∀ i ∈ s.heap, i.toNat < s.ncount) : (s.redraw d).pushHeap n = (s.pushHeap n).redraw d := by
  have h : heapPush (s.redraw d).key s.heap n = heapPush s.key s.heap n :=
    heapPush_congr (key_redraw d hn) fun i hi => key_redraw d (hh i hi)
  exact congrArg (fun l => { s with heap := l, draws := d }) h

/-- An entry made and pushed at once is live, and leaves the heap's entries live. -/
theorem pushHeap_alloc_redraw {s : State} (x : Node) (d : Nat) (hn : s.ncount < 512)
    (hh : ∀ i ∈ s.heap, i.toNat < s.ncount) :
    ((s.redraw d).alloc x).pushHeap s.nextIdx = ((s.alloc x).pushHeap s.nextIdx).redraw d := by
  have hcount : (s.alloc x).ncount = s.ncount + 1 := by simp [State.ncount]
  refine pushHeap_redraw (s := s.alloc x) d ?_ fun i hi => ?_
  · rw [hcount, State.nextIdx_toNat hn]; exact Nat.lt_succ_self _
  · rw [hcount]; exact Nat.lt_succ_of_lt (hh i hi)

theorem Seeded.heap_live {s0 s : State} {pre : List Byte} (h : Seeded s0 pre s) : ∀ i ∈ s.heap, i.toNat < s.ncount := by
  intro i hi
  have hmem := h.heap.mem_iff.mp (List.mem_map_of_mem hi)
  rwa [List.mem_range, ← List.length_map (f := fun a => Node.mkLeaf a (s0.freqOf a)), ← h.nodes] at hmem

theorem Seeded.fold_redraw {s0 s : State} {pre : List Byte} (l : List Byte) (d : Nat) (h : Seeded s0 pre s)
    (hl : pre.length + l.length ≤ 511) : l.foldl State.seedLeaf (s.redraw d) = (l.foldl State.seedLeaf s).redraw d := by
  induction l generalizing pre s with
  | nil => rfl
  | cons a l ih =>
    rw [List.length_cons] at hl
    have hcount : s.ncount = pre.length := by simp [State.ncount, h.nodes]
    have hstep : (s.redraw d).seedLeaf a = (s.seedLeaf a).redraw d :=
      pushHeap_alloc_redraw _ d (by omega) h.heap_live
    rw [List.foldl_cons, List.foldl_cons, hstep]
    exact ih (h.step a (by omega)) (by simp; omega)

theorem seed_redraw (s : State) (d : Nat) : (s.redraw d).seed = s.seed.redraw d := by
  have h0 : Seeded s [] s.invalidateTree := ⟨rfl, by simp, by simp [HeapOrdered], rfl⟩
  have hl := presentSymbols_length s
  rw [State.seed, State.seed, ← finishTree_redraw, ← h0.fold_redraw s.presentSymbols d (by simp; omega)]
  rfl

theorem merge_redraw {s t : State} (d : Nat) (hh : ∀ i ∈ s.heap, i.toNat < s.ncount) (ht : s.merge = .next t) :
    (s.redraw d).merge = .next (t.redraw d) := by
  obtain ⟨a, b, h1, h2, e1, e2, hn, rfl⟩ := merge_eq_next_iff.mp ht
  obtain ⟨-, p1, -⟩ := heapPop_spec e1
  obtain ⟨-, p2, -⟩ := heapPop_spec e2
  have live1 : ∀ i ∈ a :: h1, i.toNat < s.ncount := fun i hi => hh i (p1.mem_iff.mp hi)
  have live2 : ∀ i ∈ b :: h2, i.toNat < s.ncount := fun i hi => live1 i (List.mem_cons_of_mem a (p2.mem_iff.mp hi))
  have pop : ∀ l : List NodeIdx, (∀ i ∈ l, i.toNat < s.ncount) → heapPop (s.redraw d).key l = heapPop s.key l :=
    fun l hl => heapPop_congr fun i hi => key_redraw d (hl i hi)
  have joined : (s.redraw d).joined a b h2 = (s.joined a b h2).redraw d := by
    rw [State.joined, weight_redraw d (live1 a List.mem_cons_self), weight_redraw d (live2 b List.mem_cons_self)]
    exact pushHeap_alloc_redraw (s := { s with heap := h2 }) _ d (Nat.lt_succ_of_lt hn)
      fun i hi => live2 i (List.mem_cons_of_mem b hi)
  refine merge_eq_next_iff.mpr ⟨a, b, h1, h2, (pop _ hh).trans e1, ?_, hn, ?_⟩
  · exact (pop h1 fun i hi => live1 i (List.mem_cons_of_mem a hi)).trans e2
  · rw [joined, finishTree_redraw]

theorem mergeAll_redraw {fuel : Nat} {s t : State} (d : Nat) (h : Inv s) (ht : mergeAll fuel s = .next t) :
    mergeAll fuel (s.redraw d) = .next (t.redraw d) := by
  induction fuel generalizing s with
  | zero => cases ht; rfl
  | succ fuel ih =>
    rw [mergeAll] at ht ⊢
    rw [State.redraw_hsize]
    split at ht
    · next h2 =>
      obtain ⟨u, hu, hut⟩ := andThen_eq_next ht
      obtain ⟨u', hu', hinv, -⟩ := h.merge h2
      cases hu.symm.trans hu'
      rw [if_pos h2, merge_redraw d h.heap_live hu, andThen_next, ih hinv hut]
    · next h2 =>
      rw [if_neg h2]
      cases ht
      rfl

/-! ## The walks of the present tree, whose nodes are live -/

theorem Shape.bytes_congr {f g : NodeIdx → Byte} {t : Shape} (h : ∀ i ∈ t.indices, f i = g i) :
    t.bytes f = t.bytes g := by
  induction t with
  | hole => rfl
  | leaf i => simp [Shape.bytes, h i (by simp [Shape.indices])]
  | node i l r ihl ihr =>
    rw [Shape.bytes, Shape.bytes, ihl fun j hj => h j (by simp [Shape.indices, hj]),
      ihr fun j hj => h j (by simp [Shape.indices, hj])]

theorem TreeIs.serialized_redraw {s : State} {sh : Shape} (d : Nat) (ht : TreeIs s sh) (hcap : s.ncount ≤ nodeCap) :
    (s.redraw d).serialized = s.serialized := by
  have ht' : TreeIs (s.redraw d) sh := ht
  rw [ht'.serialized hcap, ht.serialized hcap]
  exact congrArg some (Shape.bytes_congr fun i hi => congrArg Node.sym (node_redraw d (ht.2.1.live i hi)))

theorem walkBit_redraw {s : State} {c : Bool} (d : Nat) (hw : s.walk.toNat < s.ncount)
    (hc : (s.child s.walk c).toNat < s.ncount) : (s.redraw d).walkBit c = (s.walkBit c).redraw d := by
  have hchild : (s.redraw d).child s.walk c = s.child s.walk c := by
    rw [State.child, State.child, node_redraw d hw]
  rw [State.walkBit, State.redraw_walk, hchild, isLeaf_redraw d hc, node_redraw d hc, State.walkBit,
    apply_ite (State.redraw · d), apply_ite (State.redraw · d)]
  rfl

theorem walkBits_redraw (bits : Bits) {s : State} {sh : Shape} (d : Nat) (ht : TreeIs s sh) (hw : WalkOk s)
    (hr : s.isLeaf s.root = false) : (s.redraw d).walkBits bits = (s.walkBits bits).redraw d := by
  induction bits generalizing s with
  | nil => rfl
  | cons c bits ih =>
    obtain ⟨n, hn, -⟩ := hw.internal ht hr
    have hstep := walkBit_redraw d (List.getElem?_eq_some_iff.mp hn).1 (hw.child_live ht hr c)
    obtain ⟨ht', hw', hr'⟩ := hw.walkBit ht hr c
    exact (congrArg (State.walkBits · bits) hstep).trans (ih ht' hw' hr')

/-! ## The commands -/

section
variable {s : State} (d : Nat)

theorem Inv.root_live (h : Inv s) (hv : s.tvalid = true) : s.root.toNat < s.ncount := by
  obtain ⟨sh, ht⟩ := h.treeIs hv
  exact ht.root_live

theorem execTreeSeed_redraw (s : State) : execTreeSeed (s.redraw d) = redrawn d (execTreeSeed s) :=
  unlessSticky_redraw fun _ => by
    rw [State.redraw_seedError, seed_redraw]
    cases s.seedError <;> rfl

theorem Inv.execTreeMerge_redraw (h : Inv s) : execTreeMerge (s.redraw d) = redrawn d (execTreeMerge s) :=
  unlessSticky_redraw fun _ => ite_redrawn (fun _ => rfl) fun h2 => by
    obtain ⟨t, ht, -⟩ := h.merge (by rw [State.redraw_hsize] at h2; omega)
    rw [ht, merge_redraw d h.heap_live ht, redrawn]

theorem Inv.execTreeBuild_redraw (h : Inv s) : execTreeBuild (s.redraw d) = redrawn d (execTreeBuild s) :=
  unlessSticky_redraw fun _ => by
    rw [State.redraw_seedError, seed_redraw]
    cases hc : s.seedError with
    | some c => rfl
    | none =>
      have hseed := (seed_spec h.packer h.noError hc).1
      obtain ⟨t, ht, -⟩ := hseed.mergeAll (Nat.le_succ _)
      exact (mergeAll_redraw d hseed ht).trans (congrArg (redrawn d) ht).symm

theorem Inv.execCodeBuild_redraw (h : Inv s) : execCodeBuild (s.redraw d) = redrawn d (execCodeBuild s) :=
  unlessSticky_redraw fun _ => ite_redrawn (fun _ => rfl) fun hv => by
    obtain ⟨sh, ht⟩ := h.treeIs (by simpa using hv)
    rw [codes_congr (t := s.redraw d) ht h.arena rfl rfl]
    cases s.codes with
    | none => rfl
    | some c => exact ite_redrawn (fun _ => rfl) fun _ => congrArg Host.Outcome.next (fillCodes_redraw s d c)

theorem execPackSym_redraw (s : State) (a : Byte) : execPackSym a (s.redraw d) = redrawn d (execPackSym a s) :=
  unlessSticky_redraw fun _ => ite_redrawn (fun _ => rfl) fun _ => ite_redrawn (fun _ => rfl) fun _ =>
    congrArg Host.Outcome.next (packBits_redraw s d _)

theorem Inv.execUnpackByte_redraw (h : Inv s) (b : Byte) :
    execUnpackByte b (s.redraw d) = redrawn d (execUnpackByte b s) :=
  unlessSticky_redraw fun _ => ite_redrawn (fun _ => rfl) fun hv => by
    have hv : s.tvalid = true := by simpa using hv
    obtain ⟨sh, ht⟩ := h.treeIs hv
    rw [State.redraw_root, isLeaf_redraw d ht.root_live]
    refine ite_redrawn (fun _ => rfl) fun hrun => ?_
    exact congrArg Host.Outcome.next (walkBits_redraw _ d ht (h.walk hv) (by simpa using fun hleaf => hrun (.inr hleaf)))

theorem Inv.execUnpackSym_redraw (h : Inv s) : execUnpackSym (s.redraw d) = redrawn d (execUnpackSym s) :=
  unlessSticky_redraw fun _ => ite_redrawn (fun _ => rfl) fun hv => by
    have hroot := h.root_live (by simpa using hv)
    rw [State.redraw_root, isLeaf_redraw d hroot, node_redraw d hroot]
    exact ite_redrawn (fun _ => rfl) fun _ => ite_redrawn (fun _ => rfl) fun _ => rfl

theorem Inv.execTreeSer_redraw (h : Inv s) : execTreeSer (s.redraw d) = redrawn d (execTreeSer s) :=
  unlessSticky_redraw fun _ => ite_redrawn (fun _ => rfl) fun hv => by
    obtain ⟨sh, ht⟩ := h.treeIs (by simpa using hv)
    rw [ht.serialized_redraw d h.arena]
    cases s.serialized with
    | none => rfl
    | some bs => exact congrArg Host.Outcome.next (emitAll_redraw s d bs)

theorem execDeserByte_redraw (s : State) (b : Byte) : execDeserByte b (s.redraw d) = redrawn d (execDeserByte b s) :=
  unlessSticky_redraw fun _ => by
    rw [State.redraw_dsState]
    cases s.dsState with
    | idle => rfl
    | done => rfl
    | sym => exact congrArg Host.Outcome.next (takeSymbol_redraw s d b)
    | marker => exact ite_redrawn (fun _ => rfl) fun _ => ite_redrawn (fun _ => rfl) fun _ => takeMarker_redraw s d b

theorem execDeserEnd_redraw (s : State) : execDeserEnd (s.redraw d) = redrawn d (execDeserEnd s) :=
  unlessSticky_redraw fun _ => by
    rw [State.redraw_dsState]
    cases s.dsState <;> rfl

theorem Inv.execCountEmit_redraw (h : Inv s) : execCountEmit (s.redraw d) = redrawn d (execCountEmit s) :=
  unlessSticky_redraw fun _ => ite_redrawn (fun _ => rfl) fun hv => by
    have hroot := h.root_live (by simpa using fun e => hv (.inl e))
    rw [State.redraw_root, weight_redraw d hroot]
    exact ite_redrawn (fun _ => rfl) fun _ => congrArg Host.Outcome.next (emitAll_redraw s d _)

/-- From a state of the invariant, a command's outcome depends on the free values in the counter alone. -/
theorem Inv.exec_redraw (h : Inv s) (i : Instr) : exec i (s.redraw d) = redrawn d (exec i s) := by
  cases i with
  | nop | reset | clrerr => rfl
  | freqClear | freqSetLo | freqSetHi | unpackInit | countShift | deserStart | emitByte =>
    exact unlessSticky_redraw fun _ => rfl
  | freqInc | packFlush | unpackEnd => exact unlessSticky_redraw fun _ => ite_redrawn (fun _ => rfl) fun _ => rfl
  | treeSeed => exact execTreeSeed_redraw d s
  | treeMerge => exact h.execTreeMerge_redraw d
  | treeBuild => exact h.execTreeBuild_redraw d
  | codeBuild => exact h.execCodeBuild_redraw d
  | packSym a => exact execPackSym_redraw d s a
  | unpackByte b => exact h.execUnpackByte_redraw d b
  | unpackSym => exact h.execUnpackSym_redraw d
  | treeSer => exact h.execTreeSer_redraw d
  | deserByte b => exact execDeserByte_redraw d s b
  | deserEnd => exact execDeserEnd_redraw d s
  | countEmit => exact h.execCountEmit_redraw d

end

/-- Settles O56: every entry that a command reads is live. -/
theorem noRuleReadsANonLiveEntry : Obligations.NoRuleReadsANonLiveEntry := fun i _ _ d h ht =>
  (h.exec_redraw d i).trans (congrArg (redrawn d) ht)

end Sys2Proof.Machine

/-!
# Every step completes (O54)

A command's outcome is a next state on every path but those of `merge`, `mergeAll`, the two walks of a tree and `takeMarker`.
On these the invariant supplies what they need: live heap entries and a free node for a merge (R156), a tree at most 255
edges deep for a walk (R172), and a stack no deeper than the arena for a marker (R214).
-/

namespace Sys2Proof.Machine

/-! ## Outcomes -/

theorem completes_next (t : State) : Completes (.next t) := ⟨t, rfl⟩

/-- An error is a next state (R242, R244). -/
theorem completes_raise (c : ErrCode) (op : Byte) (s : State) : Completes (raise c op s) := ⟨_, rfl⟩

/-- An ignored command completes, so only the run matters (R246). -/
theorem completes_unlessSticky {s : State} {r : Result} (h : s.err = .noError → Completes r) :
    Completes (unlessSticky s r) := by
  by_cases he : s.err = .noError
  · rw [unlessSticky_clear he]; exact h he
  · rw [unlessSticky_sticky he]; exact completes_next s

/-- A check that raises an error when it fails leaves the run behind it. -/
theorem completes_check {p : Prop} [Decidable p] {c : ErrCode} {op : Byte} {s : State} {r : Result}
    (h : ¬ p → Completes r) : Completes (if p then raise c op s else r) := by
  split
  · exact completes_raise c op s
  · next hp => exact h hp

/-- A choice between two next states. -/
theorem completes_ite_next (p : Prop) [Decidable p] (t u : State) : Completes (if p then .next t else .next u) := by
  split
  · exact completes_next t
  · exact completes_next u

/-! ## The commands whose cases are an error or a next state -/

theorem execTreeSeed_completes (s : State) : Completes (execTreeSeed s) :=
  completes_unlessSticky fun _ => by
    cases s.seedError with
    | some c => exact completes_raise c _ s
    | none => exact completes_next s.seed

theorem execDeserEnd_completes (s : State) : Completes (execDeserEnd s) :=
  completes_unlessSticky fun _ => by
    cases s.dsState with
    | idle | marker | sym => exact completes_raise _ _ s
    | done => exact completes_next s

/-! ## The commands that can stop outside the invariant -/

theorem Inv.execTreeMerge_completes {s : State} (h : Inv s) : Completes (execTreeMerge s) :=
  completes_unlessSticky fun _ => completes_check fun h2 => by
    obtain ⟨t, ht, -⟩ := h.merge (by omega)
    exact ⟨t, ht⟩

theorem Inv.execTreeBuild_completes {s : State} (h : Inv s) : Completes (execTreeBuild s) :=
  completes_unlessSticky fun _ => by
    cases hc : s.seedError with
    | some c => exact completes_raise c _ s
    | none =>
      obtain ⟨hseed, -⟩ := seed_spec h.packer h.noError hc
      obtain ⟨t, ht, -⟩ := hseed.mergeAll (Nat.le_succ s.seed.hsize)
      exact ⟨t, ht⟩

theorem Inv.execCodeBuild_completes {s : State} (h : Inv s) : Completes (execCodeBuild s) :=
  completes_unlessSticky fun _ => completes_check fun hv => by
    obtain ⟨sh, ht⟩ := h.treeIs (Bool.eq_true_of_not_eq_false hv)
    rw [ht.codes h.arena]
    exact completes_check fun _ => completes_next _

theorem Inv.execTreeSer_completes {s : State} (h : Inv s) : Completes (execTreeSer s) :=
  completes_unlessSticky fun _ => completes_check fun hv => by
    obtain ⟨sh, ht⟩ := h.treeIs (Bool.eq_true_of_not_eq_false hv)
    rw [ht.serialized h.arena]
    exact completes_next _

theorem Inv.execDeserByte_completes {s : State} (h : Inv s) (b : Byte) : Completes (execDeserByte b s) := by
  obtain ⟨t, ht, -⟩ := h.deserByte_total b
  exact ⟨t, ht⟩

/-! ## Commands, words, actions and steps -/

/-- From a state of the invariant every command completes. -/
theorem Inv.exec_completes {s : State} (h : Inv s) (i : Instr) : Completes (exec i s) := by
  cases i with
  | nop | reset | clrerr => exact completes_next _
  | freqClear | freqSetLo | freqSetHi | unpackInit | countShift | deserStart | emitByte =>
    exact completes_unlessSticky fun _ => completes_next _
  | freqInc | unpackEnd => exact completes_unlessSticky fun _ => completes_check fun _ => completes_next _
  | packSym | countEmit =>
    exact completes_unlessSticky fun _ => completes_check fun _ => completes_check fun _ => completes_next _
  | packFlush => exact completes_unlessSticky fun _ => completes_ite_next _ _ _
  | unpackByte => exact completes_unlessSticky fun _ => completes_check fun _ => completes_ite_next _ _ _
  | unpackSym =>
    exact completes_unlessSticky fun _ => completes_check fun _ => completes_check fun _ => completes_ite_next _ _ _
  | treeSeed => exact execTreeSeed_completes s
  | treeMerge => exact h.execTreeMerge_completes
  | treeBuild => exact h.execTreeBuild_completes
  | codeBuild => exact h.execCodeBuild_completes
  | treeSer => exact h.execTreeSer_completes
  | deserByte b => exact h.execDeserByte_completes b
  | deserEnd => exact execDeserEnd_completes s

/-- Every command word completes, legal or not. -/
theorem Inv.runWord_completes {s : State} (h : Inv s) (w : Word) : Completes (runWord w s) := by
  cases hd : decode w with
  | command i => rw [runWord_of_command hd]; exact h.exec_completes i
  | illegal why =>
    rw [runWord_of_illegal hd]
    exact completes_unlessSticky fun _ => completes_raise _ _ s

/-- Every host action completes. -/
theorem Inv.perform_completes {s : State} (h : Inv s) (a : HostAction) (rest : List HostAction) :
    Completes (perform a rest s) := by
  cases a with
  | cmd w => exact (h.take rest).runWord_completes w
  | regRead idx => exact completes_next _
  | hwReset => exact completes_next _

/-- Settles O54, by the host action that the step takes. -/
theorem everyStepCompletes : Obligations.EveryStepCompletes := by
  intro s h
  cases hi : s.inbox with
  | nil => rw [step_of_inbox_nil hi]; exact completes_next s
  | cons a rest => rw [step_of_inbox_cons hi]; exact h.perform_completes a rest

end Sys2Proof.Machine

/-!
# The command word as a number (O1, O2, O3)

The operands of a format stand in its word's lowest bits. With their width named, a row's word is its opcode times `2 ^ 56` plus
the operands, and the mask, the match value and the reserved field of the row are all read off that number.
-/

namespace Sys2Proof

/-- How many of a word's lowest bits hold a format's operands (R102 to R104). -/
def Format.operandWidth : Format → Nat
  | .F0 => 0
  | .FB => 8
  | .FW => 40

/-! ## Fields, mask and match as numbers -/

theorem opField_toNat (w : Word) : (opField w).toNat = w.toNat / 2 ^ 56 := by
  have := w.isLt
  rw [opField, BitVec.extractLsb'_toNat, Nat.shiftRight_eq_div_pow]
  omega

theorem imm8Field_toNat (w : Word) : (imm8Field w).toNat = w.toNat % 2 ^ 8 := by
  rw [imm8Field, BitVec.extractLsb'_toNat, Nat.shiftRight_zero]

theorem symField_toNat (w : Word) : (symField w).toNat = w.toNat / 2 ^ 32 % 2 ^ 8 := by
  rw [symField, BitVec.extractLsb'_toNat, Nat.shiftRight_eq_div_pow]

theorem imm32Field_toNat (w : Word) : (imm32Field w).toNat = w.toNat % 2 ^ 32 := by
  rw [imm32Field, BitVec.extractLsb'_toNat, Nat.shiftRight_zero]

/-- The reserved bits are those between the operands and the opcode. -/
theorem reservedField_eq (f : Format) (w : Word) :
    reservedField f w = w.toNat / 2 ^ f.operandWidth % 2 ^ (56 - f.operandWidth) := by
  rw [← Nat.shiftRight_eq_div_pow]
  cases f <;> exact BitVec.extractLsb'_toNat ..

theorem Mnemonic.matchWord_toNat (m : Mnemonic) : m.matchWord.toNat = m.opcode.toNat * 2 ^ 56 := by
  cases m <;> rfl

theorem Format.mask_eq (f : Format) : f.mask = BitVec.allOnes 64 <<< f.operandWidth := by
  cases f <;> rfl

/-- The mask of a format drops the operands. -/
theorem and_mask_toNat (f : Format) (w : Word) :
    (w &&& f.mask).toNat = w.toNat / 2 ^ f.operandWidth * 2 ^ f.operandWidth := by
  rw [f.mask_eq, ← BitVec.shiftLeft_ushiftRight, BitVec.toNat_shiftLeft, BitVec.toNat_ushiftRight, Nat.shiftLeft_eq,
    Nat.shiftRight_eq_div_pow]
  exact Nat.mod_eq_of_lt ((Nat.div_mul_le_self ..).trans_lt w.isLt)

/-- `(w & mask) = match` says that the opcode field is the row's and that no reserved bit is set (R107). -/
theorem and_mask_eq_matchWord_iff (m : Mnemonic) (w : Word) :
    w &&& m.format.mask = m.matchWord ↔ m.opcode = opField w ∧ reservedField m.format w = 0 := by
  have hw := w.isLt
  rw [← BitVec.toNat_inj, ← BitVec.toNat_inj, and_mask_toNat, m.matchWord_toNat, opField_toNat, reservedField_eq]
  cases m.format <;> simp only [Format.operandWidth] <;> omega

/-! ## The decoder -/

theorem Mnemonic.ofOpcode_eq_some_iff {op : Byte} {m : Mnemonic} : Mnemonic.ofOpcode op = some m ↔ m.opcode = op := by
  constructor
  · intro h
    simpa using List.find?_some h
  · rintro rfl
    cases m <;> rfl

theorem Mnemonic.ofOpcode_eq_none {op : Byte} (h : ∀ m : Mnemonic, m.opcode ≠ op) : Mnemonic.ofOpcode op = none :=
  Option.eq_none_iff_forall_ne_some.mpr fun m hm => h m (ofOpcode_eq_some_iff.mp hm)

/-- A word of a row's opcode is decoded in the row's format. -/
theorem decode_of_opcode {w : Word} {m : Mnemonic} (h : m.opcode = opField w) :
    decode w = if reservedField m.format w = 0 then .command (m.command w) else .illegal (.reservedBits m.format) := by
  rw [decode, Mnemonic.ofOpcode_eq_some_iff.mpr h]

theorem decode_of_no_opcode {w : Word} (h : ∀ m : Mnemonic, m.opcode ≠ opField w) :
    decode w = .illegal (.unassignedOpcode (opField w)) := by
  rw [decode, Mnemonic.ofOpcode_eq_none h]

/-- A word is a command exactly when it is a word of some row, and then it is the row's command (R107). -/
theorem decode_eq_command_iff {w : Word} {i : Instr} :
    decode w = .command i ↔ ∃ m : Mnemonic, w &&& m.format.mask = m.matchWord ∧ m.command w = i := by
  constructor
  · intro h
    by_cases hop : ∃ m : Mnemonic, m.opcode = opField w
    · obtain ⟨m, hm⟩ := hop
      rw [decode_of_opcode hm] at h
      split at h
      · next hr => exact ⟨m, (and_mask_eq_matchWord_iff m w).mpr ⟨hm, hr⟩, Decoded.command.inj h⟩
      · exact nomatch h
    · rw [decode_of_no_opcode (not_exists.mp hop)] at h
      exact nomatch h
  · rintro ⟨m, hm, rfl⟩
    obtain ⟨hop, hr⟩ := (and_mask_eq_matchWord_iff m w).mp hm
    exact decode_of_fields hop.symm hr

/-! ## The encoder -/

@[simp] theorem Mnemonic.mnemonic_command (m : Mnemonic) (w : Word) : (m.command w).mnemonic = m := by
  cases m <;> rfl

theorem byteOperand_toNat (w : Word) : ((imm8Field w).setWidth 64).toNat = w.toNat % 2 ^ 8 := by
  rw [BitVec.toNat_setWidth, imm8Field_toNat]
  omega

theorem symValueOperands_toNat (w : Word) :
    ((symField w).setWidth 64 <<< 32 ||| (imm32Field w).setWidth 64).toNat = w.toNat % 2 ^ 40 := by
  have hsym : ((symField w).setWidth 64).toNat <<< 32 % 2 ^ 64 = 2 ^ 32 * (w.toNat / 2 ^ 32 % 2 ^ 8) := by
    rw [BitVec.toNat_setWidth, symField_toNat, Nat.shiftLeft_eq]
    omega
  have himm : ((imm32Field w).setWidth 64).toNat = w.toNat % 2 ^ 32 := by
    rw [BitVec.toNat_setWidth, imm32Field_toNat]
    omega
  rw [BitVec.toNat_or, BitVec.toNat_shiftLeft, hsym, himm,
    ← Nat.two_pow_add_eq_or_of_lt (Nat.mod_lt _ (Nat.two_pow_pos 32))]
  omega

/-- The operands of a row's command are the word's lowest bits (R105). -/
theorem operandBits_command_toNat (m : Mnemonic) (w : Word) :
    (m.command w).operandBits.toNat = w.toNat % 2 ^ m.format.operandWidth := by
  cases m with
  | FREQ_INC | PACK_SYM | COUNT_SHIFT | UNPACK_BYTE | DESER_BYTE | EMIT_BYTE => exact byteOperand_toNat w
  | FREQ_SET_LO | FREQ_SET_HI => exact symValueOperands_toNat w
  | NOP | RESET | CLRERR | FREQ_CLEAR | TREE_SEED | TREE_MERGE | TREE_BUILD | CODE_BUILD | PACK_FLUSH | UNPACK_INIT
  | UNPACK_SYM | UNPACK_END | TREE_SER | DESER_START | DESER_END | COUNT_EMIT => exact (Nat.mod_one _).symm

/-- A row's word as a number: the opcode times `2 ^ 56`, plus the operands (R110). -/
theorem encode_command_toNat (m : Mnemonic) (w : Word) :
    (encode (m.command w)).toNat = m.opcode.toNat * 2 ^ 56 + w.toNat % 2 ^ m.format.operandWidth := by
  have hlt : w.toNat % 2 ^ m.format.operandWidth < 2 ^ 56 := by
    cases m.format <;> simp only [Format.operandWidth] <;> omega
  rw [encode, Mnemonic.mnemonic_command, BitVec.toNat_or, m.matchWord_toNat, operandBits_command_toNat, Nat.mul_comm,
    Nat.two_pow_add_eq_or_of_lt hlt]

/-- A word of a row is the word of the row's command. -/
theorem encode_command {m : Mnemonic} {w : Word} (h : w &&& m.format.mask = m.matchWord) : encode (m.command w) = w := by
  apply BitVec.eq_of_toNat_eq
  rw [encode_command_toNat, ← m.matchWord_toNat, ← h, and_mask_toNat, Nat.div_add_mod']

/-! ## The obligations about decoding -/

/-- Settles O1: `decode_encode` says it of each command, by the format of its row. -/
theorem decodeOfEncode : Obligations.DecodeOfEncode := decode_encode

/-- Settles O2: the word is a word of the row of its command. -/
theorem encodeOfDecode : Obligations.EncodeOfDecode := by
  intro w i h
  obtain ⟨m, hm, rfl⟩ := decode_eq_command_iff.mp h
  exact encode_command hm

/-- Settles O3, by the row of the opcode field. -/
theorem decodingFollowsTheMap : Obligations.DecodingFollowsTheMap := by
  intro w
  refine ⟨decode_of_no_opcode, fun m => ⟨fun hop hr => ?_, fun hop hr => ?_, ?_, fun hm => ?_⟩⟩
  · rw [decode_of_opcode hop, if_neg hr]
  · rw [decode_of_opcode hop, if_pos hr]
  · rintro ⟨i, hi, rfl⟩
    obtain ⟨m, hm, rfl⟩ := decode_eq_command_iff.mp hi
    rwa [Mnemonic.mnemonic_command]
  · exact ⟨m.command w, decode_eq_command_iff.mpr ⟨m, hm, rfl⟩, m.mnemonic_command w⟩

end Sys2Proof

/-!
# The assembler (O4, O5)
-/

namespace Sys2Proof.Machine

/-- The numbers of a line as the operand bits of its word (R103, R104): each is placed above the 32 bits of the next. -/
def operandNumber (ns : List Nat) : Nat := ns.foldl (fun v x => v * 2 ^ 32 + x) 0

/-- A format accepts as many numbers as it has operand fields, each in its field's range (R110). -/
theorem accepts_cases {f : Format} {ns : List Nat} (h : f.accepts ns = true) :
    f = .F0 ∧ ns = [] ∨ (∃ imm8, f = .FB ∧ ns = [imm8] ∧ imm8 < 2 ^ 8) ∨
    ∃ sym imm32, f = .FW ∧ ns = [sym, imm32] ∧ sym < 2 ^ 8 ∧ imm32 < 2 ^ 32 := by
  cases f with
  | F0 =>
    match ns, h with
    | [], _ => exact .inl ⟨rfl, rfl⟩
  | FB =>
    match ns, h with
    | [imm8], h => exact .inr (.inl ⟨imm8, rfl, rfl, of_decide_eq_true h⟩)
  | FW =>
    match ns, h with
    | [sym, imm32], h =>
      obtain ⟨hsym, himm⟩ := Bool.and_eq_true_iff.mp h
      exact .inr (.inr ⟨sym, imm32, rfl, rfl, of_decide_eq_true hsym, of_decide_eq_true himm⟩)

/-- Numbers that a format accepts stay within its operand bits. -/
theorem operandNumber_lt {f : Format} {ns : List Nat} (h : f.accepts ns = true) :
    operandNumber ns < 2 ^ f.operandWidth := by
  obtain ⟨rfl, rfl⟩ | ⟨imm8, rfl, rfl, h8⟩ | ⟨sym, imm32, rfl, rfl, hsym, himm⟩ := accepts_cases h
  · decide
  · simpa [operandNumber, Format.operandWidth] using h8
  · simp only [operandNumber, List.foldl_cons, List.foldl_nil, Format.operandWidth]
    omega

/-- A well-formed line is its row's command on the operand bits (R110). -/
theorem assemble_of_wellFormed {a : AsmLine} (h : a.wellFormed = true) :
    assemble a = some (a.mnemonic.command (BitVec.ofNat 64 (operandNumber a.operands))) := by
  rw [assemble, if_pos h]
  obtain ⟨hf, hns⟩ | ⟨imm8, hf, hns, -⟩ | ⟨sym, imm32, hf, hns, -⟩ := accepts_cases h <;> rw [hf, hns] <;>
    simp [operandNumber]

/-- Settles O5: a line's operand bits lie below the opcode field and are read back whole. -/
theorem assemblerNeverTruncates : Obligations.AssemblerNeverTruncates := by
  refine fun a => ⟨fun h => ?_, fun h => ⟨_, assemble_of_wellFormed h, Mnemonic.mnemonic_command _ _, ?_⟩⟩
  · rw [assemble, if_neg (by simp [h])]
  · have hlt : operandNumber a.operands < 2 ^ a.mnemonic.format.operandWidth := operandNumber_lt h
    have h64 : 2 ^ a.mnemonic.format.operandWidth ≤ 2 ^ 64 := by cases a.mnemonic.format <;> decide
    rw [encode_command_toNat, BitVec.toNat_ofNat, Nat.mod_eq_of_lt (hlt.trans_le h64), Nat.mod_eq_of_lt hlt]
    rfl

/-- Settles O4, by running the assembler and the decoder on the examples. -/
theorem encodingExamples : Obligations.EncodingExamples := by
  unfold Obligations.EncodingExamples
  decide +kernel

end Sys2Proof.Machine

/-!
# Illegal words (O8)
-/

namespace Sys2Proof.Machine

/-- Settles O8, by the sticky rule in front of the error. -/
theorem illegalWordRaises : Obligations.IllegalWordRaises := by
  refine ⟨rfl, fun w why s hd => ⟨fun he => ?_, fun he => ?_⟩⟩
  · rw [runWord_of_illegal hd, illegalWord, unlessSticky_clear he]
    rfl
  · rw [runWord_of_illegal hd, illegalWord, unlessSticky_sticky he]

end Sys2Proof.Machine

/-!
# The pseudo-commands that load a value (O6)
-/

namespace Sys2Proof.Machine

/-! ## Sequences of commands -/

theorem execAll_cons_of_next {i : Instr} {s t : State} (h : exec i s = .next t) (is : List Instr) :
    execAll (i :: is) s = execAll is t := by
  rw [execAll, h, andThen_next]

/-! ## `FREQ_SET` -/

theorem State.setFreq_setFreq (s : State) (a : Byte) (x v : Word) : (s.setFreq a x).setFreq a v = s.setFreq a v := by
  simp [State.setFreq]

theorem exec_freqSetLo {s : State} (he : s.err = .noError) (a : Byte) (lo : Half) :
    exec (.freqSetLo a lo) s = .next (s.setFreq a ((s.freqOf a).extractLsb' 32 32 ++ lo)) :=
  unlessSticky_clear he _

theorem exec_freqSetHi {s : State} (he : s.err = .noError) (a : Byte) (hi : Half) :
    exec (.freqSetHi a hi) s = .next (s.setFreq a (hi ++ (s.freqOf a).extractLsb' 0 32)) :=
  unlessSticky_clear he _

/-- The high half is written beside the low half just written, so the count is the two halves given (R142, R143). -/
theorem execAll_freqSetLo_freqSetHi {s : State} (he : s.err = .noError) (a : Byte) (lo hi : Half) :
    execAll [.freqSetLo a lo, .freqSetHi a hi] s = .next (s.setFreq a (hi ++ lo)) := by
  rw [execAll_cons_of_next (exec_freqSetLo he a lo), execAll_cons_of_next (exec_freqSetHi (by exact he) a hi),
    execAll, State.setFreq_setFreq, State.freqOf_setFreq, if_pos rfl, BitVec.extractLsb'_append_eq_right]

/-- `FREQ_SET` writes the low half of the value and then its high half (R111). -/
theorem expand_freqSet (a : Byte) (v : Word) : expand (.freqSet a.toNat v.toNat) =
    some [.freqSetLo a (v.extractLsb' 0 32), .freqSetHi a (v.extractLsb' 32 32)] := by
  have hwf : (Pseudo.freqSet a.toNat v.toNat).wellFormed = true := by simp [Pseudo.wellFormed, a.isLt, v.isLt]
  have hhi : v.toNat / 2 ^ 32 = v.toNat >>> 32 := (Nat.shiftRight_eq_div_pow ..).symm
  rw [expand, if_pos hwf, BitVec.ofNat_toNat, BitVec.setWidth_eq, hhi]
  rfl

/-! ## `COUNT_LOAD` -/

/-- `REMAIN` after `COUNT_SHIFT b` (R191). -/
def shiftCount (r : Count) (b : Byte) : Count := r <<< 8 ||| b.setWidth 48

theorem shiftCount_toNat (r : Count) (b : Byte) : (shiftCount r b).toNat = (r.toNat * 2 ^ 8 + b.toNat) % 2 ^ 48 := by
  have hb := b.isLt
  have hr : (r <<< 8).toNat = 2 ^ 8 * (r.toNat % 2 ^ 40) := by
    rw [BitVec.toNat_shiftLeft, Nat.shiftLeft_eq]
    omega
  have hbyte : (b.setWidth 48).toNat = b.toNat := BitVec.toNat_setWidth_of_le (by decide)
  rw [shiftCount, BitVec.toNat_or, hr, hbyte, ← Nat.two_pow_add_eq_or_of_lt hb]
  omega

theorem exec_unpackInit {s : State} (he : s.err = .noError) :
    exec .unpackInit s = .next { s with remain := 0, walk := s.root } :=
  unlessSticky_clear he _

theorem exec_countShift {s : State} (he : s.err = .noError) (b : Byte) :
    exec (.countShift b) s = .next { s with remain := shiftCount s.remain b } :=
  unlessSticky_clear he _

theorem execAll_countShift {s : State} (he : s.err = .noError) (bs : List Byte) :
    execAll (bs.map .countShift) s = .next { s with remain := bs.foldl shiftCount s.remain } := by
  induction bs generalizing s with
  | nil => rfl
  | cons b bs ih => exact (execAll_cons_of_next (exec_countShift he b) _).trans (ih he)

/-- Six shifts load the six bytes of a count, whatever stood in the register. -/
theorem foldl_shiftCount_bigEndian48 (r c : Count) : (bigEndian48 c.toNat).foldl shiftCount r = c := by
  have hc := c.isLt
  apply BitVec.eq_of_toNat_eq
  simp only [bigEndian48, List.map_cons, List.map_nil, List.foldl_cons, List.foldl_nil, shiftCount_toNat,
    BitVec.toNat_ofNat]
  omega

/-- `COUNT_LOAD` starts a pass and shifts the six bytes of the count in (R111). -/
theorem expand_countLoad (c : Count) :
    expand (.countLoad c.toNat) = some (.unpackInit :: (bigEndian48 c.toNat).map .countShift) := by
  have hwf : (Pseudo.countLoad c.toNat).wellFormed = true := decide_eq_true c.isLt
  rw [expand, if_pos hwf]

theorem execAll_countLoad {s : State} (he : s.err = .noError) (c : Count) :
    execAll (.unpackInit :: (bigEndian48 c.toNat).map .countShift) s = .next { s with remain := c, walk := s.root } := by
  rw [execAll_cons_of_next (exec_unpackInit he), execAll_countShift (by exact he), foldl_shiftCount_bigEndian48]

/-- Settles O6: `FREQ_SET` ends in one write of the whole count, and `COUNT_LOAD` in one of `REMAIN` and `WALK`. -/
theorem pseudoCommandsLoadWholeValues : Obligations.PseudoCommandsLoadWholeValues := by
  refine fun s he => ⟨fun a v => ?_, fun c => ⟨_, expand_countLoad c, execAll_countLoad he c⟩⟩
  refine ⟨_, s.setFreq a v, expand_freqSet a v, ?_, rfl, fun b => ?_⟩
  · rw [execAll_freqSetLo_freqSetHi he, BitVec.extractLsb'_append_extractLsb']
  · rw [State.freqOf_setFreq]
    simp only [eq_comm]

end Sys2Proof.Machine

/-!
# The control commands (O13, O14)
-/

namespace Sys2Proof.Machine

/-- The word that encodes a command is decoded to it, so encoding alone fixes a command's word (R110). -/
theorem isWordOf_of_encode_eq {w : Word} {i : Instr} (h : encode i = w) : IsWordOf w i :=
  ⟨h, h ▸ decode_encode i⟩

/-! ## `RESET` and the reset input -/

@[simp] theorem State.freqOf_applyReset (s : State) (a : Byte) : s.applyReset.freqOf a = 0 := by
  rw [State.freqOf]
  exact Vector.getElem_replicate _

@[simp] theorem State.codeOf_applyReset (s : State) (a : Byte) : s.applyReset.codeOf a = CodeEntry.cleared := by
  rw [State.codeOf]
  exact Vector.getElem_replicate _

/-- A reset gives every component its value of R56, from every state. -/
theorem resetValues_applyReset (s : State) : ResetValues s.applyReset where
  freq := s.freqOf_applyReset
  arena := rfl
  tree := ⟨rfl, rfl, rfl⟩
  heap := rfl
  code a := by
    rw [s.codeOf_applyReset a]
    exact ⟨rfl, rfl, rfl⟩
  ctvalid := rfl
  packer := ⟨rfl, rfl⟩
  unpacker := ⟨rfl, rfl⟩
  parser := ⟨rfl, rfl, rfl⟩
  error := ⟨rfl, rfl, rfl⟩
  outcnt := rfl

/-- Of the block before it, a reset keeps `OUT` alone (R271). -/
theorem sameBlock_applyReset {s t : State} (h : t.out = s.out) : SameBlock s.applyReset t.applyReset := by
  simp [SameBlock, h]

/-- Settles O13: the command and the reset input apply one reset, and taking the action off the queue keeps `OUT`. -/
theorem resetLeavesTheResetValues : Obligations.ResetLeavesTheResetValues := by
  refine ⟨isWordOf_of_encode_eq (by decide), fun s rest => ⟨s.applyReset, (s.take rest).applyReset, ?_⟩⟩
  exact ⟨rfl, resetValues_applyReset s, rfl, rfl, resetValues_applyReset _, rfl, sameBlock_applyReset rfl⟩

/-! ## `NOP` and `CLRERR` -/

@[simp] theorem State.irq_clearError (s : State) : s.clearError.irq = false := rfl

/-- With no error recorded there is nothing to clear (R132). -/
theorem State.clearError_of_noError {s : State} (he : s.err = .noError) (hop : s.errop = 0) : s.clearError = s := by
  rw [State.clearError, ← he, ← hop]

/-- Settles O14: neither command stands behind the sticky rule, and `CLRERR` writes the two error registers. -/
theorem nopAndErrorAcknowledge : Obligations.NopAndErrorAcknowledge := by
  refine ⟨isWordOf_of_encode_eq (by decide), isWordOf_of_encode_eq (by decide), fun s => ⟨rfl, ?_⟩⟩
  exact ⟨s.clearError, rfl, rfl, s.irq_clearError, State.clearError_of_noError⟩

end Sys2Proof.Machine

/-!
# The frequency table (O17 to O21)
-/

namespace Sys2Proof.Machine

/-- A row's match value joined with a command's operand bits is the command's word (R103, R104, R110). -/
theorem isWordOf_of_operandBits {m : Mnemonic} {i : Instr} {w x : Word} (hm : m.matchWord = w) (hi : i.mnemonic = m)
    (hx : i.operandBits = x) : IsWordOf (w ||| x) i :=
  isWordOf_of_encode_eq (by rw [encode, hi, hm, hx])

/-! ## `FREQ_CLEAR` and `FREQ_INC` -/

theorem exec_freqClear {s : State} (he : s.err = .noError) :
    exec .freqClear s = .next { s with freq := Vector.replicate 256 0 } :=
  unlessSticky_clear he _

/-- Below 2^64 − 1 an occurrence is counted (R141). -/
theorem exec_freqInc_of_lt {s : State} (he : s.err = .noError) {a : Byte} (h : (s.freqOf a).toNat < 2 ^ 64 - 1) :
    exec (.freqInc a) s = .next (s.setFreq a (s.freqOf a + 1)) :=
  (unlessSticky_clear he _).trans (if_neg h.ne)

/-- At 2^64 − 1 it is reported, and the count stays (R141). -/
theorem exec_freqInc_of_max {s : State} (he : s.err = .noError) {a : Byte} (h : (s.freqOf a).toNat = 2 ^ 64 - 1) :
    exec (.freqInc a) s = .next { s with err := .freqOvf, errop := 0x11 } :=
  (unlessSticky_clear he _).trans (if_pos h)

theorem toNat_freqOf_add_one {s : State} {a : Byte} (h : (s.freqOf a).toNat < 2 ^ 64 - 1) :
    (s.freqOf a + 1).toNat = (s.freqOf a).toNat + 1 :=
  BitVec.toNat_add_of_lt (show (s.freqOf a).toNat + 1 < 2 ^ 64 by omega)

/-- A command that ends in one write of a count changes that count and nothing else. -/
theorem exec_setFreq_frame {i : Instr} {s : State} {a : Byte} {v : Word} {n : Nat}
    (h : exec i s = .next (s.setFreq a v)) (hv : v.toNat = n) :
    ∃ t, exec i s = .next t ∧ t = { s with freq := t.freq } ∧ (t.freqOf a).toNat = n ∧
      ∀ b, b ≠ a → t.freqOf b = s.freqOf b := by
  refine ⟨s.setFreq a v, h, rfl, ?_, fun b hb => ?_⟩
  · rw [State.freqOf_setFreq, if_pos rfl, hv]
  · rw [State.freqOf_setFreq, if_neg hb.symm]

/-- Settles O17: `FREQ_CLEAR` writes the table alone, with a zero at every symbol. -/
theorem freqClearZeroesCounts : Obligations.FreqClearZeroesCounts :=
  ⟨isWordOf_of_encode_eq (by decide), fun _ he => ⟨_, exec_freqClear he, rfl, fun _ => Vector.getElem_replicate _⟩⟩

/-- Settles O18: below the bound `FREQ_INC` is one write of the next count, which does not wrap; at the bound it is an
error. -/
theorem freqIncCountsOneOccurrence : Obligations.FreqIncCountsOneOccurrence := by
  refine fun a s => ⟨isWordOf_of_operandBits (m := .FREQ_INC) (by decide) rfl rfl, fun he => ⟨fun h => ?_, ?_⟩⟩
  · exact exec_setFreq_frame (exec_freqInc_of_lt he h) (toNat_freqOf_add_one h)
  · exact exec_freqInc_of_max he

/-! ## `FREQ_SET_LO` and `FREQ_SET_HI` -/

/-- Two halves side by side, as a number. -/
theorem toNat_append_half (hi lo : Half) : (hi ++ lo).toNat = hi.toNat * 2 ^ 32 + lo.toNat := by
  rw [BitVec.toNat_append, ← Nat.shiftLeft_add_eq_or_of_lt lo.isLt, Nat.shiftLeft_eq]

theorem toNat_highHalf (w : Word) : (w.extractLsb' 32 32).toNat = w.toNat / 2 ^ 32 := by
  have hw := w.isLt
  rw [BitVec.extractLsb'_toNat, Nat.shiftRight_eq_div_pow]
  omega

/-- Settles O19: each command writes a count made of the given half and the half that stood there. -/
theorem freqSetWritesOneHalf : Obligations.FreqSetWritesOneHalf := by
  refine fun a v s => ⟨isWordOf_of_operandBits (m := .FREQ_SET_LO) (by decide) rfl rfl,
    isWordOf_of_operandBits (m := .FREQ_SET_HI) (by decide) rfl rfl, fun he => ⟨?_, ?_⟩⟩
  · exact exec_setFreq_frame (exec_freqSetLo he a v) (by rw [toNat_append_half, toNat_highHalf])
  · exact exec_setFreq_frame (exec_freqSetHi he a v) (by rw [toNat_append_half, ← imm32Field_toNat]; rfl)

/-! ## A pass over the input (R144) -/

/-- Once an error is recorded, the rest of the pass is ignored (R246). -/
theorem execAll_freqInc_sticky {s : State} (he : s.err ≠ .noError) (x : List Byte) :
    execAll (x.map .freqInc) s = .next s := by
  induction x with
  | nil => rfl
  | cons b x ih => exact (execAll_cons_of_next (i := .freqInc b) (unlessSticky_sticky he _) _).trans ih

/-- A pass adds its occurrences to the counts, unless it records an error; and it records none while the sums stay below
2^64. -/
theorem execAll_freqInc {s : State} (he : s.err = .noError) (x : List Byte) :
    ∃ t, execAll (x.map .freqInc) s = .next t ∧
      (t.err = .noError → ∀ a, (t.freqOf a).toNat = (s.freqOf a).toNat + x.count a) ∧
      ((∀ a, (s.freqOf a).toNat + x.count a < 2 ^ 64) → t.err = .noError) := by
  induction x generalizing s with
  | nil => exact ⟨s, rfl, fun _ _ => rfl, fun _ => he⟩
  | cons b x ih =>
    by_cases hmax : (s.freqOf b).toNat = 2 ^ 64 - 1
    · have hovf : ErrCode.freqOvf ≠ .noError := nofun
      refine ⟨_, (execAll_cons_of_next (exec_freqInc_of_max he hmax) _).trans (execAll_freqInc_sticky hovf x),
        fun h => absurd h hovf, fun hfit => ?_⟩
      have hb := hfit b
      rw [List.count_cons_self] at hb
      omega
    · have hlt : (s.freqOf b).toNat < 2 ^ 64 - 1 := by have := (s.freqOf b).isLt; omega
      have hcount : ∀ a, ((s.setFreq b (s.freqOf b + 1)).freqOf a).toNat + x.count a =
          (s.freqOf a).toNat + (b :: x).count a := by
        intro a
        rw [State.freqOf_setFreq]
        by_cases hab : b = a
        · subst hab
          rw [if_pos rfl, toNat_freqOf_add_one hlt, List.count_cons_self]
          omega
        · rw [if_neg hab, List.count_cons_of_ne hab]
      obtain ⟨t, ht, hsum, hfit⟩ := ih (s := s.setFreq b (s.freqOf b + 1)) he
      simp only [hcount] at hsum hfit
      exact ⟨t, (execAll_cons_of_next (exec_freqInc_of_lt he hlt) _).trans ht, hsum, hfit⟩

/-- `FREQ_CLEAR` and `RESET` both leave every count 0 and no error. -/
theorem exec_clear_or_reset {s : State} {c : Instr} (he : s.err = .noError) (hc : c = .freqClear ∨ c = .reset) :
    ∃ u, exec c s = .next u ∧ u.err = .noError ∧ ∀ a, (u.freqOf a).toNat = 0 := by
  rcases hc with rfl | rfl
  · exact ⟨_, exec_freqClear he, he, fun _ => congrArg BitVec.toNat (Vector.getElem_replicate _)⟩
  · exact ⟨s.applyReset, rfl, rfl, fun a => congrArg BitVec.toNat (s.freqOf_applyReset a)⟩

/-- Settles O20: the pass starts from counts of 0, and no byte occurs more often than the input is long. -/
theorem frequencyPassCountsInput : Obligations.FrequencyPassCountsInput := by
  intro x s c he hc
  obtain ⟨u, hu, heu, hzero⟩ := exec_clear_or_reset he hc
  obtain ⟨t, ht, hsum, hfit⟩ := execAll_freqInc heu x
  simp only [hzero, Nat.zero_add] at hsum hfit
  exact ⟨t, (execAll_cons_of_next hu _).trans ht, hsum, fun hx => hfit fun _ => List.count_le_length.trans_lt hx⟩

/-! ## Commands that do not read the counts (R145) -/

/-- The state with another frequency table. -/
def State.withFreq (s : State) (f : Vector Word 256) : State := { s with freq := f }

/-- Overwrite the frequency table. A command that neither reads nor writes it may run before this or after it. -/
def putFreq (f : Vector Word 256) (s : State) : Result := .next (s.withFreq f)

section
variable {s : State} {f : Vector Word 256}

theorem unlessSticky_withFreq {r r' : Result} (h : r' = andThen r (putFreq f)) :
    unlessSticky (s.withFreq f) r' = andThen (unlessSticky s r) (putFreq f) := by
  by_cases he : s.err = .noError
  · rw [unlessSticky_clear he, unlessSticky_clear (s := s.withFreq f) he, h]
  · rw [unlessSticky_sticky he, unlessSticky_sticky (s := s.withFreq f) he, andThen_next, putFreq]

theorem ite_andThen_putFreq {c : Prop} [Decidable c] {a b a' b' : Result} (ha : a' = andThen a (putFreq f))
    (hb : b' = andThen b (putFreq f)) : (if c then a' else b') = andThen (if c then a else b) (putFreq f) := by
  rw [ha, hb, apply_ite (andThen · (putFreq f))]

theorem next_andThen_putFreq {t t' : State} (h : t' = t.withFreq f) :
    (.next t' : Result) = andThen (.next t) (putFreq f) := congrArg _ h

end

section
variable (s : State) (f : Vector Word 256)

@[simp] theorem State.withFreq_heap : (s.withFreq f).heap = s.heap := rfl
@[simp] theorem State.withFreq_dsState : (s.withFreq f).dsState = s.dsState := rfl
@[simp] theorem State.withFreq_dsStk : (s.withFreq f).dsStk = s.dsStk := rfl
@[simp] theorem State.withFreq_key : (s.withFreq f).key = s.key := rfl
@[simp] theorem State.withFreq_nextIdx : (s.withFreq f).nextIdx = s.nextIdx := rfl
@[simp] theorem State.withFreq_codes : (s.withFreq f).codes = s.codes := rfl
@[simp] theorem State.withFreq_serialized : (s.withFreq f).serialized = s.serialized := rfl

theorem emitAll_withFreq (bs : List Byte) : (s.withFreq f).emitAll bs = (s.emitAll bs).withFreq f :=
  List.foldl_hom (State.withFreq · f) fun _ _ => rfl

theorem packBits_withFreq (bits : Bits) : (s.withFreq f).packBits bits = (s.packBits bits).withFreq f :=
  List.foldl_hom (State.withFreq · f) fun u c => by
    rw [State.packBit, State.packBit, apply_ite (State.withFreq · f)]
    rfl

theorem walkBits_withFreq (bits : Bits) : (s.withFreq f).walkBits bits = (s.walkBits bits).withFreq f :=
  List.foldl_hom (State.withFreq · f) fun u c => by
    rw [State.walkBit, State.walkBit, apply_ite (State.withFreq · f), apply_ite (State.withFreq · f)]
    rfl

theorem fillCodes_withFreq (c : List (Byte × Bits)) : (s.withFreq f).fillCodes c = (s.fillCodes c).withFreq f := by
  have h : c.foldl State.recordCode (s.clearCodes.withFreq f) = (c.foldl State.recordCode s.clearCodes).withFreq f :=
    List.foldl_hom (State.withFreq · f) fun _ _ => rfl
  exact congrArg (fun u => { u with ctvalid := true }) h

theorem finishTree_withFreq : (s.withFreq f).finishTree = s.finishTree.withFreq f := by
  by_cases h : s.hsize = 1
  · obtain ⟨r, hr⟩ := List.length_eq_one_iff.mp h
    rw [finishTree_one hr, finishTree_one (s := s.withFreq f) hr]
    rfl
  · rw [finishTree_spec s h, finishTree_spec (s.withFreq f) h]

theorem merge_withFreq : (s.withFreq f).merge = andThen s.merge (putFreq f) := by
  unfold State.merge
  rw [State.withFreq_key, State.withFreq_heap]
  cases heapPop s.key s.heap with
  | none => rfl
  | some top =>
    dsimp only
    cases heapPop s.key top.2 with
    | none => rfl
    | some second =>
      exact ite_andThen_putFreq rfl (next_andThen_putFreq (finishTree_withFreq (s.joined top.1 second.1 second.2) f))

theorem takeSymbol_withFreq (b : Byte) : (s.withFreq f).takeSymbol b = (s.takeSymbol b).withFreq f := by
  unfold State.takeSymbol
  rw [State.withFreq_dsStk]
  split <;> rfl

theorem attach_withFreq (n : NodeIdx) : (s.withFreq f).attach n = (s.attach n).withFreq f := by
  unfold State.attach
  rw [State.withFreq_dsStk]
  split <;> rfl

theorem takeMarker_withFreq (b : Byte) : (s.withFreq f).takeMarker b = andThen (s.takeMarker b) (putFreq f) := by
  have h : ((s.withFreq f).alloc (Node.ofMarker b)).attach s.nextIdx =
      ((s.alloc (Node.ofMarker b)).attach s.nextIdx).withFreq f := attach_withFreq (s.alloc (Node.ofMarker b)) f s.nextIdx
  simp only [State.takeMarker, State.withFreq_nextIdx, h]
  exact ite_andThen_putFreq rfl (ite_andThen_putFreq rfl rfl)

/-! ### The commands -/

theorem execTreeMerge_withFreq : execTreeMerge (s.withFreq f) = andThen (execTreeMerge s) (putFreq f) :=
  unlessSticky_withFreq (ite_andThen_putFreq rfl (merge_withFreq s f))

theorem execCodeBuild_withFreq : execCodeBuild (s.withFreq f) = andThen (execCodeBuild s) (putFreq f) :=
  unlessSticky_withFreq <| ite_andThen_putFreq rfl <| by
    rw [State.withFreq_codes]
    cases s.codes with
    | none => rfl
    | some c => exact ite_andThen_putFreq rfl (next_andThen_putFreq (fillCodes_withFreq s f c))

theorem execPackSym_withFreq (a : Byte) : execPackSym a (s.withFreq f) = andThen (execPackSym a s) (putFreq f) :=
  unlessSticky_withFreq <| ite_andThen_putFreq rfl <| ite_andThen_putFreq rfl <|
    next_andThen_putFreq (packBits_withFreq s f _)

theorem execUnpackByte_withFreq (b : Byte) :
    execUnpackByte b (s.withFreq f) = andThen (execUnpackByte b s) (putFreq f) :=
  unlessSticky_withFreq <| ite_andThen_putFreq rfl <| ite_andThen_putFreq rfl <|
    next_andThen_putFreq (walkBits_withFreq s f _)

theorem execUnpackSym_withFreq : execUnpackSym (s.withFreq f) = andThen (execUnpackSym s) (putFreq f) :=
  unlessSticky_withFreq <| ite_andThen_putFreq rfl <| ite_andThen_putFreq rfl <| ite_andThen_putFreq rfl rfl

theorem execTreeSer_withFreq : execTreeSer (s.withFreq f) = andThen (execTreeSer s) (putFreq f) :=
  unlessSticky_withFreq <| ite_andThen_putFreq rfl <| by
    rw [State.withFreq_serialized]
    cases s.serialized with
    | none => rfl
    | some bs => exact next_andThen_putFreq (emitAll_withFreq s f bs)

theorem execDeserByte_withFreq (b : Byte) :
    execDeserByte b (s.withFreq f) = andThen (execDeserByte b s) (putFreq f) :=
  unlessSticky_withFreq <| by
    rw [State.withFreq_dsState]
    cases s.dsState with
    | idle | done => rfl
    | sym => exact next_andThen_putFreq (takeSymbol_withFreq s f b)
    | marker => exact ite_andThen_putFreq rfl (ite_andThen_putFreq rfl (takeMarker_withFreq s f b))

theorem execDeserEnd_withFreq : execDeserEnd (s.withFreq f) = andThen (execDeserEnd s) (putFreq f) :=
  unlessSticky_withFreq <| by
    rw [State.withFreq_dsState]
    cases s.dsState <;> rfl

theorem execCountEmit_withFreq : execCountEmit (s.withFreq f) = andThen (execCountEmit s) (putFreq f) :=
  unlessSticky_withFreq <| ite_andThen_putFreq rfl <| ite_andThen_putFreq rfl <|
    next_andThen_putFreq (emitAll_withFreq s f _)

end

/-- Settles O21: a command of the table writes the table or raises an error; every other one but `RESET` and the two that
seed commutes with overwriting the table. -/
theorem frequenciesReachTheTreeOnlyBySeeding : Obligations.FrequenciesReachTheTreeOnlyBySeeding := by
  refine ⟨fun i s t hi h => ?_, fun i s t f hseed hbuild hreset hclear hinc hlo hhi h => ?_⟩
  · have hwrote : Wrote i s t → t = { s with freq := t.freq } := by
      rcases hi with rfl | ⟨a, rfl⟩ | ⟨a, v, rfl⟩ | ⟨a, v, rfl⟩ <;> exact id
    rcases exec_cases h with ⟨-, -, rfl⟩ | ⟨-, c, -, rfl⟩ | ⟨-, hw⟩
    · rfl
    · rfl
    · rw [hwrote hw]
  · suffices hcomm : exec i (s.withFreq f) = andThen (exec i s) (putFreq f) from
      hcomm.trans (congrArg (andThen · (putFreq f)) h)
    cases i with
    | treeSeed => exact absurd rfl hseed
    | treeBuild => exact absurd rfl hbuild
    | reset => exact absurd rfl hreset
    | freqClear => exact absurd rfl hclear
    | freqInc a => exact absurd rfl (hinc a)
    | freqSetLo a v => exact absurd rfl (hlo a v)
    | freqSetHi a v => exact absurd rfl (hhi a v)
    | nop | clrerr => rfl
    | unpackInit | countShift | deserStart | emitByte => exact unlessSticky_withFreq rfl
    | packFlush | unpackEnd => exact unlessSticky_withFreq (ite_andThen_putFreq rfl rfl)
    | treeMerge => exact execTreeMerge_withFreq s f
    | codeBuild => exact execCodeBuild_withFreq s f
    | packSym a => exact execPackSym_withFreq s f a
    | unpackByte b => exact execUnpackByte_withFreq s f b
    | unpackSym => exact execUnpackSym_withFreq s f
    | treeSer => exact execTreeSer_withFreq s f
    | deserByte b => exact execDeserByte_withFreq s f b
    | deserEnd => exact execDeserEnd_withFreq s f
    | countEmit => exact execCountEmit_withFreq s f

end Sys2Proof.Machine

/-!
# The heap primitives (O22)
-/

namespace Sys2Proof.Machine

/-- Settles O22: each loop puts a heap in order again that is out of order at one slot, and only moves entries. -/
theorem heapPropertyIsKept : Obligations.HeapPropertyIsKept := by
  refine fun key h ho => ⟨fun n => ⟨heapPush_ordered n ho, heapPush_perm h n⟩, fun hne => ?_⟩
  obtain ⟨⟨r, h'⟩, e⟩ := Option.ne_none_iff_exists'.mp (mt heapPop_eq_none.mp hne)
  obtain ⟨-, hperm, -⟩ := heapPop_spec e
  obtain ⟨ho', hmin⟩ := heapPop_ordered ho e
  exact ⟨r, h', e, ho', hperm.symm, hmin⟩

end Sys2Proof.Machine

/-!
# Which commands raise which errors (O16)
-/

namespace Sys2Proof.Machine

/-- What a command writes without an error leaves no error recorded. -/
theorem Wrote.err_eq {i : Instr} {s t : State} (h : Wrote i s t) (hs : s.err = .noError) : t.err = .noError := by
  cases i with
  | reset | clrerr => rw [h]; rfl
  | packSym | packFlush | unpackByte | unpackSym | treeSer | emitByte | countEmit => rw [h.2]; exact hs
  | nop | freqClear | freqInc | freqSetLo | freqSetHi | treeSeed | treeMerge | treeBuild | codeBuild
  | unpackInit | countShift | unpackEnd | deserStart | deserByte | deserEnd => rw [h]; exact hs

/-- Settles O16: a command that answers with an error raised one of its own. -/
theorem errorsComeFromTheirCommands : Obligations.ErrorsComeFromTheirCommands := by
  refine ⟨by decide, fun i s t hs h => ?_⟩
  rcases exec_cases h with ⟨he, -⟩ | ⟨-, c, hc, rfl⟩ | ⟨-, hw⟩
  · exact absurd hs he
  · cases i with
    | nop | reset | clrerr | freqClear | freqSetLo | freqSetHi => exact hc.elim
    | packFlush | unpackInit | countShift | deserStart | emitByte => exact hc.elim
    | freqInc | treeMerge | unpackByte | unpackSym | unpackEnd | treeSer => cases hc; simp
    | treeSeed | treeBuild | codeBuild | packSym | deserByte | deserEnd | countEmit => rcases hc with rfl | rfl <;> simp
  · rw [hw.err_eq hs]
    trivial

end Sys2Proof.Machine

/-!
# The checks of a seed (R155)
-/

namespace Sys2Proof.Machine

theorem presentSymbols_eq_nil {s : State} : s.presentSymbols = [] ↔ ∀ a, s.freqOf a = 0 := by
  simp [State.presentSymbols, List.filter_eq_nil_iff]

/-- The checks that can fail: `ALPHABET` cannot occur (R155). -/
theorem seedError_eq (s : State) : s.seedError =
    if s.presentSymbols = [] then some .empty else if 2 ^ 64 ≤ s.freqTotal then some .weightOvf else none := by
  have hcap : ¬ s.presentSymbols.length > heapCap := (presentSymbols_length s).not_gt
  have htotal : s.freqTotal > 2 ^ 64 - 1 ↔ 2 ^ 64 ≤ s.freqTotal := by omega
  simp only [State.seedError, List.length_eq_zero_iff, if_neg hcap, htotal]

theorem seedError_of_zero {s : State} (h : ∀ a, s.freqOf a = 0) : s.seedError = some .empty := by
  rw [seedError_eq, if_pos (presentSymbols_eq_nil.mpr h)]

theorem seedError_of_overflow {s : State} (h : 2 ^ 64 ≤ s.freqTotal) : s.seedError = some .weightOvf := by
  have hne : s.presentSymbols ≠ [] := fun e => by
    rw [← freqTotal_eq_present, e, List.map_nil, List.sum_nil] at h
    exact absurd h (by decide)
  rw [seedError_eq, if_neg hne, if_pos h]

theorem seedError_of_fits {s : State} (hex : ∃ a, s.freqOf a ≠ 0) (h : s.freqTotal < 2 ^ 64) : s.seedError = none := by
  obtain ⟨a, ha⟩ := hex
  rw [seedError_eq, if_neg fun e => ha (presentSymbols_eq_nil.mp e a), if_neg (by omega)]

/-- A failed check is the error of the command, with its own opcode (R155, R157). -/
theorem exec_of_seedError {i : Instr} {s : State} {c : ErrCode} (hi : i = .treeSeed ∨ i = .treeBuild)
    (he : s.err = .noError) (hc : s.seedError = some c) : exec i s = .next { s with err := c, errop := i.opcode } := by
  rcases hi with rfl | rfl <;> exact (unlessSticky_clear he _).trans (by rw [hc]; rfl)

theorem exec_treeSeed {s : State} (he : s.err = .noError) (hc : s.seedError = none) :
    exec .treeSeed s = .next s.seed :=
  (unlessSticky_clear he _).trans (by rw [hc])

theorem exec_treeBuild {s : State} (he : s.err = .noError) (hc : s.seedError = none) :
    exec .treeBuild s = mergeAll s.seed.hsize s.seed :=
  (unlessSticky_clear he _).trans (by rw [hc])

end Sys2Proof.Machine

/-!
# What a seed leaves (O24)
-/

namespace Sys2Proof.Machine

/-- The weight of leaf `i` when the symbols `l` become the leaves 0, 1, … (R153). -/
def State.leafKey (s : State) (l : List Byte) (i : NodeIdx) : Nat := (s.freqOf (l.getD i.toNat 0)).toNat

/-- Further symbols leave the weights of the leaves before them alone. -/
theorem leafKey_append {s : State} {pre : List Byte} {i : NodeIdx} (l : List Byte) (hi : i.toNat < pre.length) :
    s.leafKey (pre ++ l) i = s.leafKey pre i := by
  rw [State.leafKey, State.leafKey, List.getD_append _ _ _ _ hi]

theorem Seeded.key_eq {s0 s : State} {pre : List Byte} (h : Seeded s0 pre s) {i : NodeIdx} (hi : i.toNat < pre.length) :
    s.key i = s0.leafKey pre i := by
  have hn : s.nodes[i.toNat]? = some (Node.mkLeaf pre[i.toNat] (s0.freqOf pre[i.toNat])) := by
    rw [h.nodes, List.getElem?_map, List.getElem?_eq_getElem hi]
    rfl
  rw [State.key, State.weight, State.node_of_getElem? hn, State.leafKey, List.getD_eq_getElem _ _ hi]
  rfl

theorem Seeded.ncount_eq {s0 s : State} {pre : List Byte} (h : Seeded s0 pre s) : s.ncount = pre.length := by
  rw [State.ncount, h.nodes, List.length_map]

/-- One pass of the seeding loop pushes the new leaf, by the weights that the leaves keep to the end. -/
theorem Seeded.seedLeaf_heap {s0 s : State} {pre : List Byte} (h : Seeded s0 pre s) (a : Byte) (l : List Byte)
    (hl : pre.length < 511) : (s.seedLeaf a).heap = heapPush (s0.leafKey (pre ++ a :: l)) s.heap s.nextIdx := by
  have hkey : ∀ i : NodeIdx, i.toNat < pre.length + 1 →
      (s.seedLeaf a).key i = s0.leafKey (pre ++ a :: l) i := fun i hi => by
    have hi' : i.toNat < (pre ++ [a]).length := by simpa using hi
    rw [(h.step a hl).key_eq hi', ← leafKey_append l hi', List.append_assoc, List.singleton_append]
  refine heapPush_congr (hkey _ ?_) fun i hi => hkey i ?_
  · rw [State.nextIdx_toNat (by rw [h.ncount_eq]; omega), h.ncount_eq]
    omega
  · have := h.heap_live i hi
    rw [h.ncount_eq] at this
    omega

/-- The seeding loop pushes the leaves one after another (R153). -/
theorem Seeded.fold_heap {s0 s : State} {pre : List Byte} (l : List Byte) (h : Seeded s0 pre s)
    (hl : pre.length + l.length ≤ 511) : (l.foldl State.seedLeaf s).heap =
      ((List.range' pre.length l.length).map (BitVec.ofNat 9)).foldl (heapPush (s0.leafKey (pre ++ l))) s.heap := by
  induction l generalizing pre s with
  | nil => rfl
  | cons a l ih =>
    rw [List.length_cons] at hl
    have hpre : (pre ++ [a]).length = pre.length + 1 := by simp
    rw [List.foldl_cons, ih (h.step a (by omega)) (by omega), h.seedLeaf_heap a l (by omega), hpre,
      List.append_assoc, List.singleton_append, List.length_cons, List.range'_succ, List.map_cons, List.foldl_cons,
      State.nextIdx, h.ncount_eq]

/-- Everything that a seed writes (R155). -/
theorem seed_eq (s : State) : s.seed =
    { s with
      nodes := s.seedLeaves
      heap := ((List.range s.presentSymbols.length).map (BitVec.ofNat 9)).foldl
        (heapPush (s.leafKey s.presentSymbols)) []
      root := 0, tvalid := decide (s.presentSymbols.length = 1), torigin := .builder, walk := 0
      code := Vector.replicate 256 ⟨false, 0, 0⟩, ctvalid := false
      dsState := .idle, dsStk := [], dsCur := 0 } := by
  have hS := seeded_seed s
  have h0 : Seeded s [] s.invalidateTree := ⟨rfl, by simp, by simp [HeapOrdered], rfl⟩
  have hl := presentSymbols_length s
  have hheap := h0.fold_heap s.presentSymbols (by simp; omega)
  rw [List.nil_append, List.length_nil, ← List.range_eq_range'] at hheap
  rw [State.seed]
  generalize s.presentSymbols.foldl State.seedLeaf s.invalidateTree = u at hS hheap ⊢
  have hsize : u.hsize = s.presentSymbols.length := by simpa [State.hsize] using hS.heap.length_eq
  by_cases h1 : s.presentSymbols.length = 1
  · have hzero : u.heap = [0] := by rw [hheap, h1]; rfl
    rw [finishTree_one hzero, hS.rest, hS.nodes, hheap, decide_eq_true h1]
    rfl
  · rw [finishTree_spec u (by omega), hS.rest, hS.nodes, hheap, decide_eq_false h1]
    rfl

/-- Settles O24: the checks come first, and a seed that passes them is the loop of R155 over the symbols with a count. -/
theorem treeSeedMakesTheLeaves : Obligations.TreeSeedMakesTheLeaves := by
  refine ⟨isWordOf_of_encode_eq (by decide), fun s he => ⟨fun h => ?_, fun h => ?_, fun hex h => ?_⟩⟩
  · exact exec_of_seedError (.inl rfl) he (seedError_of_zero h)
  · exact exec_of_seedError (.inl rfl) he (seedError_of_overflow h)
  · rw [exec_treeSeed he (seedError_of_fits hex h), seed_eq]
    rfl

end Sys2Proof.Machine

/-!
# What a merge leaves (O25)
-/

namespace Sys2Proof.Machine

theorem exec_treeMerge_of_lt {s : State} (he : s.err = .noError) (h : s.hsize < 2) :
    exec .treeMerge s = .next { s with err := .state, errop := 0x21 } :=
  (unlessSticky_clear he _).trans (if_pos h)

theorem exec_treeMerge {s : State} (he : s.err = .noError) (h : 2 ≤ s.hsize) : exec .treeMerge s = s.merge :=
  (unlessSticky_clear he _).trans (if_neg h.not_gt)

theorem joined_hsize (s : State) (a b : NodeIdx) (h : List NodeIdx) : (s.joined a b h).hsize = h.length + 1 :=
  length_heapPush h s.nextIdx

/-- The last merge, which leaves the new node alone in the heap, completes the tree; an earlier one leaves the tree
registers as they are (R156). -/
theorem joined_finishTree (s : State) (a b : NodeIdx) (h : List NodeIdx) : (s.joined a b h).finishTree =
    { s.joined a b h with
      root := if h = [] then s.nextIdx else s.root
      walk := if h = [] then s.nextIdx else s.walk
      tvalid := decide (h = []) || s.tvalid
      torigin := if h = [] then .builder else s.torigin } := by
  by_cases hnil : h = []
  · subst hnil
    rw [finishTree_one (r := s.nextIdx) rfl]
    rfl
  · have hsize : (s.joined a b h).hsize ≠ 1 := by rw [joined_hsize]; simpa using hnil
    rw [finishTree_spec _ hsize]
    simp only [if_neg hnil, decide_eq_false hnil, Bool.false_or]
    rfl

/-- What the two pops of a merge find (R152, R154). -/
theorem Inv.merge_pops {s : State} (h : Inv s) {a b : NodeIdx} {h1 h2 : List NodeIdx}
    (e1 : heapPop s.key s.heap = some (a, h1)) (e2 : heapPop s.key h1 = some (b, h2)) (hn : s.ncount < nodeCap) :
    (s.weight a + s.weight b).toNat = (s.weight a).toNat + (s.weight b).toNat ∧ s.key a ≤ s.key b ∧
      ∀ m ∈ h2, s.key b ≤ s.key m := by
  have hmerge := merge_eq_next_iff.mpr ⟨a, b, h1, h2, e1, e2, hn, rfl⟩
  obtain ⟨a', b', rest, w, hperm, hab, hb, hw, hnodes, -⟩ := h.merge_joins hmerge
  have hnode : Node.mkInternal (s.weight a + s.weight b) a b = Node.mkInternal w a' b' := by
    have := (finishTree_keep (s.joined a b h2)).2.1.symm.trans hnodes
    simpa [State.joined] using this
  obtain ⟨-, -, rfl, rfl, rfl⟩ := Node.mk.inj hnode
  obtain ⟨-, p1, -⟩ := heapPop_spec e1
  obtain ⟨-, p2, -⟩ := heapPop_spec e2
  have hrest : h2.Perm rest := ((p2.cons a).trans p1 |>.trans hperm).cons_inv.cons_inv
  exact ⟨hw, hab, fun m hm => hb m (hrest.mem_iff.mp hm)⟩

/-- Settles O25: with two entries in the heap the pops and the allocation of `merge` succeed, and the tree registers change
with the last merge alone. -/
theorem treeMergeJoinsTheTwoLightest : Obligations.TreeMergeJoinsTheTwoLightest := by
  refine ⟨isWordOf_of_encode_eq (by decide), fun s he => ⟨exec_treeMerge_of_lt he, fun h hsize => ?_⟩⟩
  obtain ⟨t, ht, -, hless, -⟩ := h.merge hsize
  obtain ⟨a, b, h1, h2, e1, e2, hn, rfl⟩ := merge_eq_next_iff.mp ht
  obtain ⟨hsum, hab, hb⟩ := h.merge_pops e1 e2 hn
  have hlast : h2 = [] ↔ s.hsize = 2 := by
    rw [← List.length_eq_zero_iff, ← hless, State.hsize, (finishTree_keep _).1]
    have := joined_hsize s a b h2
    rw [State.hsize] at this
    omega
  have hv : s.tvalid = false := Bool.eq_false_iff.mpr fun hv => by
    have := (h.builder (h.idle_of_hsize (by omega))).oneRoot.mp hv
    omega
  refine ⟨a, b, h1, h2, _, e1, e2, (exec_treeMerge he hsize).trans ht, ?_, hsum, hless, Nat.le_of_lt_succ hn, hab, hb⟩
  rw [finishTree_key, joined_finishTree]
  simp only [hlast, hv, Bool.or_false, (h.noTree hv).2.1, ite_self]
  rfl

end Sys2Proof.Machine

/-!
# A build is a seed and its merges (O26, O23)
-/

namespace Sys2Proof.Machine

theorem TreeFrame.err_eq {s t : State} (h : TreeFrame s t) : t.err = s.err := by
  rw [h]

theorem seed_err (s : State) : s.seed.err = s.err := (seed_frame s).err_eq

theorem seed_hsize (s : State) : s.seed.hsize = s.presentSymbols.length := by
  have hS := seeded_seed s
  rw [State.seed, State.hsize, (finishTree_keep _).1]
  simpa using hS.heap.length_eq

theorem merge_hsize {s t : State} (h : s.merge = .next t) : t.hsize + 1 = s.hsize := by
  obtain ⟨a, b, h1, h2, e1, e2, -, rfl⟩ := merge_eq_next_iff.mp h
  obtain ⟨-, -, l1⟩ := heapPop_spec e1
  obtain ⟨-, -, l2⟩ := heapPop_spec e2
  have hjoined := joined_hsize s a b h2
  simp only [State.hsize, (finishTree_keep _).1] at hjoined ⊢
  omega

/-- From any state the merge loop does what `HSIZE − 1` times `TREE_MERGE` do (R157). -/
theorem mergeAll_eq_execAll {fuel : Nat} {s : State} (he : s.err = .noError) (hf : s.hsize ≤ fuel + 1) :
    mergeAll fuel s = execAll (List.replicate (s.hsize - 1) .treeMerge) s := by
  induction fuel generalizing s with
  | zero => rw [Nat.sub_eq_zero_of_le hf]; rfl
  | succ fuel ih =>
    rw [mergeAll]
    split
    · next h2 =>
      rw [show s.hsize - 1 = s.hsize - 2 + 1 by omega, List.replicate_succ, execAll, exec_treeMerge he h2]
      cases hm : s.merge with
      | next t =>
        have hsize := merge_hsize hm
        rw [andThen_next, andThen_next, ih ((merge_frame hm).err_eq.trans he) (by omega),
          show t.hsize - 1 = s.hsize - 2 by omega]
      | fault e => rfl
      | refused e => rfl
    · next h2 => rw [show s.hsize - 1 = 0 by omega]; rfl

/-- A build whose checks pass is its merges after its seed (R157). -/
theorem exec_treeBuild_eq_merges {s : State} (he : s.err = .noError) (hc : s.seedError = none) :
    exec .treeBuild s = execAll (List.replicate (s.presentSymbols.length - 1) .treeMerge) s.seed := by
  rw [exec_treeBuild he hc, mergeAll_eq_execAll ((seed_err s).trans he) (Nat.le_succ _), seed_hsize]

/-- The converse of `merge_scrubbed`. -/
theorem merge_of_scrubbed {s t : State} (h : s.scrubbed.merge = .next t) : ∃ u, s.merge = .next u ∧ t = u.scrubbed := by
  obtain ⟨a, b, h1, h2, e1, e2, hn, rfl⟩ := merge_eq_next_iff.mp h
  exact ⟨_, merge_eq_next_iff.mpr ⟨a, b, h1, h2, e1, e2, hn, rfl⟩, finishTree_scrubbed (s.joined a b h2)⟩

/-- The converse of `mergeAll_scrubbed`. -/
theorem mergeAll_of_scrubbed {fuel : Nat} {s t : State} (h : mergeAll fuel s.scrubbed = .next t) :
    ∃ u, mergeAll fuel s = .next u ∧ t = u.scrubbed := by
  induction fuel generalizing s with
  | zero => cases h; exact ⟨s, rfl, rfl⟩
  | succ fuel ih =>
    rw [mergeAll, show s.scrubbed.hsize = s.hsize from rfl] at h
    rw [mergeAll]
    split at h
    · next h2 =>
      obtain ⟨t', ht', ht⟩ := andThen_eq_next h
      obtain ⟨u, hu, rfl⟩ := merge_of_scrubbed ht'
      rw [if_pos h2, hu, andThen_next]
      exact ih ht
    · next h2 =>
      cases h
      exact ⟨s, if_neg h2, rfl⟩

/-- From any state the merges after a seed whose checks passed complete, and leave one heap entry of the total weight; the
invariant holds of what they leave but for the packer and `ERROP` (R156, R157). -/
theorem exec_treeBuild_completes {s : State} (he : s.err = .noError) (hc : s.seedError = none) :
    ∃ t, exec .treeBuild s = .next t ∧ t.err = .noError ∧ Inv t.scrubbed ∧ t.hsize = 1 ∧
      (t.heap.map t.key).sum = s.freqTotal := by
  obtain ⟨hinv, hsize, -, hsum⟩ := seed_spec (s := s.scrubbed) Nat.zero_lt_one (fun _ => rfl) hc
  rw [seed_scrubbed] at hinv hsize hsum
  obtain ⟨t', ht', hinv', hone, htotal⟩ := hinv.mergeAll (Nat.le_succ _)
  obtain ⟨t, ht, rfl⟩ := mergeAll_of_scrubbed ht'
  have hpos : 1 ≤ s.seed.scrubbed.hsize := hsize ▸ Nat.pos_of_ne_zero (seedError_none hc).1
  have herr : t.err = .noError := (mergeAll_frame ht).err_eq.trans ((seed_err s).trans he)
  exact ⟨t, (exec_treeBuild he hc).trans ht, herr, hinv', (hone hpos).1, htotal.trans hsum⟩

/-- Settles O26: the loop of R157 is a sequence of `TREE_MERGE` commands, and the checks of the two commands are the same. -/
theorem treeBuildIsSeedThenMerges : Obligations.TreeBuildIsSeedThenMerges := by
  refine ⟨isWordOf_of_encode_eq (by decide), fun s he => ⟨fun hc => ⟨?_, ?_⟩, fun t ht hne => ?_⟩⟩
  · obtain ⟨t, ht, herr, hinv, hone, -⟩ := exec_treeBuild_completes he hc
    have hbuilder := hinv.builder (hinv.idle_of_hsize (ne_of_eq_of_ne hone Nat.one_ne_zero))
    exact ⟨t, ht, herr, hbuilder.oneRoot.mpr hone⟩
  · rw [execAll_cons_of_next (exec_treeSeed he hc), exec_treeBuild_eq_merges he hc]
  · cases hc : s.seedError with
    | none =>
      cases (exec_treeSeed he hc).symm.trans ht
      exact absurd ((seed_err s).trans he) hne
    | some c =>
      cases (exec_of_seedError (.inl rfl) he hc).symm.trans ht
      exact exec_of_seedError (.inr rfl) he hc

/-- Settles O23: the checks are those of `seedError`, and behind them both commands complete. -/
theorem seedChecksCounts : Obligations.SeedChecksCounts := by
  refine fun i s hi he => ⟨fun h => ?_, fun h => ?_, fun hex h => ?_⟩
  · exact exec_of_seedError hi he (seedError_of_zero h)
  · exact exec_of_seedError hi he (seedError_of_overflow h)
  · have hc := seedError_of_fits hex h
    rcases hi with rfl | rfl
    · exact ⟨s.seed, exec_treeSeed he hc, (seed_err s).trans he⟩
    · obtain ⟨t, ht, herr, -⟩ := exec_treeBuild_completes he hc
      exact ⟨t, ht, herr⟩

end Sys2Proof.Machine

/-!
# The arena along a build (O27)
-/

namespace Sys2Proof.Machine

/-- When one entry is left in the heap, the tree is complete under it, and it is the arena's last node (R50, R158). -/
def RootIsLast (s : State) : Prop :=
  s.hsize = 1 → s.heap = [s.root] ∧ s.walk = s.root ∧ s.tvalid = true ∧ s.torigin = .builder ∧
    s.root.toNat + 1 = s.ncount

theorem seed_rootIsLast (s : State) : RootIsLast s.seed := by
  intro h
  rw [seed_hsize] at h
  have hcount : s.seedLeaves.length = 1 := by rw [State.seedLeaves, List.length_map, h]
  rw [seed_eq, h]
  exact ⟨rfl, rfl, rfl, rfl, hcount.symm⟩

theorem merge_rootIsLast {s t : State} (h : s.merge = .next t) : RootIsLast t := by
  intro h1
  obtain ⟨a, b, -, rest, -, -, hn, rfl⟩ := merge_eq_next_iff.mp h
  have hrest : rest = [] := by
    have hjoined := joined_hsize s a b rest
    rw [State.hsize, (finishTree_keep _).1] at h1
    rw [State.hsize] at hjoined
    exact List.length_eq_zero_iff.mp (by omega)
  subst hrest
  have hidx : s.nextIdx.toNat = s.ncount := State.nextIdx_toNat (Nat.lt_succ_of_lt hn)
  rw [joined_finishTree]
  refine ⟨rfl, rfl, rfl, rfl, ?_⟩
  rw [if_pos rfl, hidx]
  simp [State.ncount, State.joined]

/-- What `j` merges leave of the heap and the arena. -/
structure Merged (j : Nat) (s t : State) : Prop where
  hsize : t.hsize + j = s.hsize
  nodes : ∃ new, t.nodes = s.nodes ++ new ∧ new.length = j ∧ ∀ n ∈ new, n.kind = .internal
  rootIsLast : RootIsLast s → RootIsLast t

theorem Merged.of_merge {s t : State} (h : s.merge = .next t) : Merged 1 s t := by
  refine ⟨merge_hsize h, ?_, fun _ => merge_rootIsLast h⟩
  obtain ⟨a, b, -, rest, -, -, -, rfl⟩ := merge_eq_next_iff.mp h
  exact ⟨[Node.mkInternal (s.weight a + s.weight b) a b], (finishTree_keep _).2.1, rfl, by simp [Node.mkInternal]⟩

theorem Merged.trans {i j : Nat} {s t u : State} (h : Merged i s t) (h' : Merged j t u) : Merged (j + i) s u := by
  obtain ⟨new, hn, hl, hk⟩ := h.nodes
  obtain ⟨new', hn', hl', hk'⟩ := h'.nodes
  refine ⟨?_, ⟨new ++ new', ?_, ?_, ?_⟩, h'.rootIsLast ∘ h.rootIsLast⟩
  · rw [← Nat.add_assoc, h'.hsize, h.hsize]
  · rw [hn', hn, List.append_assoc]
  · rw [List.length_append, hl, hl', Nat.add_comm]
  · exact fun n hmem => (List.mem_append.mp hmem).elim (hk n) (hk' n)

/-- While more than `j` entries are in the heap, `j` times `TREE_MERGE` are `j` merges (R156). -/
theorem merged_of_execAll {j : Nat} {s t : State} (he : s.err = .noError) (hj : j < s.hsize)
    (h : execAll (List.replicate j .treeMerge) s = .next t) : t.err = .noError ∧ Merged j s t := by
  induction j generalizing s with
  | zero => cases h; exact ⟨he, rfl, ⟨[], by simp, rfl, by simp⟩, id⟩
  | succ j ih =>
    obtain ⟨u, hu, ht⟩ := andThen_eq_next h
    rw [exec_treeMerge he (by omega)] at hu
    have hsize := merge_hsize hu
    obtain ⟨het, hmerged⟩ := ih ((merge_frame hu).err_eq.trans he) (by omega) ht
    exact ⟨het, (Merged.of_merge hu).trans hmerged⟩

/-- The arena after `j` of `k` merges is the first part of the arena after all of them. -/
theorem nodes_eq_take_of_execAll {j k : Nat} {s t u : State} (he : s.err = .noError) (hjk : j ≤ k) (hk : k < s.hsize)
    (hu : execAll (List.replicate j .treeMerge) s = .next u) (ht : execAll (List.replicate k .treeMerge) s = .next t) :
    u.nodes = t.nodes.take (s.ncount + j) := by
  obtain ⟨heu, hmu⟩ := merged_of_execAll he (by omega) hu
  rw [← Nat.add_sub_of_le hjk, List.replicate_add, execAll_append, hu, andThen_next] at ht
  obtain ⟨-, hmt⟩ := merged_of_execAll heu (by have := hmu.hsize; omega) ht
  obtain ⟨new, hnu, hl, -⟩ := hmu.nodes
  obtain ⟨rest, hnt, -⟩ := hmt.nodes
  have hlen : u.nodes.length = s.ncount + j := by rw [hnu, List.length_append, hl, State.ncount]
  rw [hnt, List.take_left' hlen]

/-- Settles O27: each merge appends one internal entry to the leaves of the seed, and the last one completes the tree. -/
theorem treeBuildLaysOutTheArena : Obligations.TreeBuildLaysOutTheArena := by
  intro s he hex hfit
  have hc := seedError_of_fits hex hfit
  have hpos := Nat.pos_of_ne_zero (seedError_none hc).1
  obtain ⟨t, ht, het, -, hone, htotal⟩ := exec_treeBuild_completes he hc
  have herr : s.seed.err = .noError := (seed_err s).trans he
  have hleaves : s.seed.nodes = s.seedLeaves := by rw [seed_eq]
  have hcount : s.seedLeaves.length = s.presentSymbols.length := List.length_map _
  have hrun := (exec_treeBuild_eq_merges he hc).symm.trans ht
  have hlast : s.presentSymbols.length - 1 < s.seed.hsize := by rw [seed_hsize]; omega
  obtain ⟨-, hmerged⟩ := merged_of_execAll herr hlast hrun
  obtain ⟨hheap, hwalk, hvalid, horigin, hroot⟩ := hmerged.rootIsLast (seed_rootIsLast s) hone
  obtain ⟨new, hnodes, hlen, hinternal⟩ := hmerged.nodes
  rw [hleaves] at hnodes
  have hncount : t.ncount + 1 = 2 * s.presentSymbols.length := by
    rw [State.ncount, hnodes, List.length_append, hcount, hlen]
    omega
  refine ⟨t, ht, ?_, hncount, by omega, ?_, ?_, fun j u hj hu => ?_, ?_, (treeBuild_optimal he ht het).2.2⟩
  · have hframe : TreeFrame s.invalidateTree t := by
      rw [exec_treeBuild he hc] at ht
      exact (seed_frame s).trans (mergeAll_frame ht)
    refine Eq.trans hframe ?_
    rw [hheap, hvalid, horigin, hwalk]
    rfl
  · rw [hnodes, List.take_left' hcount]
    rfl
  · rwa [hnodes, List.drop_left' hcount]
  · rw [execAll_cons_of_next (exec_treeSeed he hc)] at hu
    have harena := nodes_eq_take_of_execAll herr (Nat.le_sub_one_of_lt hj) hlast hu hrun
    rwa [State.ncount, hleaves, hcount] at harena
  · have hkey : t.key t.root = s.freqTotal := by simpa [hheap] using htotal
    exact hkey

end Sys2Proof.Machine

/-!
# What CODE_BUILD records (O29)
-/

namespace Sys2Proof.Machine

/-- The symbols of a shape's leaves with their paths below `p`, left to right: the list that `Codes(n, p)` of R170 makes. -/
def Shape.codes (sym : NodeIdx → Byte) (t : Shape) (p : Bits) : List (Byte × Bits) :=
  (t.paths p).map fun e => (sym e.1, e.2)

@[simp] theorem Shape.codes_leaf (sym : NodeIdx → Byte) (i : NodeIdx) (p : Bits) :
    (Shape.leaf i).codes sym p = [(sym i, p)] := rfl

@[simp] theorem Shape.codes_node (sym : NodeIdx → Byte) (i : NodeIdx) (l r : Shape) (p : Bits) :
    (Shape.node i l r).codes sym p = l.codes sym (p ++ [false]) ++ r.codes sym (p ++ [true]) :=
  List.map_append

theorem Shape.codes_symbols (sym : NodeIdx → Byte) (t : Shape) (p : Bits) :
    (t.codes sym p).map Prod.fst = (t.paths p).map fun e => sym e.1 :=
  List.map_map

theorem Shape.mem_codes {sym : NodeIdx → Byte} {t : Shape} {p q : Bits} {a : Byte} :
    (a, q) ∈ t.codes sym p ↔ ∃ i, (i, q) ∈ t.paths p ∧ sym i = a := by
  simp [Shape.codes]

/-- The codes of the present tree, which `CODE_BUILD` records. -/
theorem TreeIs.codes_eq {s : State} {t : Shape} (h : TreeIs s t) (hn : s.ncount ≤ nodeCap) :
    s.codes = some (t.codes (fun i => (s.node i).sym) []) :=
  h.codes hn

/-- A path in a tree of an arena within its capacity has at most 255 edges (R172). -/
theorem TreeIs.path_length_le {s : State} {t : Shape} (h : TreeIs s t) (hn : s.ncount ≤ nodeCap) {e : NodeIdx × Bits}
    (he : e ∈ t.paths []) : e.2.length ≤ 255 :=
  (t.paths_length [] e he).trans (by simpa [maxLen] using h.height_le hn)

theorem ofPath_clen {p : Bits} (h : p.length ≤ 255) : (CodeEntry.ofPath p).clen.toNat = p.length := by
  rw [CodeEntry.ofPath, BitVec.toNat_ofNat, Nat.mod_eq_of_lt (by omega)]

theorem ofPath_cbits {p : Bits} (h : p.length ≤ 255) : (CodeEntry.ofPath p).cbits.toNat = bitsValue p := by
  have hlt : bitsValue p < 2 ^ 255 := (bitsValue_lt p).trans_le (Nat.pow_le_pow_right (by decide) h)
  rw [CodeEntry.ofPath, BitVec.toNat_ofNat, Nat.mod_eq_of_lt hlt]

/-! ## The table -/

/-- Filling writes the table alone (R170). -/
theorem fillCodes_eq (c : List (Byte × Bits)) (s : State) :
    s.fillCodes c = { s with code := (s.fillCodes c).code, ctvalid := true } :=
  congrArg (fun u : State => { u with ctvalid := true }) (foldl_record_spec c s.clearCodes)

/-- With distinct symbols, each symbol listed gets its path. -/
theorem codeOf_fillCodes_of_mem {c : List (Byte × Bits)} (s : State) (hnd : (c.map Prod.fst).Nodup) {a : Byte} {p : Bits}
    (h : (a, p) ∈ c) : (s.fillCodes c).codeOf a = CodeEntry.ofPath p :=
  foldl_record_mem c s.clearCodes hnd h

/-- After filling, an entry is clear or records a path listed for its symbol. -/
theorem codeOf_fillCodes_cases (c : List (Byte × Bits)) (s : State) (a : Byte) :
    (s.fillCodes c).codeOf a = CodeEntry.cleared ∨ ∃ p, (a, p) ∈ c ∧ (s.fillCodes c).codeOf a = CodeEntry.ofPath p :=
  (foldl_record_entries c s.clearCodes a).imp_left fun h => h.trans (State.codeOf_clearCodes s a)

theorem codeOf_fillCodes_of_not_mem {c : List (Byte × Bits)} (s : State) {a : Byte} (h : a ∉ c.map Prod.fst) :
    (s.fillCodes c).codeOf a = CodeEntry.cleared :=
  (codeOf_fillCodes_cases c s a).resolve_right fun ⟨_, hp, _⟩ => h (List.mem_map_of_mem hp)

theorem exists_path_of_cvalid {c : List (Byte × Bits)} {s : State} {a : Byte}
    (h : ((s.fillCodes c).codeOf a).cvalid = true) : ∃ p, (a, p) ∈ c ∧ (s.fillCodes c).codeOf a = CodeEntry.ofPath p :=
  (codeOf_fillCodes_cases c s a).resolve_left fun hclear => by simp [hclear, CodeEntry.cleared] at h

/-- The filled table depends on the list of codes alone. -/
theorem fillCodes_code_congr (c : List (Byte × Bits)) (s s' : State) : (s.fillCodes c).code = (s'.fillCodes c).code :=
  foldl_record_congr c rfl

/-! ## The command -/

section
variable {s : State} {c : List (Byte × Bits)} (he : s.err = .noError)
include he

theorem exec_codeBuild_of_noTree (hv : s.tvalid = false) :
    exec .codeBuild s = .next { s with err := .state, errop := 0x30 } :=
  (unlessSticky_clear he _).trans (if_pos hv)

theorem exec_codeBuild (hv : s.tvalid = true) (hc : s.codes = some c) : exec .codeBuild s =
    if (c.map Prod.fst).Nodup then .next (s.fillCodes c) else .next { s with err := .dupSym, errop := 0x30 } := by
  rw [exec, execCodeBuild, unlessSticky_clear he, if_neg (by simp [hv]), hc]
  by_cases hnd : (c.map Prod.fst).Nodup
  · rw [if_pos hnd]
    exact if_neg (by simpa [hasDuplicate] using hnd)
  · rw [if_neg hnd]
    exact if_pos (by simpa [hasDuplicate] using hnd)

end

/-- Settles O29: the codes of the present tree are the paths of its shape, which fit an entry, and with distinct symbols no
entry is written twice. -/
theorem codeBuildRecordsThePaths : Obligations.CodeBuildRecordsThePaths := by
  refine ⟨isWordOf_of_encode_eq (by decide), fun s he => ⟨exec_codeBuild_of_noTree he, fun sh hv hn hsh => ?_⟩⟩
  have hrun := exec_codeBuild he hv (hsh.codes_eq hn)
  rw [Shape.codes_symbols] at hrun
  refine ⟨fun hdup => hrun.trans (if_neg hdup), fun hnd =>
    ⟨_, hrun.trans (if_pos hnd), fillCodes_eq _ s, fun e hmem => ?_, fun a ha => ?_⟩⟩
  · have hlen := hsh.path_length_le hn hmem
    rw [codeOf_fillCodes_of_mem s (by rwa [Shape.codes_symbols]) (Shape.mem_codes.mpr ⟨e.1, hmem, rfl⟩)]
    exact ⟨hlen, rfl, ofPath_clen hlen, ofPath_cbits hlen⟩
  · exact codeOf_fillCodes_of_not_mem s (by rwa [Shape.codes_symbols])

end Sys2Proof.Machine

/-!
# The codes are prefix-free (O30)
-/

namespace Sys2Proof.Machine

/-- A `CODE_BUILD` without an error recorded the codes of the present tree (R170). -/
theorem Inv.codeBuild_tree {s t : State} (h : Inv s) (ht : exec .codeBuild s = .next t) (het : t.err = .noError) :
    ∃ sh, TreeIs s sh ∧ t = s.fillCodes (sh.codes (fun i => (s.node i).sym) []) := by
  have he : s.err = .noError := by
    obtain ⟨-, rfl⟩ | ⟨he, -⟩ := unlessSticky_eq_next ht
    · exact het
    · exact he
  have hv : s.tvalid = true := Bool.eq_true_of_not_eq_false fun hv => by
    rw [exec_codeBuild_of_noTree he hv] at ht
    cases ht
    exact nomatch het
  obtain ⟨sh, hsh⟩ := h.treeIs hv
  obtain ⟨c, hc, -, rfl⟩ := codeBuild_fillCodes he ht het
  cases (hsh.codes_eq h.arena).symm.trans hc
  exact ⟨sh, hsh, rfl⟩

/-- Settles O30: both codes are paths of the present tree, where no leaf's path begins another's. -/
theorem codesArePrefixFree : Obligations.CodesArePrefixFree := by
  intro s t h ht het a b hab ha hb hprefix
  obtain ⟨sh, hsh, rfl⟩ := h.codeBuild_tree ht het
  obtain ⟨p, hp, hcodeA⟩ := exists_path_of_cvalid ha
  obtain ⟨q, hq, hcodeB⟩ := exists_path_of_cvalid hb
  obtain ⟨i, hi, rfl⟩ := Shape.mem_codes.mp hp
  obtain ⟨j, hj, rfl⟩ := Shape.mem_codes.mp hq
  rw [hcodeA, hcodeB, ofPath_bits (hsh.path_length_le h.arena hi), ofPath_bits (hsh.path_length_le h.arena hj)]
    at hprefix
  have hleaf : (i, p) = (j, q) := sh.paths_prefix _ hi _ hj hprefix
  exact hab (congrArg (fun e => (s.node e.1).sym) hleaf)

end Sys2Proof.Machine

/-!
# The table depends on the serialized form alone (O31)
-/

namespace Sys2Proof.Machine

/-- The bytes of a full tree fix its leaves' symbols and paths, and where its bytes end (R173, R210). -/
theorem Shape.codes_eq_of_bytes {f g : NodeIdx → Byte} {t u : Shape} (ht : t.complete = true) (hu : u.complete = true)
    {x y : List Byte} (h : t.bytes f ++ x = u.bytes g ++ y) (p : Bits) : t.codes f p = u.codes g p ∧ x = y := by
  induction t generalizing u x y p with
  | hole => exact nomatch ht
  | leaf i =>
    cases u with
    | hole => exact nomatch hu
    | leaf j => simpa [Shape.bytes] using h
    | node j l' r' => simp [Shape.bytes, leafMark, nodeMark] at h
  | node i l r ihl ihr =>
    cases u with
    | hole => exact nomatch hu
    | leaf j => simp [Shape.bytes, leafMark, nodeMark] at h
    | node j l' r' =>
      simp only [Shape.complete, Bool.and_eq_true] at ht hu
      simp only [Shape.bytes, List.cons_append, List.append_assoc, List.cons.injEq, true_and] at h
      obtain ⟨hl, hrest⟩ := ihl ht.1 hu.1 h (p ++ [false])
      obtain ⟨hr, hend⟩ := ihr ht.2 hu.2 hrest (p ++ [true])
      exact ⟨by rw [Shape.codes_node, Shape.codes_node, hl, hr], hend⟩

/-- Settles O31: equal serialized forms are trees with equal codes, and the table holds nothing else. -/
theorem tableDependsOnShapeAndSymbols : Obligations.TableDependsOnShapeAndSymbols := by
  intro s1 s2 t1 t2 h1 h2 ht1 ht2 he1 he2 hser
  obtain ⟨sh1, hsh1, rfl⟩ := h1.codeBuild_tree ht1 he1
  obtain ⟨sh2, hsh2, rfl⟩ := h2.codeBuild_tree ht2 he2
  rw [hsh1.serialized h1.arena, hsh2.serialized h2.arena] at hser
  obtain ⟨hcodes, -⟩ :=
    Shape.codes_eq_of_bytes hsh1.1 hsh2.1 (congrArg (· ++ []) (Option.some.inj hser)) []
  rw [hcodes]
  exact fillCodes_code_congr _ s1 s2

end Sys2Proof.Machine

/-!
# The bit packer (O32 to O34)
-/

namespace Sys2Proof.Machine

/-! ## Lengths -/

theorem State.length_pending (s : State) : s.pending.length = s.paccn.toNat := length_pend s.pacc _

theorem State.pending_of_empty {s : State} (h : s.paccn = 0) : s.pending = [] := by simp [State.pending, h]

theorem State.paccn_pos {s : State} (h : s.paccn ≠ 0) : 0 < s.paccn.toNat :=
  Nat.pos_of_ne_zero fun h0 => h (BitVec.eq_of_toNat_eq h0)

theorem CodeEntry.length_bits (e : CodeEntry) : e.bits.length = e.clen.toNat := by simp [CodeEntry.bits]

/-- Fewer than eight bits stay pending, so the bits that joined them fix how many bytes were emitted (R180). -/
theorem length_emitted_of_stream {s t : State} {bs : List Byte} {l : Bits}
    (h : streamBits bs ++ t.pending = s.pending ++ l) : bs.length = (s.paccn.toNat + l.length) / 8 := by
  have hlen := congrArg List.length h
  simp only [List.length_append, length_streamBits, State.length_pending] at hlen
  have := t.paccn.isLt
  omega

/-! ## What the packer writes -/

/-- From `s` to `t` the bytes `bs` were emitted, and besides them the accumulator alone changed. -/
def Packed (s t : State) (bs : List Byte) : Prop :=
  t = { s with pacc := t.pacc, paccn := t.paccn, out := s.out ++ bs, outcnt := s.outcnt + BitVec.ofNat 64 bs.length }

section
variable {s t : State} {bs : List Byte} (h : Packed s t bs)
include h

theorem Packed.eq : t = { s with pacc := t.pacc, paccn := t.paccn, out := s.out ++ bs,
                                 outcnt := s.outcnt + BitVec.ofNat 64 bs.length } := h

theorem Packed.err_eq : t.err = s.err := by rw [h.eq]

theorem Packed.ctvalid_eq : t.ctvalid = s.ctvalid := by rw [h.eq]

theorem Packed.codeOf_eq : t.codeOf = s.codeOf := funext (State.codeOf_congr (by rw [h.eq]))

end

theorem Packed.of_frame {s t : State} {bs : List Byte} (he : Emitted s t bs)
    (h : t = { s with pacc := t.pacc, paccn := t.paccn, out := t.out, outcnt := t.outcnt }) : Packed s t bs := by
  rwa [he.1, he.2] at h

theorem Packed.trans {s t u : State} {a b : List Byte} (h₁ : Packed s t a) (h₂ : Packed t u b) : Packed s u (a ++ b) := by
  rw [Packed, h₂.eq, h₁.eq]
  simp [BitVec.ofNat_add, BitVec.add_assoc]

/-- Packing bits appends them to what was pending: first the bytes emitted, then what is pending now (R180). -/
theorem packBits_packed (l : Bits) (s : State) :
    ∃ bs, Packed s (s.packBits l) bs ∧ streamBits bs ++ (s.packBits l).pending = s.pending ++ l := by
  obtain ⟨bs, hemit, hstream⟩ := packBits_stream l s
  obtain ⟨-, -, hframe⟩ := packBits_frame l s
  exact ⟨bs, .of_frame hemit hframe, hstream⟩

theorem State.packBits_append (s : State) (a b : Bits) : s.packBits (a ++ b) = (s.packBits a).packBits b :=
  List.foldl_append

/-! ## `PACK_SYM` -/

theorem exec_packSym_of_noTable {s : State} (he : s.err = .noError) (a : Byte) (hv : s.ctvalid = false) :
    exec (.packSym a) s = .next { s with err := .state, errop := 0x40 } :=
  (unlessSticky_clear he _).trans (if_pos hv)

section
variable {s : State} {a : Byte} (he : s.err = .noError) (hv : s.ctvalid = true)
include he hv

theorem exec_packSym_of_noCode (hc : (s.codeOf a).cvalid = false) :
    exec (.packSym a) s = .next { s with err := .noCode, errop := 0x40 } :=
  (unlessSticky_clear he _).trans ((if_neg (by simp [hv])).trans (if_pos hc))

theorem exec_packSym (hc : (s.codeOf a).cvalid = true) :
    exec (.packSym a) s = .next (s.packBits (s.codeOf a).bits) :=
  (unlessSticky_clear he _).trans ((if_neg (by simp [hv])).trans (if_neg (by simp [hc])))

end

/-- Settles O32: behind its two checks the command packs the bits of the symbol's code. -/
theorem packSymAppendsTheCode : Obligations.PackSymAppendsTheCode := by
  refine fun a s => ⟨isWordOf_of_operandBits (m := .PACK_SYM) (by decide) rfl rfl, fun he =>
    ⟨exec_packSym_of_noTable he a, exec_packSym_of_noCode he, fun hv hc hp => ?_⟩⟩
  obtain ⟨bs, hpacked, hstream⟩ := packBits_packed (s.codeOf a).bits s
  have hlen := length_emitted_of_stream hstream
  rw [CodeEntry.length_bits] at hlen
  exact ⟨_, bs, exec_packSym he hv hc, hpacked, hstream, hlen, (packBits_spec _ s hp).1⟩

/-- `PACK_SYM` for each byte of an input packs the concatenated codes: none of them changes the table (R180, R182). -/
theorem execAll_packSym {s : State} (he : s.err = .noError) (hv : s.ctvalid = true) {x : List Byte}
    (hx : ∀ a ∈ x, (s.codeOf a).cvalid = true) :
    execAll (x.map .packSym) s = .next (s.packBits (x.flatMap fun a => (s.codeOf a).bits)) := by
  induction x generalizing s with
  | nil => rfl
  | cons a x ih =>
    obtain ⟨ha, hx⟩ := List.forall_mem_cons.mp hx
    obtain ⟨_, hpacked, -⟩ := packBits_packed (s.codeOf a).bits s
    have hrest := ih (hpacked.err_eq.trans he) (hpacked.ctvalid_eq.trans hv) (by rwa [hpacked.codeOf_eq])
    rw [hpacked.codeOf_eq, ← State.packBits_append] at hrest
    exact (execAll_cons_of_next (exec_packSym he hv ha) _).trans hrest

/-! ## `PACK_FLUSH` -/

/-- Shifting left puts zeros after the bits. -/
theorem pend_shiftLeft (a : Byte) (n k : Nat) (h : n + k ≤ 8) :
    pend (a <<< k) (n + k) = pend a n ++ List.replicate k false := by
  induction k with
  | zero => simp
  | succ k ih =>
    have hshift : a <<< (k + 1) = shiftIn (a <<< k) false := by simp [shiftIn, BitVec.shiftLeft_add]
    rw [hshift, ← Nat.add_assoc, pend_shiftIn _ _ (n + k) (by omega), ih (by omega), List.replicate_succ',
      List.append_assoc]

/-- The padded byte holds the pending bits and then zeros (R84). -/
theorem byteBits_paddedByte (s : State) :
    byteBits s.paddedByte = s.pending ++ List.replicate (8 - s.paccn.toNat) false := by
  have hn := s.paccn.isLt
  have h := pend_shiftLeft s.pacc s.paccn.toNat (8 - s.paccn.toNat) (by omega)
  rwa [Nat.add_sub_cancel' (by omega), ← byteBits_pend] at h

/-- As a number, it is the pending bits moved to the high positions, and none of them is lost (R39, R84). -/
theorem toNat_paddedByte {s : State} (h : s.pacc.toNat < 2 ^ s.paccn.toNat) :
    s.paddedByte.toNat = s.pacc.toNat * 2 ^ (8 - s.paccn.toNat) := by
  have hn := s.paccn.isLt
  have hlt : s.pacc.toNat * 2 ^ (8 - s.paccn.toNat) < 2 ^ 8 :=
    calc s.pacc.toNat * 2 ^ (8 - s.paccn.toNat)
      _ < 2 ^ s.paccn.toNat * 2 ^ (8 - s.paccn.toNat) := Nat.mul_lt_mul_of_pos_right h (Nat.two_pow_pos _)
      _ = 2 ^ 8 := by rw [← Nat.pow_add, Nat.add_sub_cancel' (by omega)]
  rw [State.paddedByte, BitVec.toNat_shiftLeft, Nat.shiftLeft_eq, Nat.mod_eq_of_lt hlt]

section
variable {s : State} (he : s.err = .noError)
include he

theorem exec_packFlush_of_empty (hn : s.paccn = 0) : exec .packFlush s = .next { s with pacc := 0, paccn := 0 } :=
  (unlessSticky_clear he _).trans (if_neg (by simp [hn]))

theorem exec_packFlush_of_pending (hn : s.paccn ≠ 0) :
    exec .packFlush s = .next { s.emit s.paddedByte with pacc := 0, paccn := 0 } :=
  (unlessSticky_clear he _).trans (if_pos (State.paccn_pos hn))

/-- `PACK_FLUSH` empties the packer into as many bytes as the pending bits need, none or one (R181). -/
theorem exec_packFlush : ∃ t bs pad, exec .packFlush s = .next t ∧ Packed s t bs ∧ t.pacc = 0 ∧ t.paccn = 0 ∧
    streamBits bs = s.pending ++ List.replicate pad false ∧ bs.length = (s.paccn.toNat + 7) / 8 := by
  by_cases hn : s.paccn = 0
  · refine ⟨_, [], 0, exec_packFlush_of_empty he hn, .of_frame (.nil s) rfl, rfl, rfl, ?_, by simp [hn]⟩
    rw [State.pending_of_empty hn]
    rfl
  · have hpos := State.paccn_pos hn
    have hlt := s.paccn.isLt
    refine ⟨_, [s.paddedByte], 8 - s.paccn.toNat, exec_packFlush_of_pending he hn, rfl, rfl, rfl, ?_, ?_⟩
    · rw [streamBits_single, byteBits_paddedByte]
    · rw [List.length_singleton]
      omega

end

/-- Settles O33: with nothing pending the accumulator was clear already; otherwise the padded byte is emitted. -/
theorem packFlushPadsTheLastByte : Obligations.PackFlushPadsTheLastByte := by
  refine ⟨isWordOf_of_encode_eq (by decide), fun s he hp => ⟨fun hn => ?_, fun hn =>
    ⟨s.paddedByte, exec_packFlush_of_pending he hn, toNat_paddedByte hp, byteBits_paddedByte s⟩⟩⟩
  have hclear : s.pacc = 0 := BitVec.eq_of_toNat_eq (by simpa [hn] using hp)
  rw [exec_packFlush_of_empty he hn, ← hclear, ← hn]

/-! ## The packing law -/

/-- Settles O34: the symbols pack the concatenated codes from an empty packer, and the flush pads what is left of them. -/
theorem packingLaw : Obligations.PackingLaw := by
  intro x s he hv hn hacc hx
  obtain ⟨bs, hpacked, hstream⟩ := packBits_packed (x.flatMap fun a => (s.codeOf a).bits) s
  have hrun := execAll_packSym he hv hx
  generalize s.packBits _ = t at hpacked hstream hrun
  obtain ⟨u, tail, pad, hflush, hpacked', hacc', hn', htail, hlen⟩ :=
    exec_packFlush (s := t) (hpacked.err_eq.trans he)
  rw [State.pending_of_empty hn, List.nil_append] at hstream
  refine ⟨bs ++ tail, pad, ?_, ?_, ?_⟩
  · have hall : execAll (x.map .packSym ++ [.packFlush]) s = .next u := by
      rw [execAll_append, hrun, andThen_next]
      exact execAll_cons_of_next hflush []
    have hu := hpacked.trans hpacked'
    rw [Packed, hacc', hn', ← hacc, ← hn] at hu
    rw [hall, hu]
  · rw [streamBits_append, htail, ← List.append_assoc, hstream]
  · have hbits := congrArg List.length hstream
    simp only [List.length_append, length_streamBits, State.length_pending, List.length_flatMap, CodeEntry.length_bits]
      at hbits
    rw [List.length_append, hlen]
    omega

end Sys2Proof.Machine

/-!
# The bit unpacker (O35, O36, O38 to O40)
-/

namespace Sys2Proof.Machine

/-! ## `UNPACK_INIT` and `COUNT_SHIFT` -/

/-- Settles O35: each command is one write, and the shift appends a byte to the number that `REMAIN` holds. -/
theorem countIsShiftedIn : Obligations.CountIsShiftedIn := by
  refine ⟨isWordOf_of_encode_eq (by decide), fun b s => ?_⟩
  refine ⟨isWordOf_of_operandBits (m := .COUNT_SHIFT) (by decide) rfl rfl, fun he => ⟨exec_unpackInit he, ?_⟩⟩
  exact ⟨_, exec_countShift he b, rfl, shiftCount_toNat s.remain b⟩

/-! ## `UNPACK_BYTE` -/

theorem isLeaf_iff {s : State} {i : NodeIdx} : s.isLeaf i = true ↔ (s.node i).kind = .leaf := decide_eq_true_iff

theorem isLeaf_eq_false_iff {s : State} {i : NodeIdx} : s.isLeaf i = false ↔ (s.node i).kind = .internal := by
  rw [State.isLeaf, decide_eq_false_iff_not]
  cases (s.node i).kind <;> decide

/-- A walk changes neither the error nor the tree, nor what kind of node its root is (R192). -/
theorem walkBits_keeps (bits : Bits) (s : State) : (s.walkBits bits).err = s.err ∧ (s.walkBits bits).tvalid = s.tvalid ∧
    (s.walkBits bits).isLeaf (s.walkBits bits).root = s.isLeaf s.root := by
  obtain ⟨_, -, hframe⟩ := walkBits_frame bits s
  rw [hframe]
  exact ⟨rfl, rfl, rfl⟩

theorem exec_unpackByte_of_noTree {s : State} (he : s.err = .noError) (b : Byte) (hv : s.tvalid = false) :
    exec (.unpackByte b) s = .next { s with err := .state, errop := 0x52 } :=
  (unlessSticky_clear he _).trans (if_pos hv)

section
variable {s : State} (he : s.err = .noError) (hv : s.tvalid = true)
include he hv

theorem exec_unpackByte_of_quiet (b : Byte) (h : s.remain = 0 ∨ s.isLeaf s.root = true) :
    exec (.unpackByte b) s = .next s :=
  (exec_unpackByte he hv b).trans (if_pos h)

/-- Below an internal root the byte's bits are walked; with the count met, that changes nothing (R192). -/
theorem exec_unpackByte_walks (b : Byte) (hr : s.isLeaf s.root = false) :
    exec (.unpackByte b) s = .next (s.walkBits (byteBits b)) := by
  by_cases h0 : s.remain = 0
  · rw [exec_unpackByte_of_quiet he hv b (.inl h0), walkBits_done _ s h0]
  · exact (exec_unpackByte he hv b).trans (if_neg (not_or.mpr ⟨h0, Bool.eq_false_iff.mp hr⟩))

/-- Below an internal root a run of bytes walks their bits as one stream (R83, R192). -/
theorem execAll_unpackByte (hr : s.isLeaf s.root = false) (bs : List Byte) :
    execAll (bs.map .unpackByte) s = .next (s.walkBits (streamBits bs)) := by
  induction bs generalizing s with
  | nil => rfl
  | cons b bs ih =>
    obtain ⟨herr, htree, hroot⟩ := walkBits_keeps (byteBits b) s
    have hrest := ih (herr.trans he) (htree.trans hv) (hroot.trans hr)
    rw [← walkBits_append] at hrest
    exact (execAll_cons_of_next (exec_unpackByte_walks he hv b hr) _).trans hrest

end

/-- Settles O36: the pass of the loop over bit `k` is the model's pass over the bit itself. -/
theorem unpackByteWalksEightBits : Obligations.UnpackByteWalksEightBits := by
  refine fun b s => ⟨isWordOf_of_operandBits (m := .UNPACK_BYTE) (by decide) rfl rfl, fun he =>
    ⟨exec_unpackByte_of_noTree he b, fun hv h => ?_, fun hv _ hr => ?_⟩⟩
  · exact exec_unpackByte_of_quiet he hv b (h.imp_right isLeaf_iff.mpr)
  · rw [exec_unpackByte_walks he hv b (isLeaf_eq_false_iff.mpr hr), State.walkBits, byteBits, List.foldl_map]
    simp only [State.walkBit, isLeaf_iff]
    rfl

/-! ## `UNPACK_SYM` -/

section
variable {s : State} (he : s.err = .noError)
include he

theorem exec_unpackSym_of_state (h : s.tvalid = false ∨ s.isLeaf s.root = false) :
    exec .unpackSym s = .next { s with err := .state, errop := 0x53 } := by
  refine (unlessSticky_clear he _).trans ?_
  by_cases hv : s.tvalid = false
  · exact if_pos hv
  · exact (if_neg hv).trans (if_pos (h.resolve_left hv))

variable (hv : s.tvalid = true) (hr : s.isLeaf s.root = true)
include hv hr

theorem exec_unpackSym_of_degenerate : exec .unpackSym s =
    if s.remain = 0 then .next s else .next { s.emit (s.node s.root).sym with remain := s.remain - 1 } :=
  (unlessSticky_clear he _).trans ((if_neg (by simp [hv])).trans (if_neg (by simp [hr])))

end

/-- A count that is not met drops by one without a borrow. -/
theorem toNat_sub_one_add_one {r : Count} (h : r ≠ 0) : (r - 1).toNat + 1 = r.toNat := by
  bv_omega

/-- A count of one symbol more is not met, and drops to the count of the rest. -/
theorem count_succ {r : Count} {n : Nat} (h : r.toNat = n + 1) : r ≠ 0 ∧ (r - 1).toNat = n := by
  have h0 : r ≠ 0 := by
    rintro rfl
    exact nomatch h
  exact ⟨h0, Nat.succ_injective ((toNat_sub_one_add_one h0).trans h)⟩

/-- Settles O38: behind its two checks the command emits the root's symbol, and the count drops without a borrow. -/
theorem unpackSymEmitsTheRootSymbol : Obligations.UnpackSymEmitsTheRootSymbol := by
  refine ⟨isWordOf_of_encode_eq (by decide), fun s he => ⟨fun h => ?_, fun hv hr h0 => ?_, fun hv hr h0 => ?_⟩⟩
  · exact exec_unpackSym_of_state he (h.imp_right isLeaf_eq_false_iff.mpr)
  · exact (exec_unpackSym_of_degenerate he hv (isLeaf_iff.mpr hr)).trans (if_pos h0)
  · exact ⟨_, (exec_unpackSym_of_degenerate he hv (isLeaf_iff.mpr hr)).trans (if_neg h0), toNat_sub_one_add_one h0, rfl⟩

/-! ## `UNPACK_END` -/

theorem exec_unpackEnd_of_met {s : State} (he : s.err = .noError) (h : s.remain = 0) : exec .unpackEnd s = .next s :=
  (unlessSticky_clear he _).trans (if_neg (by simp [h]))

/-- Settles O39: the command is its one check of the count. -/
theorem unpackEndChecksTheCount : Obligations.UnpackEndChecksTheCount :=
  ⟨isWordOf_of_encode_eq (by decide), fun _ he =>
    ⟨fun h => (unlessSticky_clear he _).trans (if_pos h), exec_unpackEnd_of_met he⟩⟩

/-! ## The decoding law (R195) -/

/-- When the count ends at 0, what it held after the first byte (`r`) does not matter: the bytes are emitted one after another. -/
theorem emitAll_cons_met (s : State) (r : Count) (b : Byte) (bs : List Byte) :
    { ({ s.emit b with remain := r } : State).emitAll bs with remain := 0 } =
      { s.emitAll (b :: bs) with remain := 0 } := by
  rw [State.emitAll_cons, State.emitAll_eq, State.emitAll_eq]

/-- From the root, the concatenated codes of as many symbols as the count says emit those symbols and meet the count. -/
theorem walkBits_codes {s : State} {sh : Shape} {xs : List (NodeIdx × Bits)} (hc : sh.complete = true)
    (ha : sh.InArena s.nodes) (hnode : ∀ i, sh ≠ .leaf i) (htop : sh.top = s.root) (hw : s.walk = s.root)
    (hx : ∀ x ∈ xs, x ∈ sh.paths []) (hn : s.remain.toNat = xs.length) :
    s.walkBits (xs.flatMap Prod.snd) = { s.emitAll (xs.map fun x => (s.node x.1).sym) with remain := 0 } := by
  induction xs generalizing s with
  | nil =>
    have h0 : s.remain = 0 := BitVec.eq_of_toNat_eq hn
    rw [List.flatMap_nil, walkBits_done [] s h0, ← h0]
    rfl
  | cons x xs ih =>
    obtain ⟨hx, hxs⟩ := List.forall_mem_cons.mp hx
    obtain ⟨h0, hn'⟩ := count_succ hn
    have hfirst := descend sh s x.1 x.2 hc ha (hw.trans htop.symm) h0 hnode hx
    rw [List.flatMap_cons, walkBits_append, hfirst, ih (by exact ha) (by exact htop) rfl hxs hn', ← hw]
    exact emitAll_cons_met s (s.remain - 1) (s.node x.1).sym (xs.map fun y => (s.node y.1).sym)

/-- On a degenerate tree, as many `UNPACK_SYM` as the count says emit that many copies of the root's symbol. -/
theorem execAll_unpackSym {s : State} {n : Nat} (he : s.err = .noError) (hv : s.tvalid = true)
    (hr : s.isLeaf s.root = true) (hn : s.remain.toNat = n) : execAll (List.replicate n .unpackSym) s =
      .next { s.emitAll (List.replicate n (s.node s.root).sym) with remain := 0 } := by
  induction n generalizing s with
  | zero =>
    have h0 : s.remain = 0 := BitVec.eq_of_toNat_eq hn
    rw [← h0]
    rfl
  | succ n ih =>
    obtain ⟨h0, hn'⟩ := count_succ hn
    have hfirst := (exec_unpackSym_of_degenerate he hv hr).trans (if_neg h0)
    have hrest := ih (s := { s.emit (s.node s.root).sym with remain := s.remain - 1 }) he hv hr hn'
    rw [List.replicate_succ, execAll_cons_of_next hfirst, hrest]
    exact congrArg _ (emitAll_cons_met s (s.remain - 1) (s.node s.root).sym (List.replicate n (s.node s.root).sym))

/-- Settles O40: bytes are one stream of bits, which the walk cuts into codes until the count is met; padding comes after. -/
theorem decodingLaw : Obligations.DecodingLaw := by
  intro s sh he hv _ ⟨hc, ha, htop, _⟩ hw
  refine ⟨fun xs bs pad hr hx hn hbits => ?_, fun hr => ?_⟩
  · have hroot := isLeaf_eq_false_iff.mpr hr
    have hnode : ∀ i, sh ≠ .leaf i := by
      rintro i rfl
      obtain ⟨n, hn, hk⟩ := ha
      rw [← htop, Shape.top_leaf, isLeaf_of_getElem? hn hk] at hroot
      exact nomatch hroot
    have hrun := execAll_unpackByte he hv hroot bs
    rw [hbits, walkBits_append, walkBits_codes hc ha hnode htop hw hx hn, walkBits_done _ _ rfl] at hrun
    refine ⟨_, hrun, rfl, ?_, exec_unpackEnd_of_met ?_ rfl⟩ <;> rw [State.emitAll_eq]
    exact he
  · refine ⟨_, execAll_unpackSym he hv (isLeaf_iff.mpr hr) rfl, rfl, ?_, exec_unpackEnd_of_met ?_ rfl⟩ <;>
      rw [State.emitAll_eq]
    exact he

end Sys2Proof.Machine

/-!
# The serializer (O41, O42)
-/

namespace Sys2Proof.Machine

/-- A leaf takes two bytes and an internal node one: `3k − 1` bytes for `k` leaves (R210). -/
theorem Shape.length_bytes {t : Shape} (h : t.complete = true) (f : NodeIdx → Byte) :
    (t.bytes f).length + 1 = 3 * t.leaves.length := by
  induction t with
  | hole => exact nomatch h
  | leaf i => rfl
  | node i l r ihl ihr =>
    simp only [Shape.complete, Bool.and_eq_true] at h
    have hl := ihl h.1
    have hr := ihr h.2
    simp only [Shape.bytes, Shape.leaves, List.length_cons, List.length_append]
    omega

theorem exec_treeSer_of_noTree {s : State} (he : s.err = .noError) (hv : s.tvalid = false) :
    exec .treeSer s = .next { s with err := .state, errop := 0x60 } :=
  (unlessSticky_clear he _).trans (if_pos hv)

theorem exec_treeSer {s : State} (he : s.err = .noError) (hv : s.tvalid = true) {bs : List Byte}
    (hbs : s.serialized = some bs) : exec .treeSer s = .next (s.emitAll bs) := by
  rw [exec, execTreeSer, unlessSticky_clear he, if_neg (by simp [hv]), hbs]

/-- Settles O41: the command emits the bytes of the present tree's shape, one run of `Emit`. -/
theorem treeSerEmitsPreOrder : Obligations.TreeSerEmitsPreOrder := by
  refine ⟨isWordOf_of_encode_eq (by decide), fun s he => ⟨exec_treeSer_of_noTree he, fun sh hv hn hsh => ?_⟩⟩
  refine ⟨_, rfl, Shape.length_bytes hsh.1 _, ?_⟩
  rw [exec_treeSer he hv (hsh.serialized hn), State.emitAll_eq]

/-- Settles O42: the bytes of a full tree say where they end. -/
theorem serializedTreesArePrefixFree : Obligations.SerializedTreesArePrefixFree := by
  intro t u f g rest ht hu h
  exact (Shape.codes_eq_of_bytes ht hu (h.trans (List.append_nil _).symm) []).2

end Sys2Proof.Machine

/-!
# The deserializer, byte by byte (O43 to O46)
-/

namespace Sys2Proof.Machine

/-! ## `DESER_START` and `DESER_END` -/

theorem exec_deserStart {s : State} (he : s.err = .noError) :
    exec .deserStart s = .next { s.invalidateTree with dsState := .marker } :=
  unlessSticky_clear he _

/-- Settles O43: the command is `TI` and the start of a parse. -/
theorem deserStartBeginsAParse : Obligations.DeserStartBeginsAParse :=
  ⟨isWordOf_of_encode_eq (by decide), fun _ he => exec_deserStart he⟩

/-- Settles O46: the command is its check of the parse's state. -/
theorem deserEndChecksTheTree : Obligations.DeserEndChecksTheTree := by
  refine ⟨isWordOf_of_encode_eq (by decide), fun s he => ?_⟩
  simp only [exec, execDeserEnd, unlessSticky_clear he]
  refine ⟨fun hs => ?_, fun hs => ?_, fun hs => by simp only [hs]⟩
  · simp only [hs, raise]
    rfl
  · rcases hs with hs | hs <;> simp only [hs, raise] <;> rfl

/-! ## The stack (R214) -/

/-- The frames of a shape name nodes of it, each at most once (R214). -/
theorem Shape.frames_subperm (t : Shape) : List.Subperm (t.frames.map Frame.node) t.indices := by
  induction t with
  | hole => exact List.Subperm.refl _
  | leaf i => exact List.nil_subperm
  | node i l r ihl ihr =>
    rw [Shape.frames_node, Shape.indices]
    split
    · exact (List.singleton_sublist.mpr List.mem_cons_self).subperm
    · split
      · rw [List.map_append]
        exact (List.perm_append_singleton i _).subperm.trans
          ((List.subperm_cons i).mpr (ihl.trans (List.sublist_append_left ..).subperm))
      · rw [List.map_append]
        exact (ihl.append ihr).trans (List.sublist_cons_self i _).subperm

/-- In a parse the frames name distinct nodes: those of a shape numbered in pre-order. -/
theorem ParsePhase.frames_nodup {s : State} (h : ParsePhase s) : (s.dsStk.map Frame.node).Nodup := by
  obtain ⟨t, -, -, hf, hi⟩ := h.parsed
  have hnd : t.indices.Nodup := List.Nodup.of_map BitVec.toNat (hi ▸ List.nodup_range)
  obtain ⟨l, hperm, hsub⟩ := hf ▸ t.frames_subperm
  exact hperm.nodup_iff.mp (hsub.nodup hnd)

/-- Outside a parse the stack is empty (R41). -/
theorem Inv.dsStk_eq_nil_or_parse {s : State} (h : Inv s) : s.dsStk = [] ∨ ParsePhase s := by
  have hp := h.phase
  unfold PhaseHolds at hp
  split at hp
  · exact .inl hp.noParse.1
  · exact .inr hp
  · exact .inr hp
  · exact .inl hp.noFrames

/-- Settles O45: in a parse the frames are those of the shape under construction; otherwise there are none. -/
theorem stackNeverOverflows : Obligations.StackNeverOverflows := by
  intro s h
  have harena : s.ncount ≤ 511 := h.arena
  rcases h.dsStk_eq_nil_or_parse with hnil | hp
  · simpa [hnil] using ⟨h.dsDepth_le, harena⟩
  · exact ⟨hp.frames_nodup, hp.frames.2, h.dsDepth_le, harena⟩

/-! ## `DESER_BYTE` outside a parse, and in state SYM -/

section
variable {s : State} (he : s.err = .noError) (b : Byte)
include he

theorem exec_deserByte_of_noParse (hs : s.dsState = .idle ∨ s.dsState = .done) :
    exec (.deserByte b) s = .next { s with err := .state, errop := 0x62 } := by
  rcases hs with hs | hs <;> simp only [exec, execDeserByte, unlessSticky_clear he, hs, raise] <;> rfl

theorem exec_deserByte_of_sym (hs : s.dsState = .sym) : exec (.deserByte b) s = .next (s.takeSymbol b) := by
  rw [exec, execDeserByte, unlessSticky_clear he, hs]

theorem exec_deserByte_of_corrupt (hs : s.dsState = .marker)
    (h : (b ≠ leafMark ∧ b ≠ nodeMark) ∨ s.ncount = nodeCap) :
    exec (.deserByte b) s = .next { s with err := .corruptHeader, errop := 0x62 } := by
  simp only [exec, execDeserByte, unlessSticky_clear he, hs, raise]
  by_cases hb : b ≠ leafMark ∧ b ≠ nodeMark
  · exact if_pos hb
  · exact (if_neg hb).trans (if_pos (h.resolve_left hb))

end

/-- Without a frame the leaf that takes its symbol is the whole tree's last (R213). -/
theorem takeSymbol_of_nil {s : State} (b : Byte) (h : s.dsStk = []) : s.takeSymbol b =
    { s with nodes := s.nodes.modify s.dsCur.toNat (fun n => { n with sym := b }), dsState := .done
             root := 0, tvalid := true, torigin := .deserializer, walk := 0 } := by
  simp only [State.takeSymbol, State.modifyNode, State.completeTree, h]

theorem takeSymbol_of_ne_nil {s : State} (b : Byte) (h : s.dsStk ≠ []) : s.takeSymbol b =
    { s with nodes := s.nodes.modify s.dsCur.toNat (fun n => { n with sym := b }), dsState := .marker } := by
  obtain ⟨f, rest, hstk⟩ := List.exists_cons_of_ne_nil h
  simp only [State.takeSymbol, State.modifyNode, hstk]

/-! ## `DESER_BYTE` in state MARKER -/

/-- The arena after node `n` is attached to the parent that waits, the top frame's (R213). -/
def linkChild (n : NodeIdx) (nodes : List Node) : List Frame → List Node
  | [] => nodes
  | ⟨p, .left⟩ :: _ => nodes.modify p.toNat fun x => { x with l := n }
  | ⟨p, .right⟩ :: _ => nodes.modify p.toNat fun x => { x with r := n }

theorem modify_append_of_lt {α : Type} {xs : List α} {k : Nat} (h : k < xs.length) (ys : List α) (g : α → α) :
    (xs ++ ys).modify k g = xs.modify k g ++ ys := by
  induction xs generalizing k with
  | nil => exact nomatch h
  | cons x xs ih =>
    cases k with
    | zero => rfl
    | succ k => simpa using ih (Nat.lt_of_succ_lt_succ h)

@[simp] theorem length_linkChild (n : NodeIdx) (nodes : List Node) (stk : List Frame) :
    (linkChild n nodes stk).length = nodes.length := by
  rcases stk with _ | ⟨⟨p, _ | _⟩, rest⟩ <;> simp [linkChild]

/-- When the frames name live nodes, the parent that takes the node just allocated was live before it. -/
theorem attach_alloc {s : State} (x : Node) (n : NodeIdx) (hlive : ∀ f ∈ s.dsStk, f.node.toNat < s.ncount) :
    (s.alloc x).attach n =
      { s with nodes := linkChild n s.nodes s.dsStk ++ [x], dsStk := afterAttach s.dsStk } := by
  rcases hstk : s.dsStk with _ | ⟨⟨p, _ | _⟩, rest⟩
  · simp [State.attach, hstk, linkChild, afterAttach, State.alloc]
  · simp [State.attach, hstk, linkChild, afterAttach, State.alloc, State.modifyNode,
      modify_append_of_lt (hlive _ (hstk ▸ List.mem_cons_self))]
  · simp [State.attach, hstk, linkChild, afterAttach, State.alloc, State.modifyNode,
      modify_append_of_lt (hlive _ (hstk ▸ List.mem_cons_self))]

/-- The state after a marker byte that passes its checks (R213). -/
def State.marked (s : State) (b : Byte) : State :=
  { s with
    nodes := linkChild s.nextIdx s.nodes s.dsStk ++ [Node.ofMarker b]
    dsStk := (if b = leafMark then [] else [⟨s.nextIdx, .left⟩]) ++ afterAttach s.dsStk
    dsCur := if b = leafMark then s.nextIdx else s.dsCur
    dsState := if b = leafMark then .sym else .marker }

/-- A marker byte, leaf or internal node, is taken when the arena has room: the stack then has room too (R214). -/
theorem exec_deserByte_of_marker {s : State} (h : Inv s) (he : s.err = .noError) (hs : s.dsState = .marker) {b : Byte}
    (hb : b = leafMark ∨ b = nodeMark) (hcap : s.ncount < nodeCap) :
    exec (.deserByte b) s = .next (s.marked b) := by
  have hlive : ∀ f ∈ s.dsStk, f.node.toNat < s.ncount := fun f hf => by
    obtain ⟨n, hn, -⟩ := (h.parse (.inl hs)).frames.2 f hf
    exact (List.getElem?_eq_some_iff.mp hn).1
  have hdepth : ¬ dsDepthCap ≤ (afterAttach s.dsStk).length := by
    have hpush := afterAttach_length s.dsStk
    have hframes : s.dsStk.length ≤ s.ncount := h.dsDepth_le
    simp only [nodeCap, dsDepthCap] at *
    omega
  have htake : exec (.deserByte b) s = s.takeMarker b := by
    rw [exec, execDeserByte, unlessSticky_clear he, hs]
    refine (if_neg fun hno => ?_).trans (if_neg hcap.ne)
    exact hb.elim hno.1 hno.2
  rw [htake, State.takeMarker, attach_alloc _ _ hlive, State.marked]
  by_cases hleaf : b = leafMark
  · simp [hleaf]
  · simp [hleaf, State.dsDepth, hdepth, hs]

/-- Settles O44, by the lemma of each case of the command. -/
theorem deserByteParsesOneByte : Obligations.DeserByteParsesOneByte := by
  refine fun b s => ⟨isWordOf_of_operandBits (m := .DESER_BYTE) (by decide) rfl rfl, fun h he =>
    ⟨exec_deserByte_of_noParse he b, fun hs hstk => ?_, fun hs hstk => ?_, fun hs hbad => ?_, fun hs hb hcap => ?_⟩⟩
  · rw [exec_deserByte_of_sym he b hs, takeSymbol_of_nil b hstk]
  · rw [exec_deserByte_of_sym he b hs, takeSymbol_of_ne_nil b hstk]
  · exact exec_deserByte_of_corrupt he b hs hbad
  · exact ⟨_, exec_deserByte_of_marker h he hs hb hcap, rfl, rfl, rfl⟩

end Sys2Proof.Machine

/-!
# The tree round trip (O47)

`DESER_BYTE` for the bytes of a full tree appends the tree's nodes to the arena in pre-order, links apart, and fills the place
that the top frame of the stack waits for.
-/

namespace Sys2Proof.Machine

/-! ## Nodes apart from their links -/

/-- A node without its links, which parsing writes after the node itself. -/
def Node.unlinked (n : Node) : Node := { n with l := 0, r := 0 }

/-- What a node adds to the serialized form (R210). -/
def Node.bytes (n : Node) : List Byte := if n.kind = .leaf then [leafMark, n.sym] else [nodeMark]

@[simp] theorem Node.bytes_unlinked (n : Node) : n.unlinked.bytes = n.bytes := rfl

/-- The nodes that parsing a full tree's bytes allocates, in pre-order, without their links (R213). -/
def Shape.parsedNodes (sym : NodeIdx → Byte) : Shape → List Node
  | .hole => []
  | .leaf i => [⟨.leaf, sym i, 0, 0, 0⟩]
  | .node _ l r => ⟨.internal, 0, 0, 0, 0⟩ :: (l.parsedNodes sym ++ r.parsedNodes sym)

section
variable (f : NodeIdx → Byte) (t : Shape)

theorem Shape.length_parsedNodes : (t.parsedNodes f).length = t.indices.length := by
  induction t with
  | hole => rfl
  | leaf i => rfl
  | node i l r ihl ihr => simp [Shape.parsedNodes, Shape.indices, ihl, ihr]

theorem Shape.flatMap_bytes_parsedNodes : (t.parsedNodes f).flatMap Node.bytes = t.bytes f := by
  induction t with
  | hole => rfl
  | leaf i => rfl
  | node i l r ihl ihr => simp [Shape.parsedNodes, Shape.bytes, Node.bytes, ihl, ihr]

theorem Shape.weight_of_mem_parsedNodes : ∀ n ∈ t.parsedNodes f, n.w = 0 := by
  induction t with
  | hole => simp [Shape.parsedNodes]
  | leaf i => simp [Shape.parsedNodes]
  | node i l r ihl ihr =>
    rw [Shape.parsedNodes, List.forall_mem_cons, List.forall_mem_append]
    exact ⟨rfl, ihl, ihr⟩

end

/-- The bytes of a shape in the arena are those of its nodes in pre-order. -/
theorem Shape.bytes_eq_flatMap {s : State} {t : Shape} (h : t.InArena s.nodes) :
    t.bytes (fun i => (s.node i).sym) = t.indices.flatMap fun i => (s.node i).bytes := by
  induction t with
  | hole => rfl
  | leaf i =>
    obtain ⟨n, hn, hk⟩ := h
    simp [Shape.bytes, Shape.indices, Node.bytes, State.node_of_getElem? hn, hk]
  | node i l r ihl ihr =>
    obtain ⟨⟨n, hn, hk, -⟩, hl, hr⟩ := h
    simp [Shape.bytes, Shape.indices, Node.bytes, State.node_of_getElem? hn, hk, ihl hl, ihr hr]

/-- The nodes of indices that count the arena up from 0 are the arena's, in order. -/
theorem map_node_eq_nodes {s : State} {is : List NodeIdx} (h : is.map BitVec.toNat = List.range s.ncount) :
    is.map s.node = s.nodes := by
  have hlen : is.length = s.nodes.length := by simpa [State.ncount] using congrArg List.length h
  refine List.ext_getElem (by rwa [List.length_map]) fun k hk hk' => ?_
  rw [List.length_map] at hk
  have hidx := List.getElem_of_eq h (i := k) (by rwa [List.length_map])
  rw [List.getElem_map, List.getElem_range] at hidx
  rw [List.getElem_map]
  exact State.node_of_getElem? (by rw [hidx, List.getElem?_eq_getElem hk'])

/-! ## What a subtree's bytes do -/

theorem map_modify_of_comp_eq {α β : Type} {g : α → α} {p : α → β} (h : ∀ x, p (g x) = p x) (xs : List α) (k : Nat) :
    (xs.modify k g).map p = xs.map p := by
  induction xs generalizing k with
  | nil => simp
  | cons x xs ih =>
    cases k with
    | zero => simp [h]
    | succ k => simp [ih]

/-- Attaching writes links alone. -/
theorem map_unlinked_linkChild (n : NodeIdx) (nodes : List Node) (stk : List Frame) :
    (linkChild n nodes stk).map Node.unlinked = nodes.map Node.unlinked := by
  rcases stk with _ | ⟨⟨p, _ | _⟩, rest⟩
  · rfl
  · exact map_modify_of_comp_eq (p := Node.unlinked) (g := fun x => { x with l := n }) (fun _ => rfl) nodes _
  · exact map_modify_of_comp_eq (p := Node.unlinked) (g := fun x => { x with r := n }) (fun _ => rfl) nodes _

/-- A symbol byte writes its leaf's symbol and keeps the stack, which says whether the parse goes on (R213). -/
theorem takeSymbol_keeps (s : State) (b : Byte) :
    (s.takeSymbol b).nodes = s.nodes.modify s.dsCur.toNat (fun n => { n with sym := b }) ∧
      (s.takeSymbol b).dsStk = s.dsStk ∧ (s.takeSymbol b).err = s.err ∧
      (s.takeSymbol b).dsState = if s.dsStk = [] then .done else .marker := by
  by_cases hstk : s.dsStk = []
  · rw [takeSymbol_of_nil b hstk, if_pos hstk]
    exact ⟨rfl, rfl, rfl, rfl⟩
  · rw [takeSymbol_of_ne_nil b hstk, if_neg hstk]
    exact ⟨rfl, rfl, rfl, rfl⟩

/-- From `s`, which waits for a marker, a whole subtree was parsed: its nodes, links apart, follow those of `s`, and its
root was attached to the parent that waited. -/
structure SubtreeParsed (s u : State) (ns : List Node) : Prop where
  inv : Inv u
  err : u.err = .noError
  nodes : u.nodes.map Node.unlinked = s.nodes.map Node.unlinked ++ ns
  stack : u.dsStk = afterAttach s.dsStk
  state : u.dsState = if u.dsStk = [] then .done else .marker

theorem SubtreeParsed.ncount {s u : State} {ns : List Node} (h : SubtreeParsed s u ns) :
    u.ncount = s.ncount + ns.length := by
  simpa [State.ncount] using congrArg List.length h.nodes

section
variable {s : State} (h : Inv s) (he : s.err = .noError) (hs : s.dsState = .marker)
include h he hs

/-- A leaf's two bytes: the leaf is allocated and attached, and then takes its symbol. -/
theorem parse_leaf (hcap : s.ncount < nodeCap) (a : Byte) :
    ∃ u, execAll [.deserByte leafMark, .deserByte a] s = .next u ∧ SubtreeParsed s u [⟨.leaf, a, 0, 0, 0⟩] := by
  have hmark := exec_deserByte_of_marker h he hs (.inl rfl) hcap
  have hsym := exec_deserByte_of_sym (s := s.marked leafMark) he a rfl
  have hcur : (s.marked leafMark).dsCur.toNat = s.ncount := State.nextIdx_toNat (hcap.trans (by decide))
  have hnodes : (s.marked leafMark).nodes.modify (s.marked leafMark).dsCur.toNat (fun n => { n with sym := a }) =
      linkChild s.nextIdx s.nodes s.dsStk ++ [⟨.leaf, a, 0, 0, 0⟩] := by
    have hlen : s.ncount = (linkChild s.nextIdx s.nodes s.dsStk).length + 0 := (length_linkChild ..).symm
    rw [hcur, hlen]
    exact List.modifyTailIdx_add ..
  refine ⟨_, (execAll_cons_of_next hmark _).trans (execAll_cons_of_next hsym _), ?_⟩
  obtain ⟨ht, hstk, het, hst⟩ := takeSymbol_keeps (s.marked leafMark) a
  refine ⟨(h.of_exec hmark).of_exec hsym, het.trans he, ?_, hstk, hst.trans (by rw [hstk])⟩
  rw [ht, hnodes, List.map_append, map_unlinked_linkChild]
  rfl

/-- The bytes of a full tree that fits the arena are parsed without an error, whatever subtree they are (R213). -/
theorem parse_tree {t : Shape} (ht : t.complete = true) (f : NodeIdx → Byte) (hcap : s.ncount + t.indices.length ≤ nodeCap) :
    ∃ u, execAll ((t.bytes f).map .deserByte) s = .next u ∧ SubtreeParsed s u (t.parsedNodes f) := by
  induction t generalizing s with
  | hole => exact nomatch ht
  | leaf i => exact parse_leaf h he hs hcap (f i)
  | node i l r ihl ihr =>
    simp only [Shape.complete, Bool.and_eq_true] at ht
    simp only [Shape.indices, List.length_cons, List.length_append] at hcap
    have hmark := exec_deserByte_of_marker h he hs (.inr rfl) (by omega)
    have hcount : (s.marked nodeMark).ncount = s.ncount + 1 := by simp [State.ncount, State.marked]
    obtain ⟨u, hu, hpu⟩ := ihl (h.of_exec hmark) he rfl ht.1 (by omega)
    have hstk : u.dsStk = ⟨s.nextIdx, .right⟩ :: afterAttach s.dsStk := hpu.stack
    have hcountU := hpu.ncount
    rw [Shape.length_parsedNodes] at hcountU
    obtain ⟨v, hv, hpv⟩ := ihr hpu.inv hpu.err (hpu.state.trans (if_neg (by simp [hstk]))) ht.2 (by omega)
    refine ⟨v, ?_, { hpv with nodes := ?_, stack := by rw [hpv.stack, hstk]; rfl }⟩
    · rw [Shape.bytes, List.map_cons, execAll_cons_of_next hmark, List.map_append, execAll_append, hu, andThen_next, hv]
    · rw [hpv.nodes, hpu.nodes, State.marked, List.map_append, map_unlinked_linkChild]
      simp [Shape.parsedNodes]
      rfl

end

/-! ## The parsed tree -/

theorem Inv.parsed {s : State} (h : Inv s) (hs : s.dsState = .done) : ParsedPhase s := by
  have hp := h.phase
  unfold PhaseHolds at hp
  rwa [hs] at hp

/-- A tree numbered in pre-order from 0 has its root at 0. -/
theorem Shape.top_eq_zero {t : Shape} (ht : t.complete = true) {n : Nat}
    (h : t.indices.map BitVec.toNat = List.range n) : t.top = 0 := by
  have hhead : t.indices.head? = some t.top := by
    cases t with
    | hole => exact nomatch ht
    | leaf i => rfl
    | node i l r => rfl
  have hzero : some t.top.toNat = (List.range n).head? := by rw [← h, List.head?_map, hhead]; rfl
  rw [List.head?_range] at hzero
  split at hzero
  · exact nomatch hzero
  · exact BitVec.eq_of_toNat_eq (Option.some.inj hzero)

/-- The parsed tree is numbered in pre-order, and its bytes are those of the arena's nodes in index order. -/
theorem ParsedPhase.treeIs {s : State} (h : ParsedPhase s) : ∃ t, TreeIs s t ∧
    t.indices.map BitVec.toNat = List.range s.ncount ∧
    t.bytes (fun i => (s.node i).sym) = s.nodes.flatMap Node.bytes := by
  obtain ⟨t, hc, ha, hi⟩ := h.parsed
  obtain ⟨-, -, hroot⟩ := h.present
  refine ⟨t, ⟨hc, ha, (Shape.top_eq_zero hc hi).trans hroot.symm, .of_eq hi⟩, hi, ?_⟩
  rw [Shape.bytes_eq_flatMap ha, ← map_node_eq_nodes hi, List.flatMap_map]

/-! ## Before the last byte -/

/-- Only `NOP`, `RESET` and `CLRERR` run while an error is recorded, so without them no error at the end means none at the
start (R246). -/
theorem err_of_execAll {is : List Instr} (hx : ∀ i ∈ is, exempt i = false) {s t : State} (h : execAll is s = .next t)
    (ht : t.err = .noError) : s.err = .noError := by
  induction is generalizing s with
  | nil =>
    cases h
    exact ht
  | cons i is ih =>
    obtain ⟨hi, his⟩ := List.forall_mem_cons.mp hx
    obtain ⟨u, hu, hrest⟩ := andThen_eq_next h
    have heu := ih his hrest
    rcases exec_cases hu with ⟨-, -, rfl⟩ | ⟨he, -⟩ | ⟨he, -⟩
    · exact heu
    · exact he
    · exact he.resolve_right (by simp [hi])

theorem exempt_of_mem_deserByte (bs : List Byte) : ∀ i ∈ bs.map Instr.deserByte, exempt i = false :=
  List.forall_mem_map.mpr fun _ _ => rfl

/-- When bytes are taken without an error, the parse is not complete before the last: a further byte would raise `STATE`. -/
theorem parse_unfinished {s t : State} {bs : List Byte} (h : execAll (bs.map .deserByte) s = .next t)
    (ht : t.err = .noError) {k : Nat} (hk : k < bs.length) :
    ∃ u, execAll ((bs.take k).map .deserByte) s = .next u ∧ u.err = .noError ∧ u.dsState ≠ .done := by
  rw [← List.take_append_drop k bs, List.map_append, execAll_append] at h
  obtain ⟨u, hu, hrest⟩ := andThen_eq_next h
  have heu := err_of_execAll (exempt_of_mem_deserByte _) hrest ht
  refine ⟨u, hu, heu, fun hdone => ?_⟩
  rw [List.drop_eq_getElem_cons hk, List.map_cons,
    execAll_cons_of_next (exec_deserByte_of_noParse heu _ (.inr hdone))] at hrest
  exact nomatch err_of_execAll (exempt_of_mem_deserByte _) hrest ht

/-- Settles O47: parsing the tree's bytes, one subtree after another, appends its nodes in pre-order to the arena that
`DESER_START` emptied, and a shape with those nodes has the same bytes. -/
theorem treeRoundTrip : Obligations.TreeRoundTrip := by
  intro s h he hv
  obtain ⟨sh, hsh⟩ := h.treeIs hv
  have hstart := exec_deserStart he
  have hfit : sh.indices.length ≤ nodeCap := hsh.2.2.2.length.trans_le h.arena
  obtain ⟨t, hrun, hp⟩ := parse_tree (h.of_exec hstart) he rfl hsh.1 (fun i => (s.node i).sym)
    (by simpa [State.ncount] using hfit)
  have hdone : t.dsState = .done := hp.state.trans (if_pos hp.stack)
  have hnodes : t.nodes.map Node.unlinked = sh.parsedNodes fun i => (s.node i).sym := hp.nodes
  have hbytes : t.nodes.flatMap Node.bytes = sh.bytes fun i => (s.node i).sym := by
    rw [← Shape.flatMap_bytes_parsedNodes, ← hnodes, List.flatMap_map]
    simp only [Node.bytes_unlinked]
  have hphase := hp.inv.parsed hdone
  obtain ⟨tv, -, hroot⟩ := hphase.present
  obtain ⟨sh', hsh', hi, hb⟩ := hphase.treeIs
  refine ⟨_, t, hsh.serialized h.arena, (execAll_cons_of_next hstart _).trans hrun, hp.err, hdone, tv, hroot, ?_,
    ⟨sh', hsh', hi⟩, fun n hn => ?_, fun k hk => ?_⟩
  · rw [hsh'.serialized hp.inv.arena, hb, hbytes]
  · exact Shape.weight_of_mem_parsedNodes _ sh n.unlinked (hnodes ▸ List.mem_map_of_mem hn)
  · obtain ⟨u, hu, heu, hnot⟩ := parse_unfinished hrun hp.err hk
    exact ⟨u, (execAll_cons_of_next hstart _).trans hu, heu, hnot⟩

end Sys2Proof.Machine

/-!
# Recorded errors (O9, O15)
-/

namespace Sys2Proof.Machine

/-! ## While an error is recorded (R246) -/

/-- Every command but `NOP`, `RESET` and `CLRERR` stands behind the sticky rule. -/
theorem exec_of_sticky {i : Instr} {s : State} (hi : exempt i = false) (he : s.err ≠ .noError) : exec i s = .next s := by
  cases i with
  | nop | reset | clrerr => exact nomatch hi
  | freqClear | freqInc | freqSetLo | freqSetHi | treeSeed | treeMerge | treeBuild | codeBuild | packSym | packFlush
  | unpackInit | countShift | unpackByte | unpackSym | unpackEnd | treeSer | deserStart | deserByte | deserEnd
  | emitByte | countEmit => exact unlessSticky_sticky he _

theorem execAll_of_sticky {is : List Instr} {s : State} (his : ∀ i ∈ is, exempt i = false) (he : s.err ≠ .noError) :
    execAll is s = .next s := by
  induction is with
  | nil => rfl
  | cons i is ih =>
    obtain ⟨hi, his⟩ := List.forall_mem_cons.mp his
    exact (execAll_cons_of_next (exec_of_sticky hi he) is).trans (ih his)

/-- The commands that run while an error is recorded have one word each. -/
theorem encode_of_exempt {i : Instr} (h : exempt i = true) :
    encode i = 0x0000000000000000 ∨ encode i = 0x0100000000000000 ∨ encode i = 0x0200000000000000 := by
  cases i with
  | nop => exact .inl (by decide)
  | reset => exact .inr (.inl (by decide))
  | clrerr => exact .inr (.inr (by decide))
  | freqClear | freqInc | freqSetLo | freqSetHi | treeSeed | treeMerge | treeBuild | codeBuild | packSym | packFlush
  | unpackInit | countShift | unpackByte | unpackSym | unpackEnd | treeSer | deserStart | deserByte | deserEnd
  | emitByte | countEmit => exact nomatch h

/-- Settles O9: a word of a command that runs in spite of the error would be one of the three. -/
theorem stickyErrorIgnoresCommands : Obligations.StickyErrorIgnoresCommands := by
  intro w s he hnop hreset hclrerr
  cases hd : decode w with
  | illegal why => rw [runWord_of_illegal hd, illegalWord, unlessSticky_sticky he]
  | command i =>
    have hi : exempt i = false := Bool.eq_false_iff.mpr fun hi => by
      have hw := encode_of_exempt hi
      rw [encodeOfDecode w i hd] at hw
      exact hw.elim hnop (·.elim hreset hclrerr)
    rw [runWord_of_command hd, exec_of_sticky hi he]

/-! ## Raising an error (R241, R244, R245) -/

/-- A command's opcode is the opcode field of its word. -/
theorem opcode_of_decode {w : Word} {i : Instr} (h : decode w = .command i) : i.opcode = opField w := by
  obtain ⟨m, hm, rfl⟩ := decode_eq_command_iff.mp h
  rw [Instr.opcode, Mnemonic.mnemonic_command]
  exact ((and_mask_eq_matchWord_iff m w).mp hm).1

/-- Settles O15: of what a command can do, only raising an error records one, as an illegal word does. -/
theorem errorsChangeOnlyTheErrorRegisters : Obligations.ErrorsChangeOnlyTheErrorRegisters := by
  refine fun w s t hs h ht => ⟨?_, decide_eq_true ht⟩
  cases hd : decode w with
  | illegal why =>
    rw [runWord_of_illegal hd, illegalWord, unlessSticky_clear hs] at h
    cases h
    rfl
  | command i =>
    rw [runWord_of_command hd] at h
    rcases exec_cases h with ⟨he, -⟩ | ⟨-, c, -, rfl⟩ | ⟨-, hw⟩
    · exact absurd hs he
    · rw [opcode_of_decode hd]
      rfl
    · exact absurd (hw.err_eq hs) ht

end Sys2Proof.Machine

/-!
# The container commands (O48, O49)
-/

namespace Sys2Proof.Machine

/-! ## `EMIT_BYTE` -/

theorem exec_emitByte {s : State} (he : s.err = .noError) (b : Byte) : exec (.emitByte b) s = .next (s.emit b) :=
  unlessSticky_clear he _

theorem execAll_emitByte {s : State} (he : s.err = .noError) (bs : List Byte) :
    execAll (bs.map .emitByte) s = .next (s.emitAll bs) := by
  induction bs generalizing s with
  | nil => rfl
  | cons b bs ih => exact (execAll_cons_of_next (exec_emitByte he b) _).trans (ih he)

/-- Settles O48: the command is `Emit`. -/
theorem emitBytePassesOneByte : Obligations.EmitBytePassesOneByte := fun b _ =>
  ⟨isWordOf_of_operandBits (m := .EMIT_BYTE) (by decide) rfl rfl, fun he => exec_emitByte he b⟩

/-! ## `COUNT_EMIT` -/

theorem length_countBytes (c : Word) : (countBytes c).length = 6 := rfl

/-- The six bytes are the low 48 bits of the count, most significant first (R87). -/
theorem bigEndianValue_countBytes (c : Word) : bigEndianValue (countBytes c) = c.toNat % 2 ^ 48 := by
  simp only [bigEndianValue, countBytes, List.map_cons, List.map_nil, List.foldl_cons, List.foldl_nil,
    BitVec.extractLsb'_toNat, Nat.shiftRight_eq_div_pow]
  omega

section
variable {s : State} (he : s.err = .noError)
include he

theorem exec_countEmit_of_state (h : s.tvalid = false ∨ s.torigin = .deserializer) :
    exec .countEmit s = .next { s with err := .state, errop := 0x71 } :=
  (unlessSticky_clear he _).trans (if_pos h)

variable (hv : s.tvalid = true) (ho : s.torigin = .builder)
include hv ho

theorem exec_countEmit_of_overflow (h : 2 ^ 48 - 1 < (s.weight s.root).toNat) :
    exec .countEmit s = .next { s with err := .countOvf, errop := 0x71 } :=
  (unlessSticky_clear he _).trans ((if_neg (by simp [hv, ho])).trans (if_pos h))

theorem exec_countEmit (h : (s.weight s.root).toNat ≤ 2 ^ 48 - 1) :
    exec .countEmit s = .next (s.emitAll (countBytes (s.weight s.root))) :=
  (unlessSticky_clear he _).trans ((if_neg (by simp [hv, ho])).trans (if_neg h.not_gt))

end

/-- Settles O49: behind its two checks the command emits the count's bytes, which lose nothing of a count of 48 bits. -/
theorem countEmitWritesSixBytes : Obligations.CountEmitWritesSixBytes := by
  refine ⟨isWordOf_of_encode_eq (by decide), fun s he =>
    ⟨exec_countEmit_of_state he, exec_countEmit_of_overflow he, fun hv ho h =>
      ⟨_, length_countBytes (s.weight s.root), ?_, ?_⟩⟩⟩
  · rw [bigEndianValue_countBytes, Nat.mod_eq_of_lt (by omega)]
  · rw [exec_countEmit he hv ho h, State.emitAll_eq]
    rfl

end Sys2Proof.Machine

/-!
# The encode sequence (O50)

The sequence counts the input and builds its tree and codes before it emits anything. From there on the tree and the codes
stay, and the bytes of the container follow one another.
-/

namespace Sys2Proof.Machine

theorem State.emitAll_append (s : State) (as bs : List Byte) : s.emitAll (as ++ bs) = (s.emitAll as).emitAll bs :=
  List.foldl_append

/-! ## Commands before the first byte -/

/-- The commands that write neither the packer nor the output (R39, R43, R44). -/
def keepsOutput : Instr → Bool
  | .reset | .packSym _ | .packFlush | .unpackByte _ | .unpackSym | .treeSer | .emitByte _ | .countEmit => false
  | .nop | .clrerr | .freqClear | .freqInc _ | .freqSetLo _ _ | .freqSetHi _ _ => true
  | .treeSeed | .treeMerge | .treeBuild | .codeBuild | .unpackInit | .countShift _ | .unpackEnd => true
  | .deserStart | .deserByte _ | .deserEnd => true

/-- The packer and the output of `t` are those of `s`. -/
structure SameOutput (s t : State) : Prop where
  pacc : t.pacc = s.pacc
  paccn : t.paccn = s.paccn
  out : t.out = s.out

theorem SameOutput.refl (s : State) : SameOutput s s := ⟨rfl, rfl, rfl⟩

theorem SameOutput.trans {s t u : State} (h : SameOutput s t) (h' : SameOutput t u) : SameOutput s u :=
  ⟨h'.pacc.trans h.pacc, h'.paccn.trans h.paccn, h'.out.trans h.out⟩

theorem sameOutput_of_exec {i : Instr} {s t : State} (hi : keepsOutput i = true) (h : exec i s = .next t) :
    SameOutput s t := by
  rcases exec_cases h with ⟨-, -, rfl⟩ | ⟨-, c, -, rfl⟩ | ⟨-, hw⟩
  · exact .refl _
  · exact ⟨rfl, rfl, rfl⟩
  · cases i with
    | reset | packSym | packFlush | unpackByte | unpackSym | treeSer | emitByte | countEmit => exact nomatch hi
    | nop | clrerr | freqClear | freqInc | freqSetLo | freqSetHi | treeSeed | treeMerge | treeBuild | codeBuild
    | unpackInit | countShift | unpackEnd | deserStart | deserByte | deserEnd => rw [hw]; exact ⟨rfl, rfl, rfl⟩

theorem sameOutput_of_execAll {is : List Instr} {s t : State} (his : ∀ i ∈ is, keepsOutput i = true)
    (h : execAll is s = .next t) : SameOutput s t := by
  induction is generalizing s with
  | nil => cases h; exact .refl _
  | cons i is ih =>
    obtain ⟨hi, his⟩ := List.forall_mem_cons.mp his
    obtain ⟨u, hu, hrest⟩ := andThen_eq_next h
    exact (sameOutput_of_exec hi hu).trans (ih his hrest)

/-! ## The tree and the codes of an input -/

/-- The block is ready to encode `x`: it holds a built tree `sh` that weighs as much as `x` is long, and for each byte of `x`
the path of a leaf as its code. -/
structure CodesOf (x : List Byte) (s : State) (sh : Shape) : Prop where
  err : s.err = .noError
  present : s.tvalid = true ∧ s.torigin = .builder
  arena : s.ncount ≤ nodeCap
  tree : TreeIs s sh
  weight : (s.weight s.root).toNat = x.length
  ctvalid : s.ctvalid = true
  coded : ∀ a ∈ x, ∃ p, (a, p) ∈ sh.codes (fun i => (s.node i).sym) [] ∧ s.codeOf a = CodeEntry.ofPath p

/-- The tree and the codes do not depend on what was emitted. -/
theorem CodesOf.withOut {x : List Byte} {s : State} {sh : Shape} (h : CodesOf x s sh) (out : List Byte) (outcnt : Word) :
    CodesOf x { s with out := out, outcnt := outcnt } sh :=
  ⟨h.err, h.present, h.arena, h.tree, h.weight, h.ctvalid, h.coded⟩

theorem CodesOf.emitAll {x : List Byte} {s : State} {sh : Shape} (h : CodesOf x s sh) (bs : List Byte) :
    CodesOf x (s.emitAll bs) sh := by
  rw [State.emitAll_eq]
  exact h.withOut _ _

theorem CodesOf.cvalid {x : List Byte} {s : State} {sh : Shape} (h : CodesOf x s sh) :
    ∀ a ∈ x, (s.codeOf a).cvalid = true := fun a ha => by
  obtain ⟨p, -, hp⟩ := h.coded a ha
  rw [hp]
  rfl

/-- The counts of an input add up to its length. -/
theorem freqTotal_of_counts {s : State} {x : List Byte} (h : ∀ a, (s.freqOf a).toNat = x.count a) :
    s.freqTotal = x.length := by
  have hnd : allSymbols.Nodup := allSymbols_sorted.imp BitVec.ne_of_lt
  simp only [State.freqTotal, h]
  have hsum := Multiset.sum_count_eq_card (m := (x : Multiset Byte)) fun a _ => List.mem_toFinset.mpr (mem_allSymbols a)
  simp only [Multiset.coe_count, Multiset.coe_card] at hsum
  rwa [List.sum_toFinset _ hnd] at hsum

theorem freqOf_ne_zero_of_counts {s : State} {x : List Byte} (h : ∀ a, (s.freqOf a).toNat = x.count a) {a : Byte}
    (ha : a ∈ x) : s.freqOf a ≠ 0 := fun h0 => by
  have hcount := h a
  rw [h0] at hcount
  exact (List.count_pos_iff.mpr ha).ne hcount

theorem mem_presentSymbols_of_counts {s : State} {x : List Byte} (h : ∀ a, (s.freqOf a).toNat = x.count a) {a : Byte}
    (ha : a ∈ x) : a ∈ s.presentSymbols :=
  List.mem_filter.mpr ⟨mem_allSymbols a, decide_eq_true (freqOf_ne_zero_of_counts h ha)⟩

/-- The leaves of a built tree carry the symbols with a count, each once (R155, R158). -/
theorem treeBuild_symbols {s t : State} {sh : Shape} (he : s.err = .noError) (h : exec .treeBuild s = .next t)
    (ht : t.err = .noError) (hsh : TreeIs t sh) :
    ((sh.codes (fun i => (t.node i).sym) []).map Prod.fst).Perm s.presentSymbols := by
  obtain ⟨-, hopt, -⟩ := treeBuild_optimal he h ht
  have hleaves := hsh.leaves_perm.map Node.sym
  rw [hopt.leafNodes_eq, State.seedLeaves, List.map_map, List.map_map, ← Shape.paths_fst sh [], List.map_map] at hleaves
  rw [Shape.codes_symbols]
  exact hleaves.trans (.of_eq (List.map_id _))

/-- `TREE_BUILD` and `CODE_BUILD` on the counts of an input make the block ready to encode it. -/
theorem execAll_treeBuild_codeBuild {s : State} {x : List Byte} (he : s.err = .noError)
    (hcount : ∀ a, (s.freqOf a).toNat = x.count a) (hx : x ≠ []) (hlen : x.length < 2 ^ 64) :
    ∃ t sh, execAll [.treeBuild, .codeBuild] s = .next t ∧ CodesOf x t sh := by
  have htotal := freqTotal_of_counts hcount
  have hex : ∃ a, s.freqOf a ≠ 0 := by
    obtain ⟨a, ha⟩ := List.exists_mem_of_ne_nil x hx
    exact ⟨a, freqOf_ne_zero_of_counts hcount ha⟩
  obtain ⟨u, hu, hframe, -, -, -, -, -, hweight, sh, hsh, -⟩ := treeBuildLaysOutTheArena s he hex (htotal ▸ hlen)
  have heu : u.err = .noError := by rw [hframe]; exact he
  have hpresent : u.tvalid = true ∧ u.torigin = .builder := by rw [hframe]; exact ⟨rfl, rfl⟩
  obtain ⟨hcap, -⟩ := treeBuild_optimal he hu heu
  have hsymbols := treeBuild_symbols he hu heu hsh
  have hnd := hsymbols.nodup_iff.mpr (presentSymbols_nodup s)
  have hcodes := (exec_codeBuild heu hpresent.1 (hsh.codes_eq hcap)).trans (if_pos hnd)
  refine ⟨_, sh, (execAll_cons_of_next hu _).trans (execAll_cons_of_next hcodes []), ?_⟩
  have hcoded : ∀ a ∈ x, ∃ p, (a, p) ∈ sh.codes (fun i => (u.node i).sym) [] ∧
      (u.fillCodes (sh.codes (fun i => (u.node i).sym) [])).codeOf a = CodeEntry.ofPath p := fun a ha => by
    obtain ⟨⟨_, p⟩, hp, rfl⟩ := List.mem_map.mp (hsymbols.mem_iff.mpr (mem_presentSymbols_of_counts hcount ha))
    exact ⟨p, hp, codeOf_fillCodes_of_mem u hnd hp⟩
  rw [fillCodes_eq] at hcoded ⊢
  exact ⟨heu, hpresent, hcap, hsh, hweight.trans htotal, rfl, hcoded⟩

/-! ## The parts of the sequence -/

/-- The part of the encode sequence that comes before the first byte (R232). -/
def codingCommands (x : List Byte) : List Instr := .freqClear :: x.map .freqInc ++ [.treeBuild, .codeBuild]

theorem encodeSequence_eq (x e : List Byte) : encodeSequence x e = codingCommands x ++
    ((BitVec.ofNat 8 e.length :: e).map .emitByte ++ .treeSer :: .countEmit :: (x.map .packSym ++ [.packFlush])) := by
  simp [encodeSequence, codingCommands]

theorem keepsOutput_codingCommands (x : List Byte) : ∀ i ∈ codingCommands x, keepsOutput i = true := by
  simp [codingCommands, keepsOutput, or_imp, forall_and]

theorem exempt_encodeSequence (x e : List Byte) : ∀ i ∈ encodeSequence x e, exempt i = false := by
  simp [encodeSequence, exempt, or_imp, forall_and]

/-- The commands before the first byte leave the tree and the codes of the input (R232). -/
theorem execAll_codingCommands {x : List Byte} {s : State} (he : s.err = .noError) (hx : x ≠ [])
    (hlen : x.length < 2 ^ 64) :
    ∃ t sh, execAll (codingCommands x) s = .next t ∧ CodesOf x t sh ∧ SameOutput s t := by
  obtain ⟨u, hu, hcount, hfit⟩ := frequencyPassCountsInput x s .freqClear he (.inl rfl)
  have heu := hfit hlen
  obtain ⟨t, sh, ht, hcodes⟩ := execAll_treeBuild_codeBuild heu (hcount heu) hx hlen
  have hrun : execAll (codingCommands x) s = .next t := by
    rw [codingCommands, execAll_append, hu, andThen_next, ht]
  exact ⟨t, sh, hrun, hcodes, sameOutput_of_execAll (keepsOutput_codingCommands x) hrun⟩

section
variable {x : List Byte} {s : State} {sh : Shape} (h : CodesOf x s sh)
include h

/-- The bytes of the extension and then the tree are emitted (R85, R232). -/
theorem CodesOf.execAll_emitByte_treeSer (bs : List Byte) (is : List Instr) :
    execAll (bs.map .emitByte ++ .treeSer :: is) s =
      execAll is (s.emitAll (bs ++ sh.bytes fun i => (s.node i).sym)) := by
  have hemitted := h.emitAll bs
  have hser := exec_treeSer hemitted.err hemitted.present.1 (hemitted.tree.serialized hemitted.arena)
  rw [execAll_append, execAll_emitByte h.err, andThen_next, execAll_cons_of_next hser, State.emitAll_append,
    State.emitAll_eq s bs]
  rfl

/-- The count of the input is emitted when it fits its field (R87, R231). -/
theorem CodesOf.exec_countEmit (bs : List Byte) (hlen : x.length < 2 ^ 48) :
    exec .countEmit (s.emitAll bs) = .next (s.emitAll (bs ++ countBytes (s.weight s.root))) := by
  have hemitted := h.emitAll bs
  rw [Machine.exec_countEmit hemitted.err hemitted.present.1 hemitted.present.2 (by rw [hemitted.weight]; omega),
    State.emitAll_append, State.emitAll_eq s bs]
  rfl

/-- A count that does not fit is an error, and what follows is ignored (R231, R246). -/
theorem CodesOf.execAll_countEmit_of_overflow (bs : List Byte) (hlen : 2 ^ 48 ≤ x.length) {is : List Instr}
    (his : ∀ i ∈ is, exempt i = false) :
    ∃ t, execAll (.countEmit :: is) (s.emitAll bs) = .next t ∧ t.err = .countOvf := by
  have hemitted := h.emitAll bs
  have hcount := exec_countEmit_of_overflow hemitted.err hemitted.present.1 hemitted.present.2
    (by rw [hemitted.weight]; omega)
  exact ⟨_, (execAll_cons_of_next hcount is).trans (execAll_of_sticky his nofun), rfl⟩

/-- The codes of the input are emitted, padded to a whole number of bytes (R182). -/
theorem CodesOf.execAll_pack (bs : List Byte) (hn : s.paccn = 0) (hacc : s.pacc = 0) : ∃ payload pad,
    execAll (x.map .packSym ++ [.packFlush]) (s.emitAll bs) = .next (s.emitAll (bs ++ payload)) ∧
      streamBits payload = (x.flatMap fun a => (s.codeOf a).bits) ++ List.replicate pad false ∧ pad < 8 := by
  have hemitted := h.emitAll bs
  rw [State.emitAll_eq] at hemitted
  obtain ⟨payload, pad, hrun, hbits, hlen⟩ := packingLaw x _ hemitted.err hemitted.ctvalid hn hacc hemitted.cvalid
  refine ⟨payload, pad, ?_, hbits, ?_⟩
  · rw [State.emitAll_append, State.emitAll_eq s bs, hrun, State.emitAll_eq]
  · have hcount := congrArg List.length hbits
    simp only [List.length_append, length_streamBits, List.length_flatMap, CodeEntry.length_bits, List.length_replicate]
      at hcount
    omega

end

/-! ## The sequence -/

/-- The bytes of a container (R85): the extension, the tree, the count and the payload. -/
def containerBytes (e tree count payload : List Byte) : List Byte :=
  BitVec.ofNat 8 e.length :: e ++ tree ++ count ++ payload

section
variable {x : List Byte} {s : State} (he : s.err = .noError) (e : List Byte)
include he

/-- An input that is not empty and whose length fits the count's field is emitted as its container (R232). -/
theorem execAll_encodeSequence (hn : s.paccn = 0) (hacc : s.pacc = 0) (hx : x ≠ []) (hlen : x.length < 2 ^ 48) :
    ∃ u sh payload pad, CodesOf x u sh ∧ u.out = s.out ∧
      execAll (encodeSequence x e) s = .next (u.emitAll
        (containerBytes e (sh.bytes fun i => (u.node i).sym) (countBytes (u.weight u.root)) payload)) ∧
      streamBits payload = (x.flatMap fun a => (u.codeOf a).bits) ++ List.replicate pad false ∧ pad < 8 := by
  obtain ⟨u, sh, hu, hcodes, hsame⟩ := execAll_codingCommands he hx (hlen.trans (by decide))
  obtain ⟨payload, pad, hpack, hbits, hpad⟩ := hcodes.execAll_pack (BitVec.ofNat 8 e.length :: e ++
    (sh.bytes fun i => (u.node i).sym) ++ countBytes (u.weight u.root)) (hsame.paccn.trans hn) (hsame.pacc.trans hacc)
  refine ⟨u, sh, payload, pad, hcodes, hsame.out, ?_, hbits, hpad⟩
  rw [encodeSequence_eq, execAll_append, hu, andThen_next, hcodes.execAll_emitByte_treeSer,
    execAll_cons_of_next (hcodes.exec_countEmit _ hlen), hpack]
  rfl

/-- An input too long for the count's field ends in `COUNT_OVF` (R231). -/
theorem execAll_encodeSequence_of_overflow (hlen : 2 ^ 48 ≤ x.length) (hfit : x.length < 2 ^ 64) :
    ∃ t, execAll (encodeSequence x e) s = .next t ∧ t.err = .countOvf := by
  obtain ⟨u, sh, hu, hcodes, -⟩ :=
    execAll_codingCommands he (List.ne_nil_of_length_pos (Nat.lt_of_lt_of_le (by decide) hlen)) hfit
  have hexempt := exempt_encodeSequence x e
  rw [encodeSequence_eq] at hexempt ⊢
  rw [execAll_append, hu, andThen_next, hcodes.execAll_emitByte_treeSer]
  exact hcodes.execAll_countEmit_of_overflow _ hlen fun i hi =>
    hexempt i (List.mem_append_right _ (List.mem_append_right _ (.tail _ (.tail _ hi))))

/-- Without an input there is no symbol to build a tree of, and the rest of the sequence is ignored (R155, R246). -/
theorem execAll_encodeSequence_nil :
    ∃ t, execAll (encodeSequence [] e) s = .next t ∧ t.err = .empty ∧ t.out = s.out := by
  have hclear := exec_freqClear he
  have hempty := exec_of_seedError (i := .treeBuild) (s := { s with freq := Vector.replicate 256 0 }) (.inr rfl) he
    (seedError_of_zero fun _ => Vector.getElem_replicate _)
  obtain ⟨-, hexempt⟩ := List.forall_mem_cons.mp (exempt_encodeSequence [] e)
  obtain ⟨-, hexempt⟩ := List.forall_mem_cons.mp hexempt
  exact ⟨_, (execAll_cons_of_next hclear _).trans ((execAll_cons_of_next hempty _).trans
    (execAll_of_sticky hexempt nofun)), rfl, rfl⟩

end

/-- Settles O50: the tree and the codes are made before the first byte, and the bytes of each part follow those before. -/
theorem encodeSequenceEmitsAContainer : Obligations.EncodeSequenceEmitsAContainer := by
  refine fun x e s he hn hacc _ => ⟨fun hx hlen => ?_, ?_, execAll_encodeSequence_of_overflow he e⟩
  · obtain ⟨u, sh, payload, pad, hcodes, hout, hrun, hbits, hpad⟩ := execAll_encodeSequence he e hn hacc hx hlen
    have hcount : (u.weight u.root).toNat < 2 ^ 48 := hcodes.weight ▸ hlen
    rw [State.emitAll_eq] at hrun
    refine ⟨_, _, _, payload, pad, hrun, hcodes.err, congrArg (· ++ _) hout, hcodes.tree.serialized hcodes.arena,
      length_countBytes _, ?_, hcodes.cvalid, hpad, hbits⟩
    rw [bigEndianValue_countBytes, Nat.mod_eq_of_lt hcount, hcodes.weight]
  · rintro rfl
    exact execAll_encodeSequence_nil he e

end Sys2Proof.Machine

/-!
# The round trip (O51)

The decode sequence on a container parses a tree with the same codes, loads the count, and cuts the payload's bits into the
codes of the input.
-/

namespace Sys2Proof.Machine

/-! ## The tree -/

theorem exec_deserEnd_of_done {s : State} (he : s.err = .noError) (hs : s.dsState = .done) :
    exec .deserEnd s = .next s := by
  rw [exec, execDeserEnd, unlessSticky_clear he, hs]

/-- Bytes that complete a parse without an error are fed to the last one, and the bytes after them are left (R233). -/
theorem feedTree_of_execAll {bs : List Byte} (rest : List Byte) {s t : State} (h : execAll (bs.map .deserByte) s = .next t)
    (ht : t.err = .noError) (hs : s.dsState ≠ .done) (hdone : t.dsState = .done) :
    feedTree (bs ++ rest) s = some (t, rest) := by
  induction bs generalizing s with
  | nil =>
    cases h
    exact absurd hdone hs
  | cons b bs ih =>
    obtain ⟨u, hu, hrest⟩ := andThen_eq_next h
    have heu := err_of_execAll (exempt_of_mem_deserByte bs) hrest ht
    rw [List.cons_append, feedTree, hu]
    by_cases hud : u.dsState = .done
    · have hnil : bs = [] := by
        by_contra hne
        obtain ⟨v, hv, -, hnot⟩ := parse_unfinished (k := 0) hrest ht (List.length_pos_of_ne_nil hne)
        cases show u = v from Host.Outcome.next.inj hv
        exact hnot hud
      subst hnil
      cases hrest
      exact if_pos (.inl hud)
    · exact (if_neg (by simp [hud, heu])).trans (ih hrest hud)

/-- From any state of the invariant the bytes of a full tree that fits the arena are parsed into a tree of the same bytes
(R213, R216). -/
theorem parse_serialized {s : State} (h : Inv s) (he : s.err = .noError) {t : Shape} (ht : t.complete = true)
    (hfit : t.indices.length ≤ nodeCap) (f : NodeIdx → Byte) :
    ∃ u sh, execAll ((t.bytes f).map .deserByte) { s.invalidateTree with dsState := .marker } = .next u ∧
      u.err = .noError ∧ u.dsState = .done ∧ u.tvalid = true ∧ u.out = s.out ∧ TreeIs u sh ∧
      sh.bytes (fun i => (u.node i).sym) = t.bytes f := by
  obtain ⟨u, hrun, hp⟩ := parse_tree (h.of_exec (exec_deserStart he)) he rfl ht f (by simpa [State.ncount] using hfit)
  have hdone : u.dsState = .done := hp.state.trans (if_pos hp.stack)
  have hnodes : u.nodes.map Node.unlinked = t.parsedNodes f := hp.nodes
  have hphase := hp.inv.parsed hdone
  obtain ⟨sh, hsh, -, hbytes⟩ := hphase.treeIs
  have hout : u.out = s.out := (sameOutput_of_execAll (List.forall_mem_map.mpr fun _ _ => rfl) hrun).out
  refine ⟨u, sh, hrun, hp.err, hdone, hphase.present.1, hout, hsh, ?_⟩
  rw [hbytes, ← Shape.flatMap_bytes_parsedNodes, ← hnodes, List.flatMap_map]
  simp only [Node.bytes_unlinked]

/-! ## The count -/

/-- Bytes shifted into `REMAIN` append to the number it held, modulo 2^48 (R191). -/
theorem foldl_shiftCount_toNat (bs : List Byte) {r : Count} {n : Nat} (h : r.toNat = n % 2 ^ 48) :
    (bs.foldl shiftCount r).toNat = bs.foldl (fun v b => v * 2 ^ 8 + b.toNat) n % 2 ^ 48 := by
  induction bs generalizing r n with
  | nil => exact h
  | cons b bs ih =>
    have hb : (shiftCount r b).toNat = (n * 2 ^ 8 + b.toNat) % 2 ^ 48 := by rw [shiftCount_toNat, h]; omega
    exact ih hb

/-- A count's six bytes are loaded into `REMAIN` whole (R87, R233). -/
theorem toNat_foldl_shiftCount_countBytes (c : Word) :
    ((countBytes c).foldl shiftCount 0).toNat = c.toNat % 2 ^ 48 := by
  have hload := foldl_shiftCount_toNat (countBytes c) (r := 0) (n := 0) rfl
  have hvalue := bigEndianValue_countBytes c
  rw [bigEndianValue] at hvalue
  rw [hload, hvalue, Nat.mod_mod]

/-! ## The payload -/

theorem drainSymbols_eq_execAll (n : Nat) (s : State) : drainSymbols n s = execAll (List.replicate n .unpackSym) s := by
  induction n generalizing s with
  | zero => rfl
  | succ n ih => rw [drainSymbols, List.replicate_succ, execAll, funext ih]

/-- Payload bytes that are not fed, once the count is met, would do nothing (R192). -/
theorem feedPayload_eq_walkBits {s : State} (he : s.err = .noError) (hv : s.tvalid = true) (hr : s.isLeaf s.root = false)
    (bs : List Byte) : feedPayload bs s = .next (s.walkBits (streamBits bs)) := by
  induction bs generalizing s with
  | nil => rfl
  | cons b bs ih =>
    rw [feedPayload]
    split
    · obtain ⟨herr, htree, hroot⟩ := walkBits_keeps (byteBits b) s
      rw [exec_unpackByte_walks he hv b hr, andThen_next, ih (herr.trans he) (htree.trans hv) (hroot.trans hr),
        ← walkBits_append]
      rfl
    · next h0 => rw [walkBits_done _ s (BitVec.eq_of_toNat_eq (Nat.eq_zero_of_not_pos h0))]

/-- A payload that meets the count ends the sequence. -/
theorem decodePayload_of_met {s t : State} {payload : List Byte}
    (h : (if s.degen then drainSymbols s.remain.toNat s else feedPayload payload s) = .next t) (ht : t.err = .noError)
    (hr : t.remain = 0) : decodePayload payload s = .ran t := by
  rw [decodePayload, h, andThen_next, exec_unpackEnd_of_met ht hr]

section
variable {s : State} {x : List Byte} (he : s.err = .noError) (hv : s.tvalid = true) (hn : s.remain.toNat = x.length)
include he hv hn

/-- On a degenerate tree the input is as many times the root's symbol as the count says, and the payload is not read. -/
theorem drainSymbols_of_root (hr : s.isLeaf s.root = true) (hx : ∀ a ∈ x, a = (s.node s.root).sym) :
    drainSymbols s.remain.toNat s = .next { s.emitAll x with remain := 0 } := by
  have hreplicate : x = List.replicate s.remain.toNat (s.node s.root).sym := hn ▸ List.eq_replicate_of_mem hx
  rw [drainSymbols_eq_execAll, execAll_unpackSym he hv hr rfl, ← hreplicate]

variable {sh : Shape} {code : Byte → Bits} {payload : List Byte} {pad : Bits} (hsh : TreeIs s sh) (hw : s.walk = s.root)
  (hcoded : ∀ a ∈ x, (a, code a) ∈ sh.codes (fun i => (s.node i).sym) [])
  (hbits : streamBits payload = x.flatMap code ++ pad)
include hsh hw hcoded hbits

/-- Below an internal root the payload is the codes of the input's symbols and then padding. -/
theorem feedPayload_of_codes (hr : s.isLeaf s.root = false) (hnode : ∀ i, sh ≠ .leaf i) :
    feedPayload payload s = .next { s.emitAll x with remain := 0 } := by
  obtain ⟨hc, ha, htop, -⟩ := hsh
  simp only [Shape.mem_codes] at hcoded
  choose! leaf hleaf hsym using hcoded
  have hwalk := walkBits_codes (xs := x.map fun a => (leaf a, code a)) hc ha hnode htop hw
    (List.forall_mem_map.mpr hleaf) (by rw [hn, List.length_map])
  have hx : (x.map fun a => (s.node (leaf a)).sym) = x := (List.map_congr_left hsym).trans (List.map_id _)
  rw [List.flatMap_map, List.map_map, Function.comp_def, hx] at hwalk
  rw [feedPayload_eq_walkBits he hv hr, hbits, walkBits_append, hwalk, walkBits_done _ _ rfl]

/-- With the count of the input in `REMAIN`, its codes are decoded to the input, on either kind of tree (R195, R233). -/
theorem decodePayload_of_codes : decodePayload payload s = .ran { s.emitAll x with remain := 0 } := by
  have herr : ({ s.emitAll x with remain := 0 } : State).err = .noError := by rw [State.emitAll_eq]; exact he
  refine decodePayload_of_met ?_ herr rfl
  obtain ⟨hc, ha, htop, -⟩ := id hsh
  cases sh with
  | hole => exact nomatch hc
  | leaf i =>
    obtain ⟨n, hnode, hk⟩ := ha
    have hr : s.isLeaf s.root = true := htop ▸ isLeaf_of_getElem? hnode hk
    rw [State.degen, hv, hr]
    refine drainSymbols_of_root he hv hn hr fun a hmem => ?_
    obtain ⟨rfl, -⟩ : a = (s.node i).sym ∧ code a = [] := by simpa using hcoded a hmem
    rw [← htop, Shape.top_leaf]
  | node i l r =>
    obtain ⟨⟨n, hnode, hk, -⟩, -⟩ := ha
    have hr : s.isLeaf s.root = false := by
      rw [← htop, isLeaf_eq_false_iff, Shape.top_node, State.node_of_getElem? hnode, hk]
    rw [State.degen, hv, hr]
    exact feedPayload_of_codes he hv hn hsh hw hcoded hbits hr nofun

end

/-! ## The sequence -/

/-- The codes of the input are paths of the tree (R170). -/
theorem CodesOf.bits_mem_codes {x : List Byte} {s : State} {sh : Shape} (h : CodesOf x s sh) :
    ∀ a ∈ x, (a, (s.codeOf a).bits) ∈ sh.codes (fun i => (s.node i).sym) [] := fun a ha => by
  obtain ⟨p, hp, hcode⟩ := h.coded a ha
  obtain ⟨i, hi, -⟩ := Shape.mem_codes.mp hp
  rwa [hcode, ofPath_bits (h.tree.path_length_le h.arena hi)]

/-- The decode sequence, when each of its parts completes and at least a count follows the tree (R233). -/
theorem decodeSequence_of_parts {len : Byte} {body left : List Byte} {s s1 s2 s3 : State}
    (hbody : len.toNat ≤ body.length) (hstart : exec .deserStart s = .next s1)
    (htree : feedTree (body.drop len.toNat) s1 = some (s2, left)) (hend : exec .deserEnd s2 = .next s2)
    (hleft : 6 ≤ left.length) (hcount : execAll (.unpackInit :: (left.take 6).map .countShift) s2 = .next s3) :
    decodeSequence (len :: body) s = decodePayload (left.drop 6) s3 := by
  simp only [decodeSequence, if_neg hbody.not_gt, hstart, htree, hend, if_neg hleft.not_gt, hcount]

/-- On a container whose tree is parsed whole, the sequence loads its count and decodes its payload (R85, R233). -/
theorem decodeSequence_containerBytes {e tree count payload : List Byte} {s t : State} (hext : e.length ≤ 255)
    (hcount : count.length = 6) (he : s.err = .noError)
    (hparse : execAll (tree.map .deserByte) { s.invalidateTree with dsState := .marker } = .next t)
    (het : t.err = .noError) (hdone : t.dsState = .done) : decodeSequence (containerBytes e tree count payload) s =
      decodePayload payload { t with remain := count.foldl shiftCount 0, walk := t.root } := by
  have hlen : (BitVec.ofNat 8 e.length).toNat = e.length := by
    rw [BitVec.toNat_ofNat, Nat.mod_eq_of_lt (by omega)]
  have hbytes : containerBytes e tree count payload =
      BitVec.ofNat 8 e.length :: (e ++ (tree ++ (count ++ payload))) := by
    simp [containerBytes]
  have hfeed := feedTree_of_execAll (count ++ payload) hparse het nofun hdone
  have hload : execAll (.unpackInit :: ((count ++ payload).take 6).map .countShift) t =
      .next { t with remain := count.foldl shiftCount 0, walk := t.root } := by
    rw [List.take_left' hcount, execAll_cons_of_next (exec_unpackInit het), execAll_countShift (by exact het)]
  rw [hbytes, decodeSequence_of_parts (by simp [hlen]) (exec_deserStart he)
    (by rw [hlen, List.drop_left]; exact hfeed) (exec_deserEnd_of_done het hdone) (by simp [hcount]) hload,
    List.drop_left' hcount]

/-- The container of an input is decoded to it by every block of the invariant (R234). -/
theorem CodesOf.decodeSequence {x e payload : List Byte} {pad : Bits} {u v : State} {sh : Shape} (h : CodesOf x u sh)
    (hlen : x.length < 2 ^ 48) (hext : e.length ≤ 255)
    (hbits : streamBits payload = (x.flatMap fun a => (u.codeOf a).bits) ++ pad) (hv : Inv v) (he : v.err = .noError) :
    ∃ w, Machine.decodeSequence
        (containerBytes e (sh.bytes fun i => (u.node i).sym) (countBytes (u.weight u.root)) payload) v = .ran w ∧
      w.err = .noError ∧ w.out = v.out ++ x := by
  obtain ⟨hc, -, -, hcov⟩ := h.tree
  obtain ⟨t, sh', hparse, het, hdone, hvalid, hout, hsh', hbytes⟩ :=
    parse_serialized hv he hc (hcov.length.trans_le h.arena) fun i => (u.node i).sym
  obtain ⟨hcodes, -⟩ := Shape.codes_eq_of_bytes hsh'.1 hc (congrArg (· ++ []) hbytes) []
  have hcount : ((countBytes (u.weight u.root)).foldl shiftCount 0).toNat = x.length := by
    rw [toNat_foldl_shiftCount_countBytes, h.weight, Nat.mod_eq_of_lt hlen]
  have hpayload := decodePayload_of_codes
    (s := { t with remain := (countBytes (u.weight u.root)).foldl shiftCount 0, walk := t.root })
    het hvalid hcount hsh' rfl (hcodes ▸ h.bits_mem_codes) hbits
  rw [State.emitAll_eq] at hpayload
  exact ⟨_, (decodeSequence_containerBytes hext (length_countBytes _) he hparse het hdone).trans hpayload, het,
    congrArg (· ++ x) hout⟩

/-- Settles O51: the emitted bytes are the container of a tree whose codes every decoding block finds again. -/
theorem roundTrip : Obligations.RoundTrip := by
  refine fun x e s he hn hacc hext => ⟨fun hpos hlen => ?_, ?_⟩
  · have hfit : x.length < 2 ^ 48 := by omega
    obtain ⟨u, sh, payload, pad, hcodes, hout, hrun, hbits, -⟩ :=
      execAll_encodeSequence he e hn hacc (List.ne_nil_of_length_pos hpos) hfit
    rw [State.emitAll_eq] at hrun
    exact ⟨_, _, hrun, hcodes.err, congrArg (· ++ _) hout, fun v hv hev => hcodes.decodeSequence hfit hext hbits hv hev⟩
  · rintro rfl
    exact execAll_encodeSequence_nil he e

end Sys2Proof.Machine
